-- ==== Sys2Proof/Word.lean ====
section
/-! DEFINITION. The word types of the block: bytes of `BUF`, 16-bit symbol words and palette entries, 32-bit registers,
15-bit durations (spec/00_scope.md R7, R8, R11; spec/10_state.md R23). -/

namespace Sys2Proof

/-- A byte of `BUF` (spec/20_memory.md R60). -/
abbrev Byte := BitVec 8

/-- A 16-bit symbol word or palette entry (spec/30_encoding.md R84, R86). -/
abbrev Half := BitVec 16

/-- A 32-bit register or command word (spec/10_state.md R23). -/
abbrev Word := BitVec 32

/-- A symbol's duration in µs, `DUR_BITS` = 15 bits wide (spec/00_scope.md R7, R11). -/
abbrev Dur := BitVec 15

/-- `PALETTE_MAX`, the palette's capacity (spec/00_scope.md R7). -/
abbrev paletteMax : Nat := 16

end Sys2Proof
end

