-- ==== Sys2Proof/Config.lean ====
section
/-! DEFINITION. The implementation parameters of spec/00_scope.md R7: what one built block fixes. -/

namespace Sys2Proof

/-- The parameters a model takes (spec/00_scope.md R7).  `necStopSpace` is a duration by its type
(spec/41_encode_nec.md R123: it lies in 0 .. 32767). -/
structure Params where
  bufBytes : Nat
  paletteTol : Nat
  magic : Byte
  necStopSpace : Dur
  blockId : Word
  deriving DecidableEq, Repr

/-- `MAGIC`: OPEN in the spec, no default (spec/92_eei_decisions.md D31): nothing here can evaluate it. -/
opaque Config.magic : Byte

/-- `BLOCK_ID`: OPEN in the spec, no default (spec/92_eei_decisions.md D43): nothing here can evaluate it. -/
opaque Config.blockId : Word

/-- The block at the spec's default parameters, the two open ones left open (spec/00_scope.md R7). -/
def Config.params : Params where
  bufBytes := 4096
  paletteTol := 100
  magic := Config.magic
  necStopSpace := 0
  blockId := Config.blockId

end Sys2Proof
end

