-- ==== Sys2Proof/Syntax.lean ====
section
/-! DEFINITION. The block's commands: the rows of spec/opcode_table.json (spec/30_encoding.md R82).  A command has no
operand fields (R80): its operands are the registers captured at acceptance (spec/10_state.md R22). -/

namespace Sys2Proof

/-- The four commands (spec/00_scope.md R2, spec/30_encoding.md R82). -/
inductive Instr where
  /-- `ENC_UNIV`, universal pulse encode (spec/40_encode_universal.md R100). -/
  | encUniv
  /-- `ENC_NEC`, NEC reference encode (spec/41_encode_nec.md R120). -/
  | encNec
  /-- `COMPRESS`, palette encode of a pulse train (spec/42_compress.md R140). -/
  | compress
  /-- `DECOMPRESS`, palette decode of a Persisted Signal (spec/43_decompress.md R160). -/
  | decompress
  deriving DecidableEq, Repr

end Sys2Proof
end

