-- ==== Sys2Proof/WellFormed.lean ====
section
/-! DEFINITION. Well-formedness of commands and of parameters. -/

namespace Sys2Proof

/-- A command has no operands (spec/30_encoding.md R80), so every term of `Instr` is well formed: there is no check
that could refuse one. -/
def Instr.wf : Instr → Bool
  | .encUniv => true
  | .encNec => true
  | .compress => true
  | .decompress => true

/-- `BUF_BYTES` is a multiple of 4 (spec/00_scope.md R7). -/
def Params.bufAligned (p : Params) : Bool := p.bufBytes % 4 == 0

/-- `BUF_BYTES` is at least 64 (spec/00_scope.md R7). -/
def Params.bufLargeEnough (p : Params) : Bool := Nat.ble 64 p.bufBytes

/-- `BUF_BYTES` is at most 2^24 (spec/00_scope.md R7). -/
def Params.bufSmallEnough (p : Params) : Bool := Nat.ble p.bufBytes 16777216

/-- The parameters are in the ranges spec/00_scope.md R7 gives.  The other ranges (`MAGIC` 8 bits, `BLOCK_ID` 32 bits,
`NEC_STOP_SPACE` 0 to 32767) hold by the fields' types; the spec bounds `PALETTE_TOL` nowhere. -/
def Params.wf (p : Params) : Bool := p.bufAligned && p.bufLargeEnough && p.bufSmallEnough

end Sys2Proof
end

