-- ==== Sys2Proof/Decode.lean ====
section
/-! DEFINITION. Decoding and encoding of the command word (spec/30_encoding.md R80 to R83). -/

namespace Sys2Proof

/-- Why a command word is no command. -/
inductive DecodeError where
  /-- `OP` is 0x0 or 0x5 to 0xF (spec/30_encoding.md R83).  The block completes such a command with `IllegalCommand`
  (spec/60_exceptions.md R203); the machine is not stopped. -/
  | illegalOp (op : BitVec 4)
  deriving DecidableEq, Repr

/-- `OP = v[3:0]`; a decoder reads nothing else (spec/30_encoding.md R81). -/
def opField (v : Word) : BitVec 4 := v.extractLsb' 0 4

/-- The opcode map read from number to command (spec/30_encoding.md R82, R83). -/
def decodeOp (op : BitVec 4) : Except DecodeError Instr :=
  if op = 0x1#4 then .ok .encUniv
  else if op = 0x2#4 then .ok .encNec
  else if op = 0x3#4 then .ok .compress
  else if op = 0x4#4 then .ok .decompress
  else .error (.illegalOp op)

/-- The command a 32-bit command word names (spec/30_encoding.md R81): total, rejecting by name. -/
def decode (v : Word) : Except DecodeError Instr := decodeOp (opField v)

/-- Four bytes as a word, the first the lowest (spec/20_memory.md R61). -/
def wordOfBytes (b0 b1 b2 b3 : Byte) : Word :=
  b0.setWidth 32 ||| b1.setWidth 32 <<< 8 ||| b2.setWidth 32 <<< 16 ||| b3.setWidth 32 <<< 24

/-- The command word that four bytes of a little-endian transaction carry, with the bytes after it
(spec/20_memory.md R61); `none` where fewer than four bytes are given. -/
def decodeBytes : List Byte → Option (Except DecodeError Instr × List Byte)
  | b0 :: b1 :: b2 :: b3 :: rest => some (decode (wordOfBytes b0 b1 b2 b3), rest)
  | _ => none

/-- The opcode map read from command to number (spec/30_encoding.md R82). -/
def opcode : Instr → BitVec 4
  | .encUniv => 0x1#4
  | .encNec => 0x2#4
  | .compress => 0x3#4
  | .decompress => 0x4#4

/-- A command's word; the ignored bits [31:4] are written 0 (spec/30_encoding.md R81, R92). -/
def encode (i : Instr) : Word := (opcode i).setWidth 32

/-- The word of `nbits` bits `w` as it is written to `CMD`; the bits above `nbits` are 0. -/
def tableWord (nbits w : Nat) : Word := BitVec.ofNat 32 (w % 2 ^ nbits)

/-- The four bytes of a command word, low byte first (spec/20_memory.md R61). -/
def commandBytes (v : Word) : List Byte :=
  [v.extractLsb' 0 8, v.extractLsb' 8 8, v.extractLsb' 16 8, v.extractLsb' 24 8]

/-- What the decoder reads from the command word whose low `nbits` bits are `w`. -/
def decodeTableWord (nbits w : Nat) : Option Instr :=
  match decodeBytes (commandBytes (tableWord nbits w)) with
  | some (.ok i, _) => some i
  | some (.error _, _) => none
  | none => none

end Sys2Proof
end

