-- ==== Sys2Proof/Machine/State.lean ====
section
/-! DEFINITION. The state of the block and of the two agents of spec/00_scope.md R4, as plain data, and its reset
value (spec/10_state.md R54). -/

namespace Sys2Proof.Machine

/-- The faults a model of the block records: exactly these three (spec/60_exceptions.md R207, R208).  A fault ends the
run for good. -/
inductive Fault where
  /-- Raised by a host transaction the window map rejects (spec/10_state.md R49, spec/20_memory.md R64, R65): `offset`
  is the window offset, `width` the transaction's bytes.  Safe: the block answers a bus error and changes nothing; what
  the host does next is the platform's. -/
  | hostBusError (offset width : Nat)
  /-- Raised by a host read, or a command's `MemRead`, of a `BUF` byte not written since reset (spec/20_memory.md R68);
  `offset` is the lowest such `BUF` offset of the access.  Safe: the chip goes on with an unspecified value. -/
  | unwrittenRead (offset : Nat)
  /-- Raised by a host access to `BUF` at `BUF` offset `offset` while a command runs (spec/20_memory.md R74).  Safe: the
  chip goes on with an unspecified result. -/
  | busyBufAccess (offset : Nat)
  deriving DecidableEq, Repr

/-- Why an instruction has no meaning. -/
inductive Refusal where
  /-- Raised by an arm of `exec` whose instruction has no meaning yet; no arm raises it now.  Safe: the model stops. -/
  | notModelled (mnemonic : String)
  deriving DecidableEq, Repr

/-- A (mark, space) pair of durations: one timing register of spec/10_state.md R37 to R40. -/
structure Pair where
  mark : Dur
  space : Dur
  deriving DecidableEq, Repr

/-- The twelve operand registers, field by field (spec/10_state.md R33, R37 to R47): what a command's snapshot copies
(spec/10_state.md R22).  Only the bits the register table gives a field exist (spec/10_state.md R50). -/
structure OperandRegs where
  srcAddr : Word
  srcLen : Word
  dstAddr : Word
  dstCap : Word
  tmValid : Bool
  tmLsbFirst : Bool
  tmHdr : Pair
  tmBit1 : Pair
  tmBit0 : Pair
  tmFtr : Pair
  tmGap : Dur
  tmRepeat : BitVec 8
  necAddress : Half
  necCommand : Half
  deriving DecidableEq, Repr

/-- The width of a bus transaction: 1, 2 or 4 bytes (spec/10_state.md R20). -/
inductive Width where
  | one
  | two
  | four
  deriving DecidableEq, Repr

/-- The direction of a bus transaction, with its write data (spec/10_state.md R20). -/
inductive Access where
  | read
  | write (v : Word)
  deriving DecidableEq, Repr

/-- One transaction of the bus port: an offset into the block's window, a width, a direction (spec/10_state.md R20). -/
structure Txn where
  offset : Nat
  width : Width
  access : Access
  deriving DecidableEq, Repr

/-- What the host does in one turn. -/
inductive HostOp where
  /-- One bus transaction. -/
  | access (t : Txn)
  /-- One pass of the `WAIT` loop: a read of `STATUS`, repeated until BUSY = 0 and DONE = 1 (spec/30_encoding.md R92). -/
  | wait
  deriving DecidableEq, Repr

/-- Who moves in one step of the total order of spec/20_memory.md R70; `rst` is the reset port (spec/10_state.md R20). -/
inductive Turn where
  | host
  | engine
  | rst
  deriving DecidableEq, Repr

/-- The bus port's answer to the last transaction (spec/10_state.md R20).  A bus error is no answer of this kind: it is
the fault `hostBusError`. -/
inductive Response where
  /-- No transaction since reset. -/
  | none
  /-- The read data, zero-extended to 32 bits. -/
  | readData (v : Word)
  /-- A write was done. -/
  | writeDone
  deriving DecidableEq, Repr

/-- `BUF` as (offset, byte) pairs with strictly rising offsets; an offset that is not listed is unwritten
(spec/10_state.md R52, spec/20_memory.md R68). -/
abbrev Memory := List Host.Cell

/-- The whole state: the registers (spec/10_state.md R23), the hidden state (spec/10_state.md R53), `BUF`, the bus
port's answer, and the model's own two fields `host` and `turns`. -/
structure State where
  /-- The parameters; `ID` and `BUFSIZE` read them (spec/10_state.md R24, R25).  No step changes them. -/
  params : Params
  /-- `CTRL.IRQ_EN` (spec/10_state.md R26). -/
  irqEn : Bool
  /-- `STATUS.BUSY` (spec/10_state.md R27). -/
  busy : Bool
  /-- `STATUS.DONE` (spec/10_state.md R27). -/
  done : Bool
  /-- `STATUS.CMD_LOST` (spec/10_state.md R27). -/
  cmdLost : Bool
  /-- `ERR.CODE` (spec/10_state.md R30). -/
  err : BitVec 4
  /-- `RESULT_LEN` (spec/10_state.md R31). -/
  resultLen : Word
  /-- `PAL_SIZE.N` (spec/10_state.md R32). -/
  palSize : BitVec 5
  /-- The live operand registers (spec/10_state.md R33, R37 to R47). -/
  ops : OperandRegs
  /-- `TM_CARRIER.HZ` (spec/10_state.md R34). -/
  tmCarrier : Word
  /-- `TM_DUTY.PCT` (spec/10_state.md R35). -/
  tmDuty : BitVec 8
  /-- The accepted opcode `cur_op` (spec/10_state.md R21). -/
  curOp : BitVec 4
  /-- The operand snapshot `snap` (spec/10_state.md R22). -/
  snap : OperandRegs
  /-- `BUF` (spec/10_state.md R52). -/
  buf : Memory
  /-- The bus port's last answer (spec/10_state.md R20). -/
  resp : Response
  /-- The host's program: what it still has to do, in program order (spec/20_memory.md R70). -/
  host : List HostOp
  /-- The schedule: who moves in the coming steps (spec/20_memory.md R70, spec/70_reset_and_hazards.md R240). -/
  turns : List Turn
  deriving DecidableEq, Repr

/-- Every operand register 0 (spec/10_state.md R54). -/
def OperandRegs.zero : OperandRegs where
  srcAddr := 0
  srcLen := 0
  dstAddr := 0
  dstCap := 0
  tmValid := false
  tmLsbFirst := false
  tmHdr := ⟨0, 0⟩
  tmBit1 := ⟨0, 0⟩
  tmBit0 := ⟨0, 0⟩
  tmFtr := ⟨0, 0⟩
  tmGap := 0
  tmRepeat := 0
  necAddress := 0
  necCommand := 0

/-- The state after `rst` is released, of a block with parameters `p` (spec/10_state.md R54).  DESIGN CHOICE (log 2,
unsafe): `cur_op` and `snap`, whose reset values the spec leaves unspecified, are 0. -/
def State.resetWith (p : Params) : State where
  params := p
  irqEn := false
  busy := false
  done := false
  cmdLost := false
  err := 0
  resultLen := 0
  palSize := 0
  ops := OperandRegs.zero
  tmCarrier := 0
  tmDuty := 0
  curOp := 0
  snap := OperandRegs.zero
  buf := []
  resp := .none
  host := []
  turns := []

/-- The state after reset at the spec's default parameters (spec/10_state.md R54, spec/00_scope.md R7). -/
def State.reset : State := State.resetWith Config.params

end Sys2Proof.Machine
end

