-- ==== Sys2Proof/Machine/Ops.lean ====
section
/-! DEFINITION. The operations every command and transaction shares: bytes of `BUF`, the ways a computation ends, the
region checks, command acceptance, the completion step and the reset port.  The block has no trap entry
(spec/60_exceptions.md R209): where another machine takes an exception, this one completes a command with an error
code, which is `complete` below. -/

namespace Sys2Proof.Machine

/-! ## Bytes of `BUF` -/

/-- The byte at a `BUF` offset; `none` where it is unwritten (spec/20_memory.md R68). -/
def Memory.read : Memory → Nat → Option Byte
  | [], _ => none
  | (x, y) :: m, a => if a = x then some y else Memory.read m a

/-- One byte written; the list stays sorted by offset. -/
def Memory.write : Memory → Nat → Byte → Memory
  | [], a, b => [(a, b)]
  | (x, y) :: m, a, b =>
    if a < x then (a, b) :: (x, y) :: m
    else if a = x then (a, b) :: m
    else (x, y) :: Memory.write m a b

/-- Consecutive bytes written from offset `a` up. -/
def Memory.writeBytes : Memory → Nat → List Byte → Memory
  | m, _, [] => m
  | m, a, b :: bs => Memory.writeBytes (Memory.write m a b) (a + 1) bs

/-- The canonical form: offsets strictly rise.  An unlisted offset reads as unwritten, so every listed byte differs from
what an unlisted one reads as. -/
def Memory.wf : Memory → Bool
  | [] => true
  | [_] => true
  | (x, _) :: (y, c) :: m => Nat.blt x y && Memory.wf ((y, c) :: m)

/-- Every listed offset lies below `n`: `BUF` has no byte at `n` or above (spec/10_state.md R52). -/
def Memory.below (n : Nat) (m : Memory) : Bool := m.all (fun c => Nat.blt c.1 n)

/-- Bytes, lowest offset first, as one unsigned number (spec/00_scope.md R10, spec/20_memory.md R61). -/
def leNat : List Byte → Nat
  | [] => 0
  | b :: bs => b.toNat + 256 * leNat bs

/-- The `n` bytes of `trunc_{8n}(v)`, lowest offset first (spec/00_scope.md R10, spec/20_memory.md R61). -/
def leBytes : Nat → Nat → List Byte
  | 0, _ => []
  | n + 1, v => BitVec.ofNat 8 v :: leBytes n (v / 256)

/-! ## How a computation ends -/

/-- What a command's computation is stopped for, as the pseudocode's `raise E(info)` names it.  Only the error code is
kept (spec/60_exceptions.md R200). -/
inductive Cause where
  /-- No timing model (spec/40_encode_universal.md R101). -/
  | nullModel
  /-- An empty payload (spec/40_encode_universal.md R101). -/
  | emptyPayload
  /-- A source region past the end of `BUF` (spec/60_exceptions.md R204). -/
  | srcRange
  /-- A symbol source at an odd offset (spec/60_exceptions.md R204). -/
  | srcAlign
  /-- A destination region past the end of `BUF` (spec/60_exceptions.md R204). -/
  | dstRange
  /-- A symbol destination at an odd offset (spec/60_exceptions.md R204). -/
  | dstAlign
  /-- Source and destination overlap (spec/60_exceptions.md R204). -/
  | overlap
  /-- A 17th bucket is needed, at symbol `symbol` (spec/42_compress.md R143). -/
  | capacityExceeded (symbol : Nat)
  /-- The signal is shorter than declared (spec/43_decompress.md R161 cases 1, 4, 7). -/
  | truncated
  /-- Byte 0 is not `MAGIC` (spec/43_decompress.md R161 case 2). -/
  | badMagic
  /-- N > 16 (spec/43_decompress.md R161 case 3). -/
  | paletteTooLarge
  /-- A palette entry above 0x7FFF (spec/43_decompress.md R161 case 5). -/
  | badDuration
  /-- Symbols but no palette (spec/43_decompress.md R161 case 6). -/
  | emptyPalette
  /-- The output, of length `needed`, is longer than `DST_CAP` (spec/60_exceptions.md R204). -/
  | allocationFailure (needed : Nat)
  /-- An illegal `OP` (spec/60_exceptions.md R203). -/
  | illegalCommand
  deriving DecidableEq, Repr

/-- The error code of a cause (spec/60_exceptions.md R200). -/
def Cause.code : Cause → BitVec 4
  | .nullModel => 1
  | .emptyPayload => 1
  | .srcRange => 1
  | .srcAlign => 1
  | .dstRange => 1
  | .dstAlign => 1
  | .overlap => 1
  | .capacityExceeded _ => 2
  | .truncated => 3
  | .badMagic => 3
  | .paletteTooLarge => 3
  | .badDuration => 3
  | .emptyPalette => 3
  | .allocationFailure _ => 5
  | .illegalCommand => 6

/-- How a computation stops before its result. -/
inductive Halt where
  /-- The block's own error, reported in `ERR` (spec/60_exceptions.md R202). -/
  | raise (c : Cause)
  /-- A `MemRead` touched an unwritten byte at this `BUF` offset: a fault of the model (spec/60_exceptions.md R208). -/
  | unwritten (offset : Nat)
  deriving DecidableEq, Repr

/-- Bytes to be written to consecutive `BUF` offsets: one `MemWrite` of the pseudocode (spec/00_scope.md R10). -/
structure BufWrite where
  offset : Nat
  bytes : List Byte
  deriving DecidableEq, Repr

/-- The result of a successful computation (spec/00_scope.md R12): the writes in order, `RESULT_LEN`, `PAL_SIZE`. -/
structure Output where
  writes : List BufWrite
  len : Nat
  pal : Nat
  deriving DecidableEq, Repr

/-- `if c: raise cause` of the pseudocode. -/
def raiseIf (c : Bool) (cause : Cause) : Except Halt Unit :=
  if c then .error (.raise cause) else .ok ()

/-- The byte at an offset, or the offset itself where it is unwritten. -/
def Memory.byteAt (m : Memory) (a : Nat) : Except Nat Byte :=
  match Memory.read m a with
  | some b => .ok b
  | none => .error a

/-- `n` bytes from offset `a` up, or the lowest unwritten offset among them (log 9). -/
def Memory.bytesAt (m : Memory) : Nat → Nat → Except Nat (List Byte)
  | _, 0 => .ok []
  | a, n + 1 => do
    let b ← Memory.byteAt m a
    let bs ← Memory.bytesAt m (a + 1) n
    .ok (b :: bs)

/-- `n` bytes from offset `a` up as one little-endian number, or the lowest unwritten offset among them
(spec/00_scope.md R10, spec/20_memory.md R68). -/
def Memory.load (m : Memory) (a n : Nat) : Except Nat Nat := do
  let bs ← Memory.bytesAt m a n
  .ok (leNat bs)

/-- What a read that touches an unwritten byte is for a computation (spec/20_memory.md R68). -/
def orUnwritten {α : Type} (r : Except Nat α) : Except Halt α :=
  match r with
  | .ok x => .ok x
  | .error a => .error (.unwritten a)

/-- `MemRead(a, 1)` as a byte (spec/00_scope.md R10). -/
def readByte (m : Memory) (a : Nat) : Except Halt Byte := orUnwritten (Memory.byteAt m a)

/-- `MemRead(a + j, 1)` for j = 0 .. n-1, as bytes (spec/00_scope.md R10). -/
def readBytes (m : Memory) (a n : Nat) : Except Halt (List Byte) := orUnwritten (Memory.bytesAt m a n)

/-- `MemRead(a, n)` (spec/00_scope.md R10). -/
def memRead (m : Memory) (a n : Nat) : Except Halt Nat := orUnwritten (Memory.load m a n)

/-- `MemWrite(a, n, v)` (spec/00_scope.md R10). -/
def memWrite (m : Memory) (a n v : Nat) : Memory := Memory.writeBytes m a (leBytes n v)

/-- `MemWrite(a, n, v)` as an entry of a computation's list of writes (spec/00_scope.md R12). -/
def bufWrite (a n v : Nat) : BufWrite := ⟨a, leBytes n v⟩

/-- The writes of a computation applied in order (spec/60_exceptions.md R201). -/
def applyWrites : Memory → List BufWrite → Memory
  | m, [] => m
  | m, w :: ws => applyWrites (Memory.writeBytes m w.offset w.bytes) ws

/-! ## The region checks of spec/60_exceptions.md R204 -/

/-- `checkSrcBytes(a, n)`. -/
def checkSrcBytes (p : Params) (a n : Nat) : Except Halt Unit :=
  raiseIf (decide (a + n > p.bufBytes)) .srcRange

/-- `checkSrcSymbols(a, n)`: alignment before range. -/
def checkSrcSymbols (p : Params) (a n : Nat) : Except Halt Unit := do
  raiseIf (decide (a % 2 ≠ 0)) .srcAlign
  raiseIf (decide (a + 2 * n > p.bufBytes)) .srcRange

/-- `checkDstBytes(a, c)`. -/
def checkDstBytes (p : Params) (a c : Nat) : Except Halt Unit :=
  raiseIf (decide (a + c > p.bufBytes)) .dstRange

/-- `checkDstSymbols(a, c)`: alignment before range. -/
def checkDstSymbols (p : Params) (a c : Nat) : Except Halt Unit := do
  raiseIf (decide (a % 2 ≠ 0)) .dstAlign
  raiseIf (decide (a + 2 * c > p.bufBytes)) .dstRange

/-- Two half-open regions overlap; an empty one overlaps nothing. -/
def regionsOverlap (s0 s1 d0 d1 : Nat) : Bool :=
  decide (s0 < s1) && decide (d0 < d1) && decide (s0 < d1) && decide (d0 < s1)

/-- `checkNoOverlap([s0, s1), [d0, d1))`. -/
def checkNoOverlap (s0 s1 d0 d1 : Nat) : Except Halt Unit :=
  raiseIf (regionsOverlap s0 s1 d0 d1) .overlap

/-! ## Acceptance, completion, reset -/

/-- Acceptance of a command: `cur_op` and `snap` are taken, DONE falls, BUSY rises (spec/10_state.md R29). -/
def State.accept (op : BitVec 4) (s : State) : State :=
  { s with curOp := op, snap := s.ops, done := false, busy := true }

/-- A write to `CMD` (spec/10_state.md R29). -/
def State.writeCmd (v : Word) (s : State) : State :=
  if s.busy then { s with cmdLost := true } else s.accept (opField v)

/-- The completion of a command that succeeded (spec/60_exceptions.md R201). -/
def State.finishOk (o : Output) (s : State) : State :=
  { s with
    buf := applyWrites s.buf o.writes
    err := 0
    resultLen := BitVec.ofNat 32 o.len
    palSize := BitVec.ofNat 5 o.pal
    busy := false
    done := true }

/-- The completion of a command that failed: no `BUF` byte is written (spec/60_exceptions.md R202). -/
def State.finishError (c : Cause) (s : State) : State :=
  { s with
    err := c.code
    resultLen := 0
    palSize := 0
    busy := false
    done := true }

/-- The completion step applied to a computation's result (spec/60_exceptions.md R201, R208). -/
def complete (r : Except Halt Output) (s : State) : Host.Outcome State Fault Refusal :=
  match r with
  | .ok o => .next (s.finishOk o)
  | .error (.raise c) => .next (s.finishError c)
  | .error (.unwritten a) => .fault (.unwrittenRead a)

/-- The completion of an illegal command: no check is made, no byte is read (spec/60_exceptions.md R203). -/
def completeIllegal (s : State) : Host.Outcome State Fault Refusal :=
  complete (.error (.raise .illegalCommand)) s

/-- The reset port: every register and `BUF` as spec/10_state.md R54 says, a running command abandoned
(spec/70_reset_and_hazards.md R230).  The host's program and the schedule are not the block's and stay. -/
def State.resetBlock (s : State) : State :=
  { State.resetWith s.params with host := s.host, turns := s.turns }

/-- The bus port's answer. -/
def State.respond (r : Response) (s : State) : State := { s with resp := r }

/-- The host's remaining program replaced. -/
def State.setHost (h : List HostOp) (s : State) : State := { s with host := h }

/-- The schedule replaced. -/
def State.setTurns (ts : List Turn) (s : State) : State := { s with turns := ts }

/-- `BUF` replaced. -/
def State.setBuf (m : Memory) (s : State) : State := { s with buf := m }

end Sys2Proof.Machine
end

