-- ==== Sys2Proof/Machine/Flags.lean ====
section
/-! DEFINITION. The block's flags (spec/10_state.md R27, R28, R51) and the interrupt output (spec/60_exceptions.md
R206). -/

namespace Sys2Proof.Machine

/-- `STATUS.ERROR`: always `ERR.CODE ≠ 0` (spec/10_state.md R27). -/
def State.error (s : State) : Bool := decide (s.err ≠ 0#4)

/-- A one-bit field in bit 0 of a word whose other bits are 0. -/
def boolWord (b : Bool) : Word := if b then 1 else 0

/-- `STATUS` as it reads: BUSY, DONE, ERROR, CMD_LOST in bits 0 to 3, the rest 0 (spec/10_state.md R27). -/
def State.statusWord (s : State) : Word :=
  boolWord s.busy ||| boolWord s.done <<< 1 ||| boolWord s.error <<< 2 ||| boolWord s.cmdLost <<< 3

/-- A host write to `STATUS`: bits 1 and 3 clear DONE and CMD_LOST where they are 1, all other bits are ignored
(spec/10_state.md R28). -/
def State.writeStatus (v : Word) (s : State) : State :=
  { s with
    done := s.done && !(v.getLsbD 1)
    cmdLost := s.cmdLost && !(v.getLsbD 3) }

/-- The `irq` output: `DONE & IRQ_EN`, a level (spec/60_exceptions.md R206). -/
def State.irq (s : State) : Bool := s.done && s.irqEn

/-- A host write to `CTRL`: bit 0 is kept, at once (spec/10_state.md R26). -/
def State.writeCtrl (v : Word) (s : State) : State := { s with irqEn := v.getLsbD 0 }

end Sys2Proof.Machine
end

