-- ==== Sys2Proof/Machine/Operands.lean ====
section
/-! DEFINITION. The operand forms: the fields of the operand registers as words (spec/10_state.md R33 to R50), and the
operands a command assembles from its snapshot (spec/30_encoding.md R90). -/

namespace Sys2Proof.Machine

/-! ## Fields and register words -/

/-- A (mark, space) register as it reads: SPACE in bits [30:16], MARK in [14:0], bits 31 and 15 zero
(spec/10_state.md R37). -/
def pairWord (p : Pair) : Word := p.mark.setWidth 32 ||| p.space.setWidth 32 <<< 16

/-- The fields a write to a (mark, space) register keeps (spec/10_state.md R37, R50). -/
def pairOfWord (v : Word) : Pair := ⟨v.extractLsb' 0 15, v.extractLsb' 16 15⟩

/-- `TM_CTRL` as it reads (spec/10_state.md R33). -/
def tmCtrlWord (o : OperandRegs) : Word := boolWord o.tmValid ||| boolWord o.tmLsbFirst <<< 1

/-- `TM_GAP` as it reads (spec/10_state.md R41). -/
def gapWord (d : Dur) : Word := d.setWidth 32

/-- An 8-bit field in bits [7:0] as it reads: `TM_DUTY`, `TM_REPEAT` (spec/10_state.md R35, R42). -/
def byteWord (b : BitVec 8) : Word := b.setWidth 32

/-- `NEC_ARG` as it reads (spec/10_state.md R47). -/
def necArgWord (o : OperandRegs) : Word := o.necAddress.setWidth 32 ||| o.necCommand.setWidth 32 <<< 16

/-! ## The operands of spec/30_encoding.md R90 -/

/-- `SRC_ADDR` as an offset in `BUF`. -/
def OperandRegs.src (o : OperandRegs) : Nat := o.srcAddr.toNat

/-- `SRC_LEN` as a count. -/
def OperandRegs.len (o : OperandRegs) : Nat := o.srcLen.toNat

/-- `DST_ADDR` as an offset in `BUF`. -/
def OperandRegs.dst (o : OperandRegs) : Nat := o.dstAddr.toNat

/-- `DST_CAP` as a count. -/
def OperandRegs.cap (o : OperandRegs) : Nat := o.dstCap.toNat

/-- `k = TM_REPEAT[7:0]`: frames after the first. -/
def OperandRegs.repeats (o : OperandRegs) : Nat := o.tmRepeat.toNat

/-- A frame has a header: `hdr_mark > 0` (spec/40_encode_universal.md R102). -/
def OperandRegs.hasHeader (o : OperandRegs) : Bool := decide (o.tmHdr.mark.toNat > 0)

end Sys2Proof.Machine
end

