-- ==== Sys2Proof/Machine/Registers.lean ====
section
/-! DEFINITION. The register map: offsets, reads and writes (spec/10_state.md R23 to R50). -/

namespace Sys2Proof.Machine

/-- The registers of the map (spec/10_state.md R23). -/
inductive Reg where
  | id
  | bufsize
  | ctrl
  | status
  | cmd
  | err
  | resultLen
  | palSize
  | srcAddr
  | srcLen
  | dstAddr
  | dstCap
  | tmCtrl
  | tmCarrier
  | tmDuty
  | tmHdr
  | tmBit1
  | tmBit0
  | tmFtr
  | tmGap
  | tmRepeat
  | necArg
  deriving DecidableEq, Repr

/-- A register's window offset (spec/10_state.md R23). -/
def Reg.offset : Reg → Nat
  | .id => 0x000
  | .bufsize => 0x004
  | .ctrl => 0x008
  | .status => 0x00C
  | .cmd => 0x010
  | .err => 0x014
  | .resultLen => 0x018
  | .palSize => 0x01C
  | .srcAddr => 0x020
  | .srcLen => 0x024
  | .dstAddr => 0x028
  | .dstCap => 0x02C
  | .tmCtrl => 0x030
  | .tmCarrier => 0x034
  | .tmDuty => 0x038
  | .tmHdr => 0x03C
  | .tmBit1 => 0x040
  | .tmBit0 => 0x044
  | .tmFtr => 0x048
  | .tmGap => 0x04C
  | .tmRepeat => 0x050
  | .necArg => 0x054

/-- Every register, in the map's order (spec/10_state.md R23). -/
def allRegs : List Reg :=
  [.id, .bufsize, .ctrl, .status, .cmd, .err, .resultLen, .palSize, .srcAddr, .srcLen, .dstAddr, .dstCap]
    ++ [.tmCtrl, .tmCarrier, .tmDuty, .tmHdr, .tmBit1, .tmBit0, .tmFtr, .tmGap, .tmRepeat, .necArg]

/-- The register at an offset; `none` at a reserved offset (spec/10_state.md R48). -/
def regAt (offset : Nat) : Option Reg := allRegs.find? (fun r => decide (r.offset = offset))

/-- What a read of a register returns.  A read has no side effect (spec/20_memory.md R67). -/
def readReg (r : Reg) (s : State) : Word :=
  match r with
  | .id => s.params.blockId
  | .bufsize => BitVec.ofNat 32 s.params.bufBytes
  | .ctrl => boolWord s.irqEn
  | .status => s.statusWord
  | .cmd => 0
  | .err => s.err.setWidth 32
  | .resultLen => s.resultLen
  | .palSize => s.palSize.setWidth 32
  | .srcAddr => s.ops.srcAddr
  | .srcLen => s.ops.srcLen
  | .dstAddr => s.ops.dstAddr
  | .dstCap => s.ops.dstCap
  | .tmCtrl => tmCtrlWord s.ops
  | .tmCarrier => s.tmCarrier
  | .tmDuty => byteWord s.tmDuty
  | .tmHdr => pairWord s.ops.tmHdr
  | .tmBit1 => pairWord s.ops.tmBit1
  | .tmBit0 => pairWord s.ops.tmBit0
  | .tmFtr => pairWord s.ops.tmFtr
  | .tmGap => gapWord s.ops.tmGap
  | .tmRepeat => byteWord s.ops.tmRepeat
  | .necArg => necArgWord s.ops

/-- A write to an operand register: each field keeps the bits the table gives it (spec/10_state.md R50).  A register
that is no operand register leaves the operands as they are. -/
def writeOperand (r : Reg) (v : Word) (o : OperandRegs) : OperandRegs :=
  match r with
  | .srcAddr => { o with srcAddr := v }
  | .srcLen => { o with srcLen := v }
  | .dstAddr => { o with dstAddr := v }
  | .dstCap => { o with dstCap := v }
  | .tmCtrl => { o with tmValid := v.getLsbD 0, tmLsbFirst := v.getLsbD 1 }
  | .tmHdr => { o with tmHdr := pairOfWord v }
  | .tmBit1 => { o with tmBit1 := pairOfWord v }
  | .tmBit0 => { o with tmBit0 := pairOfWord v }
  | .tmFtr => { o with tmFtr := pairOfWord v }
  | .tmGap => { o with tmGap := v.extractLsb' 0 15 }
  | .tmRepeat => { o with tmRepeat := v.extractLsb' 0 8 }
  | .necArg => { o with necAddress := v.extractLsb' 0 16, necCommand := v.extractLsb' 16 16 }
  | .id => o
  | .bufsize => o
  | .ctrl => o
  | .status => o
  | .cmd => o
  | .err => o
  | .resultLen => o
  | .palSize => o
  | .tmCarrier => o
  | .tmDuty => o

/-- What a host write to a register does (spec/10_state.md R24 to R50); a read-only register ignores it. -/
def writeReg (r : Reg) (v : Word) (s : State) : State :=
  match r with
  | .id => s
  | .bufsize => s
  | .ctrl => s.writeCtrl v
  | .status => s.writeStatus v
  | .cmd => s.writeCmd v
  | .err => s
  | .resultLen => s
  | .palSize => s
  | .tmCarrier => { s with tmCarrier := v }
  | .tmDuty => { s with tmDuty := v.extractLsb' 0 8 }
  | .srcAddr => { s with ops := writeOperand .srcAddr v s.ops }
  | .srcLen => { s with ops := writeOperand .srcLen v s.ops }
  | .dstAddr => { s with ops := writeOperand .dstAddr v s.ops }
  | .dstCap => { s with ops := writeOperand .dstCap v s.ops }
  | .tmCtrl => { s with ops := writeOperand .tmCtrl v s.ops }
  | .tmHdr => { s with ops := writeOperand .tmHdr v s.ops }
  | .tmBit1 => { s with ops := writeOperand .tmBit1 v s.ops }
  | .tmBit0 => { s with ops := writeOperand .tmBit0 v s.ops }
  | .tmFtr => { s with ops := writeOperand .tmFtr v s.ops }
  | .tmGap => { s with ops := writeOperand .tmGap v s.ops }
  | .tmRepeat => { s with ops := writeOperand .tmRepeat v s.ops }
  | .necArg => { s with ops := writeOperand .necArg v s.ops }

/-- A read at an offset of the register region; a reserved offset reads 0 (spec/10_state.md R48). -/
def readOffset (offset : Nat) (s : State) : Word :=
  match regAt offset with
  | some r => readReg r s
  | none => 0

/-- A write at an offset of the register region; at a reserved offset nothing happens (spec/10_state.md R48). -/
def writeOffset (offset : Nat) (v : Word) (s : State) : State :=
  match regAt offset with
  | some r => writeReg r v s
  | none => s

end Sys2Proof.Machine
end

