-- ==== Sys2Proof/Machine/Bus.lean ====
section
/-! DEFINITION. The bus port: the window map, register and `BUF` transactions (spec/20_memory.md R64 to R68, R74,
spec/10_state.md R49), and the host's turn. -/

namespace Sys2Proof.Machine

/-- A width in bytes (spec/10_state.md R20). -/
def Width.bytes : Width → Nat
  | .one => 1
  | .two => 2
  | .four => 4

/-- The first window offset above the register region (spec/20_memory.md R64). -/
def regRegionEnd : Nat := 0x100

/-- The window offset of `BUF` offset 0 (spec/20_memory.md R64). -/
def bufBase : Nat := 0x1000

/-- The first window offset above the `BUF` region (spec/20_memory.md R64). -/
def bufRegionEnd (p : Params) : Nat := bufBase + p.bufBytes

/-- The bus error of a rejected transaction (spec/60_exceptions.md R207). -/
def busError (t : Txn) : Host.Outcome State Fault Refusal := .fault (.hostBusError t.offset t.width.bytes)

/-- A 4-byte, 4-aligned transaction in the register region (spec/10_state.md R23, R48). -/
def regAccess (t : Txn) (s : State) : State :=
  match t.access with
  | .read => s.respond (.readData (readOffset t.offset s))
  | .write v => (writeOffset t.offset v s).respond .writeDone

/-- A read of `n` bytes at `BUF` offset `a` (spec/20_memory.md R65, R68). -/
def bufRead (a n : Nat) (s : State) : Host.Outcome State Fault Refusal :=
  match Memory.load s.buf a n with
  | .ok v => .next (s.respond (.readData (BitVec.ofNat 32 v)))
  | .error off => .fault (.unwrittenRead off)

/-- A write of the low `8 n` bits of `v` at `BUF` offset `a` (spec/20_memory.md R65). -/
def bufStore (a n : Nat) (v : Word) (s : State) : State :=
  (s.setBuf (memWrite s.buf a n v.toNat)).respond .writeDone

/-- The bytes of `BUF` from offset `a` up that a transaction of `n` bytes may move while no command runs: naturally
aligned and inside `BUF` (spec/20_memory.md R65). -/
def bufReachable (p : Params) (a n : Nat) : Bool := decide (a % n = 0) && decide (a + n ≤ p.bufBytes)

/-- An access to `BUF`, that is a transaction whose offset lies in the `BUF` region.  While a command runs every one is
`busyBufAccess`, a misaligned one or one running past the end too (spec/20_memory.md R65's last sentence, R74); while
none runs, one that R65 does not allow is a bus error. -/
def bufAccess (t : Txn) (s : State) : Host.Outcome State Fault Refusal :=
  if s.busy then .fault (.busyBufAccess (t.offset - bufBase))
  else if bufReachable s.params (t.offset - bufBase) t.width.bytes then
    match t.access with
    | .read => bufRead (t.offset - bufBase) t.width.bytes s
    | .write v => .next (bufStore (t.offset - bufBase) t.width.bytes v s)
  else busError t

/-- The register region takes a transaction: 4 bytes wide and 4-aligned (spec/10_state.md R49). -/
def regReachable (t : Txn) : Bool := decide (t.width.bytes = 4) && decide (t.offset % 4 = 0)

/-- One bus transaction, by the window map (spec/20_memory.md R64). -/
def transact (t : Txn) (s : State) : Host.Outcome State Fault Refusal :=
  if t.offset < regRegionEnd then
    if regReachable t then .next (regAccess t s) else busError t
  else if t.offset < bufBase then busError t
  else if t.offset < bufRegionEnd s.params then bufAccess t s
  else busError t

/-- The read of `STATUS` that `WAIT` repeats (spec/30_encoding.md R92). -/
def statusRead : Txn := ⟨Reg.status.offset, .four, .read⟩

/-- `WAIT` is over: the value read has BUSY = 0 and DONE = 1 (spec/30_encoding.md R92). -/
def waitOver (v : Word) : Bool := !(v.getLsbD 0) && v.getLsbD 1

/-- The host's turn: the next thing of its program; with nothing left it does nothing (spec/20_memory.md R70,
spec/70_reset_and_hazards.md R231). -/
def hostTurn (s : State) : Host.Outcome State Fault Refusal :=
  match s.host with
  | [] => .next s
  | .access t :: rest => transact t (s.setHost rest)
  | .wait :: rest => transact statusRead (if waitOver (readOffset statusRead.offset s) then s.setHost rest else s)

end Sys2Proof.Machine
end

