-- ==== Sys2Proof/Machine/Symbols.lean ====
section
/-! DEFINITION. Pulse symbols, pulse trains and symbol words (spec/00_scope.md R11, spec/30_encoding.md R84, R85,
spec/20_memory.md R62). -/

namespace Sys2Proof.Machine

/-- A symbol's level (spec/00_scope.md R13). -/
inductive Level where
  | mark
  | space
  deriving DecidableEq, Repr

/-- A pulse symbol: a level and a duration in µs (spec/00_scope.md R11). -/
structure Symbol where
  level : Level
  dur : Dur
  deriving DecidableEq, Repr

/-- `M(d)` and `S(d)` (spec/00_scope.md R11). -/
def markSym (d : Dur) : Symbol := ⟨.mark, d⟩

/-- `S(d)` (spec/00_scope.md R11). -/
def spaceSym (d : Dur) : Symbol := ⟨.space, d⟩

/-- The two symbols of a timing pair, Mark then Space. -/
def pairSyms (p : Pair) : List Symbol := [markSym p.mark, spaceSym p.space]

/-- The level bit, bit 15 of a symbol word: 1 = Mark, 0 = Space (spec/30_encoding.md R84). -/
def Level.bits : Level → Half
  | .mark => 0x8000
  | .space => 0

/-- `word(x)`: `0x8000 | d` for a Mark, `d` for a Space (spec/30_encoding.md R84). -/
def Symbol.word (x : Symbol) : Half := x.level.bits ||| x.dur.setWidth 16

/-- `level(w)` (spec/30_encoding.md R85). -/
def levelOf (w : Half) : Level := if w.getLsbD 15 then .mark else .space

/-- `dur(w) = w[14:0]` (spec/30_encoding.md R85). -/
def durOf (w : Half) : Dur := w.extractLsb' 0 15

/-- The symbol a word stands for: every word stands for one (spec/30_encoding.md R85). -/
def symbolOf (w : Half) : Symbol := ⟨levelOf w, durOf w⟩

/-- The level the alternation invariant gives position `i`: Mark where `i` is even (spec/00_scope.md R13). -/
def altLevel (i : Nat) : Level := if i % 2 = 0 then .mark else .space

/-- The writes of a train at offset `a`: symbol `i` at `a + 2i` (spec/20_memory.md R62). -/
def trainWrites : Nat → List Symbol → List BufWrite
  | _, [] => []
  | a, x :: t => bufWrite a 2 x.word.toNat :: trainWrites (a + 2) t

/-- One symbol word read (spec/20_memory.md R76). -/
def readSymbol (m : Memory) (a : Nat) : Except Halt Half := do
  let w ← memRead m a 2
  .ok (BitVec.ofNat 16 w)

end Sys2Proof.Machine
end

