-- ==== Sys2Proof/Machine/Codec.lean ====
section
/-! DEFINITION. The palette codec: `COMPRESS` (spec/42_compress.md) and `DECOMPRESS` (spec/43_decompress.md), over the
Persisted Signal of spec/30_encoding.md R86 to R89. -/

namespace Sys2Proof.Machine

/-- `ceil(n/2)` (spec/00_scope.md R9). -/
def ceilHalf (n : Nat) : Nat := (n + 1) / 2

/-- `plen(count, N)`, the length of a Persisted Signal (spec/30_encoding.md R87). -/
def signalLen (count n : Nat) : Nat := 6 + 2 * n + ceilHalf count

/-! ## COMPRESS -/

/-- `|d - e|` of two durations (spec/00_scope.md R9). -/
def durDist (d e : Dur) : Nat := (d.toNat - e.toNat) + (e.toNat - d.toNat)

/-- The lowest index of an entry within the tolerance, which is inclusive (spec/42_compress.md R142). -/
def findBucket (tol : Nat) (d : Dur) (pal : List Dur) : Option Nat :=
  pal.findIdx? (fun e => decide (durDist d e ≤ tol))

/-- The index of a duration and the palette after it: an entry reused, or a new one appended with the raw duration, or
no room (spec/42_compress.md R142, R143). -/
def placeDur (tol : Nat) (d : Dur) (pal : List Dur) : Option (Nat × List Dur) :=
  match findBucket tol d pal with
  | some j => some (j, pal)
  | none => if pal.length < paletteMax then some (pal.length, pal ++ [d]) else none

/-- The scan of `n` symbols from offset `a`, the first being symbol `i` of the train: the final palette and the indices
of these symbols.  It stops at the first symbol that needs a 17th bucket; later symbols are not read
(spec/42_compress.md R140 to R143). -/
def scanTrain (m : Memory) (tol : Nat) : Nat → Nat → Nat → List Dur → Except Halt (List Dur × List (BitVec 4))
  | 0, _, _, pal => .ok (pal, [])
  | n + 1, a, i, pal => do
    let w ← readSymbol m a
    match placeDur tol (durOf w) pal with
    | none => .error (.raise (.capacityExceeded i))
    | some (j, pal') => do
      let r ← scanTrain m tol n (a + 2) (i + 1) pal'
      .ok (r.1, BitVec.ofNat 4 j :: r.2)

/-- Two indices in one byte, the first in the high nibble: `(h << 4) | l` (spec/30_encoding.md R88). -/
def packPair (h l : BitVec 4) : Byte := h.setWidth 8 <<< 4 ||| l.setWidth 8

/-- Indices packed two to a byte, the first in the high nibble; an odd count's last low nibble is 0
(spec/30_encoding.md R88). -/
def packIndices : List (BitVec 4) → List Byte
  | [] => []
  | [h] => [packPair h 0]
  | h :: l :: rest => packPair h l :: packIndices rest

/-- The writes of palette entries, u16 each, from offset `a` (spec/30_encoding.md R86). -/
def paletteWrites : Nat → List Dur → List BufWrite
  | _, [] => []
  | a, d :: pal => bufWrite a 2 d.toNat :: paletteWrites (a + 2) pal

/-- The writes of single bytes from offset `a`. -/
def byteWrites : Nat → List Byte → List BufWrite
  | _, [] => []
  | a, b :: bs => bufWrite a 1 b.toNat :: byteWrites (a + 1) bs

/-- The writes of a Persisted Signal at offset `a` (spec/30_encoding.md R86, spec/42_compress.md R144). -/
def signalWrites (p : Params) (a count : Nat) (pal : List Dur) (idx : List (BitVec 4)) : List BufWrite :=
  [bufWrite a 1 p.magic.toNat, bufWrite (a + 1) 4 count, bufWrite (a + 5) 1 pal.length]
    ++ paletteWrites (a + 6) pal
    ++ byteWrites (a + 6 + 2 * pal.length) (packIndices idx)

/-- The computation of `COMPRESS` (spec/42_compress.md R140). -/
def computeCompress (p : Params) (o : OperandRegs) (m : Memory) : Except Halt Output := do
  checkSrcSymbols p o.src o.len
  checkDstBytes p o.dst o.cap
  checkNoOverlap o.src (o.src + 2 * o.len) o.dst (o.dst + o.cap)
  let r ← scanTrain m p.paletteTol o.len o.src 0 []
  raiseIf (decide (signalLen o.len r.1.length > o.cap)) (.allocationFailure (signalLen o.len r.1.length))
  .ok { writes := signalWrites p o.dst o.len r.1 r.2, len := signalLen o.len r.1.length, pal := r.1.length }

/-- The meaning of `COMPRESS`: its completion step (spec/42_compress.md R140, spec/60_exceptions.md R201). -/
def execCompress (s : State) : Host.Outcome State Fault Refusal :=
  complete (computeCompress s.params s.snap s.buf) s

/-! ## DECOMPRESS -/

/-- `n` palette entries, u16 each, from offset `a` (spec/43_decompress.md R160). -/
def readPalette (m : Memory) : Nat → Nat → Except Halt (List Half)
  | 0, _ => .ok []
  | n + 1, a => do
    let e ← memRead m a 2
    let es ← readPalette m n (a + 2)
    .ok (BitVec.ofNat 16 e :: es)

/-- A palette entry wider than 15 bits (spec/43_decompress.md R161 case 5). -/
def badEntry (e : Half) : Bool := decide (e.toNat > 0x7FFF)

/-- The duration of an index: an index of N or more is corrected to 0 (spec/43_decompress.md R162).  The palette is not
empty where an index is decoded (spec/43_decompress.md R161 case 6), so the value for an empty one is never used. -/
def paletteDur (pal : List Dur) (ix : Nat) : Dur :=
  (pal[if ix < pal.length then ix else 0]?).getD 0#15

/-- The index of symbol `i` in its packed byte: the high nibble where `i` is even (spec/30_encoding.md R88). -/
def nibbleOf (i : Nat) (b : Byte) : BitVec 4 := if i % 2 = 0 then b.extractLsb' 4 4 else b.extractLsb' 0 4

/-- The symbols `i`, `i + 1`, … , `n` of them, of a signal whose packed bytes start at `base`
(spec/43_decompress.md R160, R162, R163). -/
def decodeSyms (m : Memory) (base : Nat) (pal : List Dur) : Nat → Nat → Except Halt (List Symbol)
  | 0, _ => .ok []
  | n + 1, i => do
    let b ← readByte m (base + i / 2)
    let rest ← decodeSyms m base pal n (i + 1)
    .ok (⟨altLevel i, paletteDur pal (nibbleOf i b).toNat⟩ :: rest)

/-- The computation of `DECOMPRESS` (spec/43_decompress.md R160, R161, R164). -/
def computeDecompress (p : Params) (o : OperandRegs) (m : Memory) : Except Halt Output := do
  checkSrcBytes p o.src o.len
  checkDstSymbols p o.dst o.cap
  checkNoOverlap o.src (o.src + o.len) o.dst (o.dst + 2 * o.cap)
  raiseIf (decide (o.len < 6)) .truncated
  let magic ← readByte m o.src
  raiseIf (decide (magic ≠ p.magic)) .badMagic
  let count ← memRead m (o.src + 1) 4
  let n ← memRead m (o.src + 5) 1
  raiseIf (decide (n > paletteMax)) .paletteTooLarge
  raiseIf (decide (o.len < 6 + 2 * n)) .truncated
  let entries ← readPalette m n (o.src + 6)
  raiseIf (entries.any badEntry) .badDuration
  raiseIf (decide (count > 0 ∧ n = 0)) .emptyPalette
  raiseIf (decide (o.len < signalLen count n)) .truncated
  raiseIf (decide (count > o.cap)) (.allocationFailure count)
  let t ← decodeSyms m (o.src + 6 + 2 * n) (entries.map durOf) count 0
  .ok { writes := trainWrites o.dst t, len := count, pal := n }

/-- The meaning of `DECOMPRESS`: its completion step (spec/43_decompress.md R160, spec/60_exceptions.md R201). -/
def execDecompress (s : State) : Host.Outcome State Fault Refusal :=
  complete (computeDecompress s.params s.snap s.buf) s

end Sys2Proof.Machine
end

