-- ==== Sys2Proof/Machine/Encoders.lean ====
section
/-! DEFINITION. The two pulse encoders: `ENC_UNIV` (spec/40_encode_universal.md) and `ENC_NEC`
(spec/41_encode_nec.md). -/

namespace Sys2Proof.Machine

/-! ## Bits to symbols -/

/-- The bits of a byte in the order they are sent: b[0] up with `lsb_first`, b[7] down without
(spec/40_encode_universal.md R103). -/
def byteBits (lsbFirst : Bool) (b : Byte) : List Bool :=
  (List.range 8).map (fun q => b.getLsbD (if lsbFirst then q else 7 - q))

/-- The (mark, space) pair of one bit (spec/40_encode_universal.md R103). -/
def bitSyms (bit1 bit0 : Pair) (bit : Bool) : List Symbol := pairSyms (if bit then bit1 else bit0)

/-- The symbols of a payload's bits, byte by byte (spec/40_encode_universal.md R103). -/
def payloadSyms (lsbFirst : Bool) (bit1 bit0 : Pair) (payload : List Byte) : List Symbol :=
  payload.flatMap (fun b => (byteBits lsbFirst b).flatMap (bitSyms bit1 bit0))

/-! ## ENC_UNIV -/

/-- The header of a frame (spec/40_encode_universal.md R102). -/
def headerSyms (o : OperandRegs) : List Symbol := if o.hasHeader then pairSyms o.tmHdr else []

/-- The footer of a frame: the gap after every frame but the last (spec/40_encode_universal.md R104). -/
def footerSyms (o : OperandRegs) (last : Bool) : List Symbol :=
  [markSym o.tmFtr.mark, spaceSym (if last then o.tmFtr.space else o.tmGap)]

/-- One frame (spec/40_encode_universal.md R100). -/
def frameSyms (o : OperandRegs) (payload : List Byte) (last : Bool) : List Symbol :=
  headerSyms o ++ payloadSyms o.tmLsbFirst o.tmBit1 o.tmBit0 payload ++ footerSyms o last

/-- The whole train: frames 0 to k (spec/40_encode_universal.md R100, R104). -/
def univTrain (o : OperandRegs) (payload : List Byte) : List Symbol :=
  (List.range (o.repeats + 1)).flatMap (fun r => frameSyms o payload (decide (r = o.repeats)))

/-- H, the header's symbols in a frame (spec/40_encode_universal.md R102). -/
def headerLen (o : OperandRegs) : Nat := if o.hasHeader then 2 else 0

/-- The train's length n = (H + 16 L + 2)(k + 1), computed before any byte is read (spec/40_encode_universal.md
R105). -/
def univLen (o : OperandRegs) : Nat := (headerLen o + 16 * o.len + 2) * (o.repeats + 1)

/-- The computation of `ENC_UNIV` (spec/40_encode_universal.md R100). -/
def computeEncUniv (p : Params) (o : OperandRegs) (m : Memory) : Except Halt Output := do
  raiseIf (!o.tmValid) .nullModel
  raiseIf (decide (o.len = 0)) .emptyPayload
  checkSrcBytes p o.src o.len
  checkDstSymbols p o.dst o.cap
  checkNoOverlap o.src (o.src + o.len) o.dst (o.dst + 2 * o.cap)
  raiseIf (decide (univLen o > o.cap)) (.allocationFailure (univLen o))
  let payload ← readBytes m o.src o.len
  .ok { writes := trainWrites o.dst (univTrain o payload), len := univLen o, pal := 0 }

/-- The meaning of `ENC_UNIV`: its completion step (spec/40_encode_universal.md R100, spec/60_exceptions.md R201). -/
def execEncUniv (s : State) : Host.Outcome State Fault Refusal :=
  complete (computeEncUniv s.params s.snap s.buf) s

/-! ## ENC_NEC -/

/-- The NEC header, 9000/4500 µs (spec/41_encode_nec.md R122). -/
def necHeader : Pair := ⟨9000, 4500⟩

/-- A NEC 1 bit, 560/1690 µs (spec/41_encode_nec.md R122). -/
def necBit1 : Pair := ⟨560, 1690⟩

/-- A NEC 0 bit, 560/560 µs (spec/41_encode_nec.md R122). -/
def necBit0 : Pair := ⟨560, 560⟩

/-- The NEC stop mark, 560 µs (spec/41_encode_nec.md R122). -/
def necStopMark : Dur := 560

/-- The NEC train's length (spec/41_encode_nec.md R124). -/
def necLen : Nat := 68

/-- The NEC payload: address low and high byte, command low byte and its complement (spec/41_encode_nec.md R121). -/
def necPayload (o : OperandRegs) : List Byte :=
  [o.necAddress.extractLsb' 0 8, o.necAddress.extractLsb' 8 8,
   o.necCommand.extractLsb' 0 8, ~~~(o.necCommand.extractLsb' 0 8)]

/-- The NEC train (spec/41_encode_nec.md R120, R123). -/
def necTrain (p : Params) (o : OperandRegs) : List Symbol :=
  pairSyms necHeader ++ payloadSyms true necBit1 necBit0 (necPayload o)
    ++ [markSym necStopMark, spaceSym p.necStopSpace]

/-- The computation of `ENC_NEC` (spec/41_encode_nec.md R120): it reads no byte of `BUF`. -/
def computeEncNec (p : Params) (o : OperandRegs) : Except Halt Output := do
  checkDstSymbols p o.dst o.cap
  raiseIf (decide (necLen > o.cap)) (.allocationFailure necLen)
  .ok { writes := trainWrites o.dst (necTrain p o), len := necLen, pal := 0 }

/-- The meaning of `ENC_NEC`: its completion step (spec/41_encode_nec.md R120, spec/60_exceptions.md R201). -/
def execEncNec (s : State) : Host.Outcome State Fault Refusal :=
  complete (computeEncNec s.params s.snap) s

end Sys2Proof.Machine
end

