-- ==== Sys2Proof/Machine/Dispatch.lean ====
section
/-! DEFINITION. Which meaning each command has: the completion step of an accepted command (spec/60_exceptions.md R201,
spec/30_encoding.md R82). -/

namespace Sys2Proof.Machine

/-- The completion of command `i`: one atomic step from the snapshot and `BUF` (spec/60_exceptions.md R201).  It does
not itself ask for BUSY: the engine's turn does (log 11). -/
def exec (i : Instr) (s : State) : Host.Outcome State Fault Refusal :=
  match i with
  | .encUniv => Sys2Proof.Machine.execEncUniv s
  | .encNec => Sys2Proof.Machine.execEncNec s
  | .compress => Sys2Proof.Machine.execCompress s
  | .decompress => Sys2Proof.Machine.execDecompress s

end Sys2Proof.Machine
end

