-- ==== Sys2Proof/Machine/Step.lean ====
section
/-! DEFINITION. One atomic step of the total order of spec/20_memory.md R70: a turn of the host, of the engine, or of
the reset port. -/

namespace Sys2Proof.Machine

/-- The engine's completion step on the accepted command (spec/60_exceptions.md R201, R203). -/
def completionStep (s : State) : Host.Outcome State Fault Refusal :=
  match decodeOp s.curOp with
  | .ok i => exec i s
  | .error (.illegalOp _) => completeIllegal s

/-- The engine's turn: the completion step where it is enabled, that is while BUSY = 1, else nothing
(spec/00_scope.md R4, spec/60_exceptions.md R201). -/
def engineTurn (s : State) : Host.Outcome State Fault Refusal :=
  if s.busy then completionStep s else .next s

/-- One step.  The schedule says who moves.  DESIGN CHOICE (log 4, safe): with no schedule left a busy engine moves
before the host, so that every accepted command ends (spec/70_reset_and_hazards.md R240). -/
def step (s : State) : Host.Outcome State Fault Refusal :=
  match s.turns with
  | .rst :: ts => .next (s.setTurns ts).resetBlock
  | .engine :: ts => engineTurn (s.setTurns ts)
  | .host :: ts => hostTurn (s.setTurns ts)
  | [] => if s.busy then completionStep s else hostTurn s

/-- `s` with the command whose word has the low bits `w` accepted as the next thing the engine runs: what a host write
of that word to `CMD` does in an idle block (spec/10_state.md R29), and the engine's turn put next (log 10). -/
def State.withFetchWord (s : State) (nbits w : Nat) : State :=
  (s.accept (opField (tableWord nbits w))).setTurns (.engine :: s.turns)

end Sys2Proof.Machine
end

