-- ==== Sys2Proof/Machine/HostProgram.lean ====
section
/-! DEFINITION. The host-program notation of spec/30_encoding.md R92 and its expansion to what the host does. -/

namespace Sys2Proof.Machine

/-- One line of a host program (spec/30_encoding.md R92).  The name a read gives its result is the reader's; the result
is the bus port's answer. -/
inductive HostLine where
  | w32 (offset : Nat) (v : Word)
  | r32 (offset : Nat)
  | wb (a : Nat) (bytes : List Byte)
  | wh (a : Nat) (halves : List Half)
  | rb (a n : Nat)
  | start (i : Instr)
  | wait
  | ack
  | setSrc (a n : Word)
  | setDst (a c : Word)
  | tmPair (offset : Nat) (m s : Word)
  deriving DecidableEq, Repr

/-- A 4-byte write of `v` to window offset `offset`. -/
def w32Op (offset : Nat) (v : Word) : HostOp := .access ⟨offset, .four, .write v⟩

/-- 1-byte writes from `BUF` offset `a` up. -/
def wbOps : Nat → List Byte → List HostOp
  | _, [] => []
  | a, b :: bs => .access ⟨bufBase + a, .one, .write (b.zeroExtend 32)⟩ :: wbOps (a + 1) bs

/-- 2-byte writes at `BUF` offsets `a`, `a + 2`, … . -/
def whOps : Nat → List Half → List HostOp
  | _, [] => []
  | a, h :: hs => .access ⟨bufBase + a, .two, .write (h.zeroExtend 32)⟩ :: whOps (a + 2) hs

/-- `n` 1-byte reads from `BUF` offset `a` up. -/
def rbOps : Nat → Nat → List HostOp
  | _, 0 => []
  | a, n + 1 => .access ⟨bufBase + a, .one, .read⟩ :: rbOps (a + 1) n

/-- What a line stands for (spec/30_encoding.md R92). -/
def HostLine.expand : HostLine → List HostOp
  | .w32 offset v => [w32Op offset v]
  | .r32 offset => [.access ⟨offset, .four, .read⟩]
  | .wb a bytes => wbOps a bytes
  | .wh a halves => whOps a halves
  | .rb a n => rbOps a n
  | .start i => [w32Op 0x010 (encode i)]
  | .wait => [.wait]
  | .ack => [w32Op 0x00C 0x2]
  | .setSrc a n => [w32Op 0x020 a, w32Op 0x024 n]
  | .setDst a c => [w32Op 0x028 a, w32Op 0x02C c]
  | .tmPair offset m s => [w32Op offset ((s <<< 16) ||| m)]

/-- A whole host program. -/
def hostProgram (lines : List HostLine) : List HostOp := lines.flatMap HostLine.expand

end Sys2Proof.Machine
end

