-- ==== Sys2Proof/Safety.lean ====
section
/-! DEFINITION. What the claims about runs speak of: the invariant of the block, the regions a command reads and
writes, and when a read is of written bytes only. -/

namespace Sys2Proof.Machine

/-- The error codes a completion can leave: codes 4 and 7 to 15 are never reported (spec/60_exceptions.md R200). -/
def errReported (e : BitVec 4) : Bool := [0#4, 1#4, 2#4, 3#4, 5#4, 6#4].contains e

/-- `BUF` is in canonical form and has no byte at `BUF_BYTES` or above (spec/10_state.md R52). -/
def State.bufInv (s : State) : Bool := Memory.wf s.buf && Memory.below s.params.bufBytes s.buf

/-- BUSY and DONE never hold together (spec/10_state.md R27). -/
def State.flagInv (s : State) : Bool := !(s.busy && s.done)

/-- The result registers: a reported code, no length and no palette beside an error, N at most 16, and a length that
fits `BUF` (spec/10_state.md R30 to R32, spec/60_exceptions.md R200, R202). -/
def State.resultInv (s : State) : Bool :=
  errReported s.err
    && (decide (s.err = 0#4) || (decide (s.resultLen = 0#32) && decide (s.palSize = 0#5)))
    && decide (s.palSize.toNat ≤ paletteMax)
    && decide (s.resultLen.toNat ≤ s.params.bufBytes)

/-- The invariant of the block: every step keeps it, and reset has it. -/
def State.inv (s : State) : Bool := s.params.wf && s.bufInv && s.flagInv && s.resultInv

/-- Every byte of `a .. a + n - 1` is written. -/
def Memory.written (m : Memory) (a : Nat) : Nat → Bool
  | 0 => true
  | n + 1 => (Memory.read m a).isSome && Memory.written m (a + 1) n

/-- The bytes of a command's source region (spec/30_encoding.md R91, spec/20_memory.md R62). -/
def sourceBytes (i : Instr) (o : OperandRegs) : Nat :=
  match i with
  | .encUniv => o.len
  | .encNec => 0
  | .compress => 2 * o.len
  | .decompress => o.len

/-- The bytes of one unit of a command's output: 2 for a symbol, 1 for a byte (spec/10_state.md R31, R46). -/
def outputUnit (i : Instr) : Nat :=
  match i with
  | .encUniv => 2
  | .encNec => 2
  | .compress => 1
  | .decompress => 2

/-- Every byte of a command's source region is written: the host has done what spec/70_reset_and_hazards.md R234
asks. -/
def State.sourceWritten (i : Instr) (s : State) : Bool := Memory.written s.buf s.snap.src (sourceBytes i s.snap)

/-! ## Regions (spec/60_exceptions.md R204) -/

/-- `n` bytes from `a` up lie in `BUF`. -/
def bytesFit (p : Params) (a n : Nat) : Bool := decide (a + n ≤ p.bufBytes)

/-- `n` symbol words from `a` up start even and lie in `BUF`. -/
def symbolsFit (p : Params) (a n : Nat) : Bool := decide (a % 2 = 0) && decide (a + 2 * n ≤ p.bufBytes)

/-- Two regions have no byte in common: one is empty, or one ends before the other starts. -/
def regionsApart (a n b m : Nat) : Bool :=
  decide (n = 0) || decide (m = 0) || decide (a + n ≤ b) || decide (b + m ≤ a)

/-- A command's regions pass every check of spec/60_exceptions.md R204 (orders 3 to 5 of R205). -/
def State.regionsOk (i : Instr) (s : State) : Bool :=
  match i with
  | .encUniv => bytesFit s.params s.snap.src s.snap.len && symbolsFit s.params s.snap.dst s.snap.cap
      && regionsApart s.snap.src s.snap.len s.snap.dst (2 * s.snap.cap)
  | .encNec => symbolsFit s.params s.snap.dst s.snap.cap
  | .compress => symbolsFit s.params s.snap.src s.snap.len && bytesFit s.params s.snap.dst s.snap.cap
      && regionsApart s.snap.src (2 * s.snap.len) s.snap.dst s.snap.cap
  | .decompress => bytesFit s.params s.snap.src s.snap.len && symbolsFit s.params s.snap.dst s.snap.cap
      && regionsApart s.snap.src s.snap.len s.snap.dst (2 * s.snap.cap)

/-! ## What stands in `BUF` -/

/-- The `n` bytes from `a` up are written and read as the number `v`, low byte first. -/
def Memory.holds (m : Memory) (a n v : Nat) : Bool :=
  match Memory.load m a n with
  | .ok x => decide (x = v)
  | .error _ => false

/-- The symbol word at `a` is a Mark of duration `d` (spec/30_encoding.md R84). -/
def Memory.holdsMark (m : Memory) (a : Nat) (d : Dur) : Bool := Memory.holds m a 2 (0x8000 + d.toNat)

/-- The symbol word at `a` is a Space of duration `d` (spec/30_encoding.md R84). -/
def Memory.holdsSpace (m : Memory) (a : Nat) (d : Dur) : Bool := Memory.holds m a 2 d.toNat

/-- The symbol word of position `i` of a train at `a`; 0 where it is not written. -/
def symbolWordAt (m : Memory) (a i : Nat) : Half :=
  match Memory.load m (a + 2 * i) 2 with
  | .ok w => BitVec.ofNat 16 w
  | .error _ => 0

/-- The duration of position `i` of a train at `a`. -/
def durAt (m : Memory) (a i : Nat) : Dur := durOf (symbolWordAt m a i)

/-- The durations of the first `n` positions of a train at `a`. -/
def dursAt (m : Memory) (a n : Nat) : List Dur := (List.range n).map (durAt m a)

/-- The palette after duration `d`, with no limit on its entries: unchanged where an entry is within the tolerance, else
with `d` appended (spec/42_compress.md R142). -/
def openBucket (tol : Nat) (pal : List Dur) (d : Dur) : List Dur :=
  if pal.any (fun e => decide (durDist d e ≤ tol)) then pal else pal ++ [d]

/-- The buckets that durations scanned from the first need, in the order in which they are opened.  `COMPRESS` has room
for 16 (spec/42_compress.md R143). -/
def buckets (tol : Nat) (ds : List Dur) : List Dur := ds.foldl (openBucket tol) []

/-- The buckets that the first `n` symbols of the source train of `COMPRESS` need. -/
def State.bucketsOf (s : State) (n : Nat) : List Dur := buckets s.params.paletteTol (dursAt s.buf s.snap.src n)

/-- The packed index of position `i` where the packed bytes start at `base`; 0 where its byte is not written
(spec/30_encoding.md R88). -/
def indexAt (m : Memory) (base i : Nat) : Nat :=
  match Memory.read m (base + i / 2) with
  | some b => (nibbleOf i b).toNat
  | none => 0

/-- The source of `DECOMPRESS` has a whole header: `MAGIC`, the symbol count and the palette size
(spec/30_encoding.md R86). -/
def State.headerHolds (s : State) (count n : Nat) : Bool :=
  decide (6 ≤ s.snap.len) && Memory.holds s.buf s.snap.src 1 s.params.magic.toNat
    && Memory.holds s.buf (s.snap.src + 1) 4 count && Memory.holds s.buf (s.snap.src + 5) 1 n

/-- The source of `DECOMPRESS` has room for a palette of `n` entries, at most 16, and every entry is a 15-bit duration
(spec/43_decompress.md R161 cases 3 to 5). -/
def State.paletteHolds (s : State) (n : Nat) : Bool :=
  decide (n ≤ paletteMax) && decide (6 + 2 * n ≤ s.snap.len)
    && (List.range n).all
      (fun j => Memory.holds s.buf (s.snap.src + 6 + 2 * j) 2 (durAt s.buf (s.snap.src + 6) j).toNat)

/-! ## Registers -/

/-- The bits of a register that a host write stores and a read returns (spec/10_state.md R23); 0 for a register that is
not RW. -/
def Reg.mask (r : Reg) : Word :=
  match r with
  | .id => 0
  | .bufsize => 0
  | .ctrl => 0x00000001
  | .status => 0
  | .cmd => 0
  | .err => 0
  | .resultLen => 0
  | .palSize => 0
  | .srcAddr => 0xFFFFFFFF
  | .srcLen => 0xFFFFFFFF
  | .dstAddr => 0xFFFFFFFF
  | .dstCap => 0xFFFFFFFF
  | .tmCtrl => 0x00000003
  | .tmCarrier => 0xFFFFFFFF
  | .tmDuty => 0x000000FF
  | .tmHdr => 0x7FFF7FFF
  | .tmBit1 => 0x7FFF7FFF
  | .tmBit0 => 0x7FFF7FFF
  | .tmFtr => 0x7FFF7FFF
  | .tmGap => 0x00007FFF
  | .tmRepeat => 0x000000FF
  | .necArg => 0xFFFFFFFF

/-- The registers the map marks RW (spec/10_state.md R23). -/
def Reg.readWrite (r : Reg) : Bool := decide (r.mask ≠ 0)

/-! ## What a step leaves alone -/

/-- Everything a completion step does not write (spec/60_exceptions.md R201): the parameters, CTRL, CMD_LOST, the
operand and carrier registers, the hidden state, the bus port, the host and the schedule. -/
structure CommandFrame (s t : State) : Prop where
  params : t.params = s.params
  irqEn : t.irqEn = s.irqEn
  cmdLost : t.cmdLost = s.cmdLost
  ops : t.ops = s.ops
  tmCarrier : t.tmCarrier = s.tmCarrier
  tmDuty : t.tmDuty = s.tmDuty
  curOp : t.curOp = s.curOp
  snap : t.snap = s.snap
  resp : t.resp = s.resp
  host : t.host = s.host
  turns : t.turns = s.turns

/-- The state after a command that failed with an error code: nothing else than the results and BUSY and DONE changes
(spec/60_exceptions.md R201, R202). -/
def State.failed (code : BitVec 4) (s : State) : State :=
  { s with err := code, resultLen := 0, palSize := 0, busy := false, done := true }

/-- The state with another `DST_CAP` in its snapshot. -/
def State.withCap (c : Word) (s : State) : State := { s with snap := { s.snap with dstCap := c } }

/-- Two states whose last command left the same results (spec/60_exceptions.md R201). -/
structure SameResults (s t : State) : Prop where
  err : t.err = s.err
  resultLen : t.resultLen = s.resultLen
  palSize : t.palSize = s.palSize

end Sys2Proof.Machine
end

