-- ==== Sys2Proof/Certificates/Slice0/Obligations.lean ====
section
/-! DEFINITION. The statements about this model for the provers.  Each docstring names the rules of spec/ it
formalises.  Nothing here is about a program. -/

open Sys2Proof Sys2Proof.Machine

/-! ## Encodings -/

/-- R81, R82, R83 on words written out bit by bit from the opcode map: the four commands, two words with other ignored
bits (vectors IV3, IV4), and the illegal numbers 0 and 5. -/
def Obligations.CommandWordsDecode : Prop :=
  decode 0b00000000000000000000000000000001#32 = .ok .encUniv ∧
  decode 0b00000000000000000000000000000010#32 = .ok .encNec ∧
  decode 0b00000000000000000000000000000011#32 = .ok .compress ∧
  decode 0b00000000000000000000000000000100#32 = .ok .decompress ∧
  decode 0b11111111111111111111111111110011#32 = .ok .compress ∧
  decode 0b00000000000000000000000000010000#32 = .error (.illegalOp 0) ∧
  decode 0b00000000000000000000000000000101#32 = .error (.illegalOp 5)

/-- R81, R82, R83: a command's word decodes to it, the decoder reads OP and nothing else, and every other number is
rejected. -/
def Obligations.DecoderReadsOnlyTheOpField : Prop :=
  (∀ i : Instr, decode (encode i) = .ok i) ∧
  (∀ v w : Word, v.toNat % 16 = w.toNat % 16 → decode v = decode w) ∧
  (∀ (i : Instr) (w : Word), decode w = .ok i ↔ w.toNat % 16 = (opcode i).toNat) ∧
  (∀ w : Word, decode w = .error (.illegalOp (w.extractLsb' 0 4)) ↔ w.toNat % 16 = 0 ∨ 5 ≤ w.toNat % 16)

/-- R84, R85: the word of a Mark is 0x8000 | d, that of a Space is d, and every 16-bit value is the word of exactly one
symbol, the one the decoding gives. -/
def Obligations.EveryWordIsOneSymbol : Prop :=
  (∀ d : Dur, (markSym d).word = 0x8000#16 ||| d.setWidth 16 ∧ (spaceSym d).word = d.setWidth 16) ∧
  (∀ w : Half, (symbolOf w).word = w ∧ ∀ x : Symbol, x.word = w → x = symbolOf w)

/-! ## Reset -/

/-- R54: reset, whatever the block was doing, leaves `ID` and `BUFSIZE` at their constants, every other register 0,
`irq` low, every byte of `BUF` unwritten and no command running; so does the state right after reset.  Of `cur_op` and
`snap`, which R54 leaves unspecified, nothing is said. -/
def Obligations.ResetLeavesSpecValues : Prop :=
  (∀ s : State,
    (∀ r, readReg r s.resetBlock
      = if r = .id then s.params.blockId else if r = .bufsize then BitVec.ofNat 32 s.params.bufBytes else 0) ∧
    s.resetBlock.irq = false ∧ (∀ a, Memory.read s.resetBlock.buf a = none) ∧ s.resetBlock.params = s.params) ∧
  (∀ p : Params,
    (∀ r, readReg r (State.resetWith p)
      = if r = .id then p.blockId else if r = .bufsize then BitVec.ofNat 32 p.bufBytes else 0) ∧
    (State.resetWith p).irq = false ∧ (∀ a, Memory.read (State.resetWith p).buf a = none) ∧
    (State.resetWith p).params = p)

/-- R54, R230: a reset turn of the schedule resets the block, also while a command runs, of which no byte is written:
every register reads its reset value, `irq` is low, BUSY and DONE are 0 and every byte of `BUF` is unwritten; the host's
program and the rest of the schedule stay (a reset taken as one turn is the model's reading, log 6). -/
def Obligations.ResetTurnAbandonsTheCommand : Prop :=
  ∀ (s : State) (ts : List Turn), s.turns = .rst :: ts → ∃ t, step s = .next t ∧
    (∀ r, readReg r t
      = if r = .id then s.params.blockId else if r = .bufsize then BitVec.ofNat 32 s.params.bufBytes else 0) ∧
    t.irq = false ∧ t.busy = false ∧ t.done = false ∧ t.cmdLost = false ∧ t.err = 0 ∧ t.resultLen = 0 ∧
    t.palSize = 0 ∧ t.irqEn = false ∧ t.ops = OperandRegs.zero ∧ t.tmCarrier = 0 ∧ t.tmDuty = 0 ∧
    (∀ a, Memory.read t.buf a = none) ∧ t.params = s.params ∧ t.host = s.host ∧ t.turns = ts

/-- The invariant holds at reset, for the default parameters and for all parameters in the ranges of R7. -/
def Obligations.InvariantHoldsAtReset : Prop :=
  State.reset.inv = true ∧ ∀ p : Params, p.wf = true → (State.resetWith p).inv = true

/-! ## Steps -/

/-- R201: while BUSY, when the accepted word decodes to a command, the engine's step is `exec` of that command; the
step takes its own turn off the schedule and adds nothing else (that a busy engine moves when the schedule is exhausted
is the model's own, log 4). -/
def Obligations.StepRunsTheAcceptedCommand : Prop :=
  ∀ (s : State) (w : Word) (i : Instr), s.busy = true → s.curOp = w.extractLsb' 0 4 → decode w = .ok i → i.wf = true →
    (s.turns = [] → step s = exec i s) ∧
    (∀ ts, s.turns = .engine :: ts → step s = exec i { s with turns := ts })

/-- The word placed by `withFetchWord` is what the very next step runs, in the state acceptance leaves (R29; the
placing is the model's own, log 10). -/
def Obligations.FetchedWordRunsNext : Prop :=
  ∀ (s : State) (nbits w : Nat) (i : Instr), decodeTableWord nbits w = some i →
    step (s.withFetchWord nbits w)
      = exec i { s with curOp := opcode i, snap := s.ops, done := false, busy := true }

/-- R203: an accepted number that is no command completes with IllegalCommand, code 6, whatever the operands and `BUF`
hold: no check is made and no byte is read. -/
def Obligations.IllegalCommandCompletes : Prop :=
  ∀ s : State, (s.curOp = 0 ∨ 5 ≤ s.curOp.toNat) →
    completionStep s = .next (s.failed 6) ∧ (s.busy = true → engineTurn s = .next (s.failed 6))

/-- R231: with no command accepted an engine turn changes nothing but the schedule, whatever the host has still to do;
with nothing more from the host either, neither does a host turn or a step without a schedule (that such turns exist is
the model's own, log 4). -/
def Obligations.IdleBlockDoesNothing : Prop :=
  ∀ s : State, s.busy = false →
    (∀ ts, s.turns = .engine :: ts → step s = .next { s with turns := ts }) ∧
    (s.host = [] →
      (s.turns = [] → step s = .next s) ∧
      (∀ ts, s.turns = .host :: ts → step s = .next { s with turns := ts }))

/-- R70: the host's transactions are taken one at a time in the host's program order, on a host turn of the schedule,
or, with no schedule left, when no command runs (that rule for the end of the schedule is the model's own, log 4, as is
the host held as a list, log 5). -/
def Obligations.HostTurnTakesOneTransaction : Prop :=
  ∀ (s : State) (t : Txn) (rest : List HostOp), s.host = .access t :: rest →
    (∀ ts, s.turns = .host :: ts → step s = transact t { s with host := rest, turns := ts }) ∧
    (s.turns = [] → s.busy = false → step s = transact t { s with host := rest })

/-- R92 `WAIT`: one pass reads `STATUS` and is the last exactly when BUSY = 0 and DONE = 1 (that the loop stays in the
host's list until then is the model's own, log 5). -/
def Obligations.WaitPassReadsStatus : Prop :=
  ∀ (s : State) (rest : List HostOp), s.host = .wait :: rest →
    hostTurn s = .next { s with
      resp := .readData (readReg .status s)
      host := if s.busy = false ∧ s.done = true then rest else .wait :: rest }

/-- R92: what the pseudo-instructions do when the host runs their expansions: `TMPAIR` on each pair register, `SETSRC`,
`SETDST`, `START` in an idle block, `ACK`. -/
def Obligations.PseudoInstructionsActAsNamed : Prop :=
  (∀ (s : State) (r : Reg) (m d : Word), (r = .tmHdr ∨ r = .tmBit1 ∨ r = .tmBit0 ∨ r = .tmFtr) →
    m.toNat < 2 ^ 15 → d.toNat < 2 ^ 15 →
    ∃ t, hostTurn { s with host := (HostLine.tmPair r.offset m d).expand } = .next t ∧ t.host = [] ∧
      (readReg r t).extractLsb' 0 15 = m.extractLsb' 0 15 ∧ (readReg r t).extractLsb' 16 15 = d.extractLsb' 0 15) ∧
  (∀ (s : State) (a n : Word), ∃ t u, hostTurn { s with host := (HostLine.setSrc a n).expand } = .next t ∧
    hostTurn t = .next u ∧ u.host = [] ∧ u.ops = { s.ops with srcAddr := a, srcLen := n }) ∧
  (∀ (s : State) (a c : Word), ∃ t u, hostTurn { s with host := (HostLine.setDst a c).expand } = .next t ∧
    hostTurn t = .next u ∧ u.host = [] ∧ u.ops = { s.ops with dstAddr := a, dstCap := c }) ∧
  (∀ (s : State) (i : Instr), s.busy = false →
    ∃ t, hostTurn { s with host := (HostLine.start i).expand } = .next t ∧
      t.curOp = opcode i ∧ t.busy = true ∧ t.done = false ∧ t.snap = s.ops) ∧
  (∀ s : State, ∃ t, hostTurn { s with host := HostLine.ack.expand } = .next t ∧ t.done = false ∧
    t.cmdLost = s.cmdLost)

/-- No step is ever refused: every instruction of the opcode table has its meaning. -/
def Obligations.StepIsNeverRefused : Prop := ∀ (s : State) (x : Refusal), step s ≠ .refused x

/-! ## Registers -/

/-- R23, R26, R33 to R35, R37 to R47, R50: a write to a RW register is kept in the bits the table gives it, at once and
whether or not a command runs, and reads back with every other bit 0. -/
def Obligations.RegistersReadBackTheirFields : Prop :=
  ∀ (s : State) (r : Reg) (v : Word), r.readWrite = true →
    ∃ t, transact ⟨r.offset, .four, .write v⟩ s = .next t ∧
      transact ⟨r.offset, .four, .read⟩ t = .next { t with resp := .readData (v &&& r.mask) }

/-- A register write changes no other register (only a `CMD` write also changes `STATUS`), no byte of `BUF`, no
parameter, and, except for `CMD`, no hidden state. -/
def Obligations.RegisterWritesTouchOneRegister : Prop :=
  ∀ (s : State) (r : Reg) (v : Word), ∃ t, transact ⟨r.offset, .four, .write v⟩ s = .next t ∧
    (∀ q, q ≠ r → (r = .cmd → q ≠ .status) → readReg q t = readReg q s) ∧
    t.buf = s.buf ∧ t.params = s.params ∧ t.host = s.host ∧ t.turns = s.turns ∧
    (r ≠ .cmd → t.curOp = s.curOp ∧ t.snap = s.snap ∧ t.busy = s.busy)

/-- R24, R25, R30 to R32, R48: writes to the read-only registers and to the reserved offsets change nothing but the
port's answer; reserved offsets read 0. -/
def Obligations.ReadOnlyAndReservedIgnoreWrites : Prop :=
  (∀ (s : State) (r : Reg) (v : Word), (r = .id ∨ r = .bufsize ∨ r = .err ∨ r = .resultLen ∨ r = .palSize) →
    transact ⟨r.offset, .four, .write v⟩ s = .next { s with resp := .writeDone }) ∧
  (∀ (s : State) (off : Nat) (v : Word), 0x058 ≤ off → off ≤ 0x0FC → off % 4 = 0 →
    transact ⟨off, .four, .write v⟩ s = .next { s with resp := .writeDone } ∧
    transact ⟨off, .four, .read⟩ s = .next { s with resp := .readData 0 })

/-- R27, R30 to R32: what the status and result registers read. -/
def Obligations.StatusAndResultsRead : Prop :=
  ∀ s : State,
    (readReg .status s).getLsbD 0 = s.busy ∧ (readReg .status s).getLsbD 1 = s.done ∧
    ((readReg .status s).getLsbD 2 = true ↔ s.err ≠ 0) ∧ (readReg .status s).getLsbD 3 = s.cmdLost ∧
    (∀ k, 4 ≤ k → (readReg .status s).getLsbD k = false) ∧
    (readReg .err s).toNat = s.err.toNat ∧ readReg .resultLen s = s.resultLen ∧
    (readReg .palSize s).toNat = s.palSize.toNat

/-- R28: a write to `STATUS` clears DONE where bit 1 is 1 and CMD_LOST where bit 3 is 1 and changes nothing else; while
BUSY it leaves DONE as it is; and it cannot clear the DONE that a later completion step sets. -/
def Obligations.StatusWriteClearsOnlyDoneAndLost : Prop :=
  ∀ (s : State) (v : Word), ∃ t, transact ⟨0x00C, .four, .write v⟩ s = .next t ∧
    t = { s with
      done := s.done && !(v.getLsbD 1)
      cmdLost := s.cmdLost && !(v.getLsbD 3)
      resp := .writeDone } ∧
    (s.busy = true → s.flagInv = true → t.done = s.done) ∧
    (∀ u, completionStep t = .next u → u.done = true)

/-- R29: a write to `CMD` while BUSY only sets CMD_LOST; else, for every value, it takes the OP and the snapshot, clears
DONE and sets BUSY, and keeps the results; a read of `CMD` returns 0. -/
def Obligations.CommandWriteAcceptsOrIsLost : Prop :=
  ∀ (s : State) (v : Word),
    (s.busy = true →
      transact ⟨0x010, .four, .write v⟩ s = .next { s with cmdLost := true, resp := .writeDone }) ∧
    (s.busy = false →
      transact ⟨0x010, .four, .write v⟩ s
        = .next { s with
            curOp := v.extractLsb' 0 4
            snap := s.ops
            done := false
            busy := true
            resp := .writeDone }) ∧
    transact ⟨0x010, .four, .read⟩ s = .next { s with resp := .readData 0 }

/-- R206: `irq` is DONE and IRQ_EN; the completion step, successful or not, raises it where IRQ_EN is 1; setting IRQ_EN
while DONE raises it; clearing DONE or IRQ_EN and accepting a command lower it. -/
def Obligations.InterruptFollowsDoneAndEnable : Prop :=
  ∀ s : State,
    s.irq = ((readReg .status s).getLsbD 1 && (readReg .ctrl s).getLsbD 0) ∧
    (∀ t, completionStep s = .next t → t.irq = s.irqEn) ∧
    (writeReg .ctrl 1 s).irq = s.done ∧
    (writeReg .ctrl 0 s).irq = false ∧
    (writeReg .status 2 s).irq = false ∧
    (∀ v, s.busy = false → (writeReg .cmd v s).irq = false)

/-- R36: `TM_CARRIER` and `TM_DUTY` have no effect on any command and are not in the snapshot. -/
def Obligations.CarrierHasNoEffect : Prop :=
  ∀ (s : State) (hz : Word) (pct : BitVec 8),
    (∀ i : Instr, exec i { s with tmCarrier := hz, tmDuty := pct } =
      match exec i s with
      | .next t => .next { t with tmCarrier := hz, tmDuty := pct }
      | .fault f => .fault f
      | .refused x => .refused x) ∧
    (∀ v : Word, (writeReg .cmd v { s with tmCarrier := hz, tmDuty := pct }).snap = (writeReg .cmd v s).snap)

/-! ## The bus port and `BUF` -/

/-- R49, R64, R65, R74, R207: the transactions that get a bus error, exactly, in every state: those that are neither a
4-byte aligned access to the register region nor an access to the `BUF` region that is naturally aligned and inside
`BUF`, or of any form while a command runs (then it is the fault of R74).  That the fault carries the window offset and
the width is the model's choice, log 9. -/
def Obligations.BusErrorsExactly : Prop :=
  ∀ (s : State) (t : Txn),
    transact t s = .fault (.hostBusError t.offset t.width.bytes) ↔
      ¬ ((t.offset < 0x100 ∧ t.width = .four ∧ t.offset % 4 = 0) ∨
         (0x1000 ≤ t.offset ∧ t.offset < 0x1000 + s.params.bufBytes ∧
          (s.busy = true ∨ ((t.offset - 0x1000) % t.width.bytes = 0 ∧
            t.offset - 0x1000 + t.width.bytes ≤ s.params.bufBytes))))

/-- R65, R74, R241: while a command runs every access to the `BUF` region is the fault BusyBufAccess, a read and a
write, aligned or not, inside `BUF` or running past its end, and every register access still completes.  That the fault
carries the access's `BUF` offset is the model's choice, log 9. -/
def Obligations.BufAccessWhileBusyFaults : Prop :=
  ∀ (s : State) (t : Txn), s.busy = true →
    (0x1000 ≤ t.offset → t.offset < 0x1000 + s.params.bufBytes →
      transact t s = .fault (.busyBufAccess (t.offset - 0x1000))) ∧
    (t.offset < 0x100 → t.width = .four → t.offset % 4 = 0 → ∃ u, transact t s = .next u)

/-- R61, R65: a host write of 1, 2 or 4 bytes stores the low bytes of the data, low byte first, at the offset, and
changes no other byte and no register. -/
def Obligations.HostWriteStoresLittleEndian : Prop :=
  ∀ (s : State) (w : Width) (a : Nat) (v : Word), s.busy = false → a % w.bytes = 0 →
    a + w.bytes ≤ s.params.bufBytes →
    ∃ t, transact ⟨0x1000 + a, w, .write v⟩ s = .next t ∧
      (∀ k, k < w.bytes → Memory.read t.buf (a + k) = some (v.extractLsb' (8 * k) 8)) ∧
      (∀ c, c < a ∨ a + w.bytes ≤ c → Memory.read t.buf c = Memory.read s.buf c) ∧
      t = { s with buf := t.buf, resp := .writeDone }

/-- R61, R65, R68: a host read of 1, 2 or 4 written bytes returns them, low byte first and zero-extended, and changes
nothing else; where a byte is unwritten it is the fault UnwrittenRead.  The zero extension to 32 bits is the model's
choice, log 13, and so is the fault's offset, the lowest unwritten one, log 9. -/
def Obligations.HostReadReturnsLittleEndian : Prop :=
  ∀ (s : State) (w : Width) (a : Nat), s.busy = false → a % w.bytes = 0 → a + w.bytes ≤ s.params.bufBytes →
    (Memory.written s.buf a w.bytes = true →
      ∃ v : Word, transact ⟨0x1000 + a, w, .read⟩ s = .next { s with resp := .readData v } ∧
        v.toNat < 256 ^ w.bytes ∧
        ∀ k, k < w.bytes → Memory.read s.buf (a + k) = some (v.extractLsb' (8 * k) 8)) ∧
    (∀ j, j < w.bytes → Memory.written s.buf a j = true → Memory.read s.buf (a + j) = none →
      transact ⟨0x1000 + a, w, .read⟩ s = .fault (.unwrittenRead (a + j)))

/-- R66: after a 4-byte write the 2-byte and 1-byte reads of the same bytes return its parts (zero-extended to 32 bits,
the model's choice, log 13). -/
def Obligations.MixedWidthReadsSeeOneWrite : Prop :=
  ∀ (s : State) (a : Nat) (v : Word), s.busy = false → a % 4 = 0 → a + 4 ≤ s.params.bufBytes →
    ∃ t, transact ⟨0x1000 + a, .four, .write v⟩ s = .next t ∧
      transact ⟨0x1000 + a, .two, .read⟩ t = .next { t with resp := .readData (v &&& 0xFFFF) } ∧
      transact ⟨0x1000 + (a + 2), .two, .read⟩ t = .next { t with resp := .readData (v >>> 16) } ∧
      (∀ k, k < 4 → transact ⟨0x1000 + (a + k), .one, .read⟩ t
        = .next { t with resp := .readData ((v >>> (8 * k)) &&& 0xFF) })

/-- R67: a read of a register or of `BUF` has no side effect: only the port's answer changes. -/
def Obligations.ReadsHaveNoSideEffect : Prop :=
  ∀ (s u : State) (off : Nat) (w : Width), transact ⟨off, w, .read⟩ s = .next u →
    ∃ v, u = { s with resp := .readData v }

/-! ## ENC_UNIV -/

/-- R100, R102 to R105, R108: with a model, a non-empty written payload, good regions and room for n symbols,
`ENC_UNIV` completes; `RESULT_LEN` is n = (H + 16 L + 2)(k + 1); each of the k + 1 frames has the header exactly where
`hdr_mark > 0`, then two symbols for each bit of each payload byte in the chosen order, then the footer mark and the
gap, or after the last frame the footer space. -/
def Obligations.EncUnivWritesTheTrain : Prop :=
  ∀ s : State, s.snap.tmValid = true → 0 < s.snap.len → s.regionsOk .encUniv = true →
    s.sourceWritten .encUniv = true →
    ∀ h f : Nat, h = (if s.snap.tmHdr.mark = 0 then 0 else 2) → f = h + 16 * s.snap.len + 2 →
    f * (s.snap.repeats + 1) ≤ s.snap.cap →
    ∃ t, exec .encUniv s = .next t ∧ t.err = 0 ∧ t.resultLen.toNat = f * (s.snap.repeats + 1) ∧ t.palSize = 0 ∧
      t.busy = false ∧ t.done = true ∧
      ∀ r, r ≤ s.snap.repeats →
        (h = 2 → Memory.holdsMark t.buf (s.snap.dst + 2 * (r * f)) s.snap.tmHdr.mark = true ∧
          Memory.holdsSpace t.buf (s.snap.dst + 2 * (r * f + 1)) s.snap.tmHdr.space = true) ∧
        (∀ j, j < s.snap.len → ∀ b, Memory.read s.buf (s.snap.src + j) = some b → ∀ q, q < 8 →
          ∀ p : Pair, p = (if b.getLsbD (if s.snap.tmLsbFirst then q else 7 - q) then s.snap.tmBit1 else s.snap.tmBit0) →
          Memory.holdsMark t.buf (s.snap.dst + 2 * (r * f + h + 16 * j + 2 * q)) p.mark = true ∧
          Memory.holdsSpace t.buf (s.snap.dst + 2 * (r * f + h + 16 * j + 2 * q + 1)) p.space = true) ∧
        Memory.holdsMark t.buf (s.snap.dst + 2 * (r * f + h + 16 * s.snap.len)) s.snap.tmFtr.mark = true ∧
        Memory.holdsSpace t.buf (s.snap.dst + 2 * (r * f + h + 16 * s.snap.len + 1))
          (if r < s.snap.repeats then s.snap.tmGap else s.snap.tmFtr.space) = true

/-- R101, R204, R205, R105: `ENC_UNIV` without a model, with an empty payload or with a bad region is InvalidArgument;
with all of these good and a train longer than `DST_CAP` it is AllocationFailure; in neither case is a byte of `BUF`
read. -/
def Obligations.EncUnivFailuresInOrder : Prop :=
  ∀ s : State,
    (s.snap.tmValid = false ∨ s.snap.len = 0 ∨ s.regionsOk .encUniv = false →
      exec .encUniv s = .next (s.failed 1)) ∧
    (s.snap.tmValid = true → 0 < s.snap.len → s.regionsOk .encUniv = true →
      s.snap.cap < ((if s.snap.tmHdr.mark = 0 then 0 else 2) + 16 * s.snap.len + 2) * (s.snap.repeats + 1) →
      exec .encUniv s = .next (s.failed 5))

/-! ## ENC_NEC -/

/-- R120 to R123: with a good destination and room for 68 symbols `ENC_NEC` completes, in every other state of the
block (R125): header 9000/4500, the 16 address bits, the 8 low command bits and their complements, each least
significant first as 560/1690 or 560/560, the stop mark 560 and the stop space. -/
def Obligations.EncNecWritesTheTrain : Prop :=
  ∀ s : State, s.regionsOk .encNec = true → 68 ≤ s.snap.cap →
    ∃ t, exec .encNec s = .next t ∧ t.err = 0 ∧ t.resultLen = 68 ∧ t.palSize = 0 ∧ t.busy = false ∧ t.done = true ∧
      Memory.holdsMark t.buf s.snap.dst 9000 = true ∧ Memory.holdsSpace t.buf (s.snap.dst + 2) 4500 = true ∧
      (∀ k, k < 32 → Memory.holdsMark t.buf (s.snap.dst + 2 * (2 + 2 * k)) 560 = true) ∧
      (∀ k, k < 16 → Memory.holdsSpace t.buf (s.snap.dst + 2 * (3 + 2 * k))
        (if s.snap.necAddress.getLsbD k then 1690 else 560) = true) ∧
      (∀ k, k < 8 → Memory.holdsSpace t.buf (s.snap.dst + 2 * (3 + 2 * (16 + k)))
        (if s.snap.necCommand.getLsbD k then 1690 else 560) = true) ∧
      (∀ k, k < 8 → Memory.holdsSpace t.buf (s.snap.dst + 2 * (3 + 2 * (24 + k)))
        (if s.snap.necCommand.getLsbD k then 560 else 1690) = true) ∧
      Memory.holdsMark t.buf (s.snap.dst + 2 * 66) 560 = true ∧
      Memory.holdsSpace t.buf (s.snap.dst + 2 * 67) s.params.necStopSpace = true

/-- R204, R205, R124: `ENC_NEC` with a bad destination region is InvalidArgument, even where the 136 bytes would fit,
and with a good one and fewer than 68 symbols of room AllocationFailure. -/
def Obligations.EncNecFailuresInOrder : Prop :=
  ∀ s : State,
    (s.regionsOk .encNec = false → exec .encNec s = .next (s.failed 1)) ∧
    (s.regionsOk .encNec = true → s.snap.cap < 68 → exec .encNec s = .next (s.failed 5))

/-- R121, R125: what `ENC_NEC` does depends on `NEC_ARG` without bits [31:24], `DST_ADDR`, `DST_CAP` and the
parameters alone. -/
def Obligations.EncNecReadsOnlyItsOperands : Prop :=
  ∀ s u : State, u.params = s.params → u.snap.dstAddr = s.snap.dstAddr → u.snap.dstCap = s.snap.dstCap →
    u.snap.necAddress = s.snap.necAddress → u.snap.necCommand.toNat % 256 = s.snap.necCommand.toNat % 256 →
    u.buf = s.buf →
    ∃ t v, exec .encNec s = .next t ∧ exec .encNec u = .next v ∧ v.buf = t.buf ∧ SameResults t v

/-- R126: the number of 1 bits a NEC train carries is popcount(address) + 8. -/
def Obligations.NecTrainCountsOneBits : Prop :=
  ∀ s : State, s.regionsOk .encNec = true → 68 ≤ s.snap.cap →
    ∃ t, exec .encNec s = .next t ∧
      (List.range 32).countP (fun k => Memory.holdsSpace t.buf (s.snap.dst + 2 * (3 + 2 * k)) 1690)
        = (List.range 16).countP (fun k => s.snap.necAddress.getLsbD k) + 8

/-- R124: with the NEC timing model in the `TM_*` registers and the four NEC bytes as its payload, `ENC_UNIV` does the
same as `ENC_NEC`, whole state for whole state. -/
def Obligations.NecEqualsUniversalEncoder : Prop :=
  ∀ s : State, s.snap.tmValid = true → s.snap.tmLsbFirst = true → s.snap.tmHdr = ⟨9000, 4500⟩ →
    s.snap.tmBit1 = ⟨560, 1690⟩ → s.snap.tmBit0 = ⟨560, 560⟩ → s.snap.tmFtr = ⟨560, s.params.necStopSpace⟩ →
    s.snap.tmRepeat = 0 → s.snap.srcLen = 4 → s.regionsOk .encUniv = true → 68 ≤ s.snap.cap →
    Memory.read s.buf s.snap.src = some (s.snap.necAddress.extractLsb' 0 8) →
    Memory.read s.buf (s.snap.src + 1) = some (s.snap.necAddress.extractLsb' 8 8) →
    Memory.read s.buf (s.snap.src + 2) = some (s.snap.necCommand.extractLsb' 0 8) →
    Memory.read s.buf (s.snap.src + 3) = some (~~~ (s.snap.necCommand.extractLsb' 0 8)) →
    exec .encUniv s = exec .encNec s ∧ ∃ t, exec .encNec s = .next t ∧ t.err = 0 ∧ t.resultLen = 68

/-- R13, R108, R163: every train a command writes alternates Mark, Space, Mark, … from a Mark. -/
def Obligations.WrittenTrainsAlternate : Prop :=
  ∀ (i : Instr) (s t : State), (i = .encUniv ∨ i = .encNec ∨ i = .decompress) → exec i s = .next t →
    ∀ k, k < t.resultLen.toNat → ∃ d : Dur,
      (k % 2 = 0 → Memory.holdsMark t.buf (s.snap.dst + 2 * k) d = true) ∧
      (k % 2 = 1 → Memory.holdsSpace t.buf (s.snap.dst + 2 * k) d = true)

/-! ## COMPRESS -/

/-- R140 to R145, R86 to R88: with good regions and a written train `COMPRESS` completes where the train needs n ≤ 16
buckets and the signal fits.  The destination then holds the header, the palette and the packed indices: each symbol's
index is the lowest entry within the tolerance, each entry is the duration of the symbol that opened it, entries stand
in the order in which they were opened, and an odd count's last nibble is 0.  A train of at most 16 distinct durations
needs no more buckets than it has durations, so it compresses. -/
def Obligations.CompressWritesTheSignal : Prop :=
  ∀ s : State, s.regionsOk .compress = true → s.sourceWritten .compress = true →
    (∀ n base : Nat, n = (s.bucketsOf s.snap.len).length → base = s.snap.dst + 6 + 2 * n → n ≤ 16 →
      6 + 2 * n + (s.snap.len + 1) / 2 ≤ s.snap.cap →
      ∃ t, exec .compress s = .next t ∧ t.err = 0 ∧ t.busy = false ∧ t.done = true ∧ t.palSize.toNat = n ∧
        t.resultLen.toNat = 6 + 2 * n + (s.snap.len + 1) / 2 ∧
        Memory.holds t.buf s.snap.dst 1 s.params.magic.toNat = true ∧
        Memory.holds t.buf (s.snap.dst + 1) 4 s.snap.len = true ∧
        Memory.holds t.buf (s.snap.dst + 5) 1 n = true ∧
        Memory.written t.buf base ((s.snap.len + 1) / 2) = true ∧
        (∀ j, j < n →
          Memory.holds t.buf (s.snap.dst + 6 + 2 * j) 2 (durAt t.buf (s.snap.dst + 6) j).toNat = true ∧
          ∃ i, i < s.snap.len ∧ indexAt t.buf base i = j ∧
            durAt s.buf s.snap.src i = durAt t.buf (s.snap.dst + 6) j ∧
            ∀ i', i' < i → indexAt t.buf base i' < j) ∧
        (∀ i, i < s.snap.len → indexAt t.buf base i < n ∧
          durDist (durAt s.buf s.snap.src i) (durAt t.buf (s.snap.dst + 6) (indexAt t.buf base i))
            ≤ s.params.paletteTol ∧
          ∀ j, j < indexAt t.buf base i →
            s.params.paletteTol < durDist (durAt s.buf s.snap.src i) (durAt t.buf (s.snap.dst + 6) j)) ∧
        (s.snap.len % 2 = 1 → indexAt t.buf base s.snap.len = 0)) ∧
    (∀ c : Nat, c = (dursAt s.buf s.snap.src s.snap.len).dedup.length → c ≤ 16 →
      6 + 2 * c + (s.snap.len + 1) / 2 ≤ s.snap.cap →
      ∃ t, exec .compress s = .next t ∧ t.err = 0 ∧ t.palSize.toNat ≤ c)

/-- R143, R145: a train whose first m symbols need more than 16 buckets is CapacityExceeded whatever `DST_CAP`, and
symbols from m on need not be written; 17 durations among them, each two further apart than twice the tolerance, need
more than 16. -/
def Obligations.SeventeenthBucketFails : Prop :=
  ∀ (s : State) (m : Nat), s.regionsOk .compress = true → m ≤ s.snap.len →
    Memory.written s.buf s.snap.src (2 * m) = true →
    (16 < (s.bucketsOf m).length → exec .compress s = .next (s.failed 2)) ∧
    (∀ l : List Nat, l.length = 17 → (∀ i ∈ l, i < m) →
      l.Pairwise (fun i j =>
        2 * s.params.paletteTol < durDist (durAt s.buf s.snap.src i) (durAt s.buf s.snap.src j)) →
      exec .compress s = .next (s.failed 2))

/-- R145: a written train of n ≤ 16 buckets whose signal of 6 + 2 n + ceil(count/2) bytes is longer than `DST_CAP` is
AllocationFailure. -/
def Obligations.CompressWithoutRoomFails : Prop :=
  ∀ (s : State) (n : Nat), s.regionsOk .compress = true → s.sourceWritten .compress = true →
    n = (s.bucketsOf s.snap.len).length → n ≤ 16 → s.snap.cap < 6 + 2 * n + (s.snap.len + 1) / 2 →
    exec .compress s = .next (s.failed 5)

/-- R147: `COMPRESS` of an empty train with room for 6 bytes writes `MAGIC 00 00 00 00 00`. -/
def Obligations.CompressOfEmptyTrain : Prop :=
  ∀ s : State, s.snap.srcLen = 0 → s.regionsOk .compress = true → 6 ≤ s.snap.cap →
    ∃ t, exec .compress s = .next t ∧ t.err = 0 ∧ t.resultLen = 6 ∧ t.palSize = 0 ∧
      Memory.read t.buf s.snap.dst = some s.params.magic ∧
      ∀ k, 1 ≤ k → k < 6 → Memory.read t.buf (s.snap.dst + k) = some 0

/-- R204, R205: `COMPRESS` with a bad region is InvalidArgument and reads nothing; with good ones it never is. -/
def Obligations.CompressBadRegionsFail : Prop :=
  ∀ s : State,
    (s.regionsOk .compress = false → exec .compress s = .next (s.failed 1)) ∧
    (s.regionsOk .compress = true → ∀ t, exec .compress s = .next t → t.err = 0 ∨ t.err = 2 ∨ t.err = 5)

/-! ## DECOMPRESS -/

/-- R161, R204, R205, R164: a bad region is InvalidArgument; then the seven format checks, in order, each on the bytes
read so far alone; then a count above `DST_CAP` is AllocationFailure. -/
def Obligations.DecompressFailuresInOrder : Prop :=
  ∀ s : State,
    (s.regionsOk .decompress = false → exec .decompress s = .next (s.failed 1)) ∧
    (s.regionsOk .decompress = true → s.snap.len < 6 → exec .decompress s = .next (s.failed 3)) ∧
    (s.regionsOk .decompress = true → 6 ≤ s.snap.len →
      ∀ b, Memory.read s.buf s.snap.src = some b → b ≠ s.params.magic →
      exec .decompress s = .next (s.failed 3)) ∧
    (s.regionsOk .decompress = true → ∀ count n, s.headerHolds count n = true →
      (16 < n → exec .decompress s = .next (s.failed 3)) ∧
      (n ≤ 16 → s.snap.len < 6 + 2 * n → exec .decompress s = .next (s.failed 3)) ∧
      (n ≤ 16 → 6 + 2 * n ≤ s.snap.len → Memory.written s.buf (s.snap.src + 6) (2 * n) = true →
        s.paletteHolds n = false → exec .decompress s = .next (s.failed 3)) ∧
      (s.paletteHolds n = true → 0 < count → n = 0 → exec .decompress s = .next (s.failed 3)) ∧
      (s.paletteHolds n = true → s.snap.len < 6 + 2 * n + (count + 1) / 2 →
        exec .decompress s = .next (s.failed 3)) ∧
      (s.paletteHolds n = true → (count = 0 ∨ 0 < n) → 6 + 2 * n + (count + 1) / 2 ≤ s.snap.len →
        s.snap.cap < count → exec .decompress s = .next (s.failed 5)))

/-- R160, R162 to R165: a well-formed signal with room for its symbols decompresses: symbol i is a Mark where i is even
and a Space where it is odd, its duration the entry of its nibble, or entry 0 where the nibble is N or more; only the
bytes of the signal need be written, not those after it. -/
def Obligations.DecompressWritesTheTrain : Prop :=
  ∀ (s : State) (count n : Nat), s.regionsOk .decompress = true → s.headerHolds count n = true →
    s.paletteHolds n = true → (count = 0 ∨ 0 < n) → 6 + 2 * n + (count + 1) / 2 ≤ s.snap.len →
    Memory.written s.buf (s.snap.src + 6 + 2 * n) ((count + 1) / 2) = true → count ≤ s.snap.cap →
    ∃ t, exec .decompress s = .next t ∧ t.err = 0 ∧ t.resultLen.toNat = count ∧ t.palSize.toNat = n ∧
      t.busy = false ∧ t.done = true ∧
      ∀ i, i < count → ∀ ix, ix = indexAt s.buf (s.snap.src + 6 + 2 * n) i →
        ∀ d, d = durAt s.buf (s.snap.src + 6) (if ix < n then ix else 0) →
        (i % 2 = 0 → Memory.holdsMark t.buf (s.snap.dst + 2 * i) d = true) ∧
        (i % 2 = 1 → Memory.holdsSpace t.buf (s.snap.dst + 2 * i) d = true)

/-- R166: the round trip.  Where `COMPRESS` of a train succeeds, `DECOMPRESS` of what it wrote, in any state of a block
with the same parameters and room for the symbols, gives back the count; each duration is the entry it matched, so
within the tolerance, and the same exactly where it equals that entry, which it does where every duration of the train
equals it or is further from it than the tolerance; the levels alternate from a Mark, so they are the train's own where
the train alternates. -/
def Obligations.CodecRoundTrip : Prop :=
  ∀ s t u : State, exec .compress s = .next t → t.err = 0 →
    u.params = s.params → u.buf = t.buf → u.snap.src = s.snap.dst → u.snap.len = t.resultLen.toNat →
    u.regionsOk .decompress = true → s.snap.len ≤ u.snap.cap →
    ∃ v, exec .decompress u = .next v ∧ v.err = 0 ∧ v.resultLen = s.snap.srcLen ∧ v.palSize = t.palSize ∧
      Memory.written v.buf u.snap.dst (2 * s.snap.len) = true ∧
      (∀ i, i < s.snap.len → levelOf (symbolWordAt v.buf u.snap.dst i) = altLevel i) ∧
      ((∀ i, i < s.snap.len → levelOf (symbolWordAt s.buf s.snap.src i) = altLevel i) →
        ∀ i, i < s.snap.len →
          levelOf (symbolWordAt v.buf u.snap.dst i) = levelOf (symbolWordAt s.buf s.snap.src i)) ∧
      ∀ i, i < s.snap.len →
        durAt v.buf u.snap.dst i
          = durAt t.buf (s.snap.dst + 6) (indexAt t.buf (s.snap.dst + 6 + 2 * t.palSize.toNat) i) ∧
        durDist (durAt s.buf s.snap.src i) (durAt v.buf u.snap.dst i) ≤ s.params.paletteTol ∧
        ((∀ j, j < s.snap.len → durAt s.buf s.snap.src i = durAt s.buf s.snap.src j ∨
            s.params.paletteTol < durDist (durAt s.buf s.snap.src i) (durAt s.buf s.snap.src j)) →
          durAt v.buf u.snap.dst i = durAt s.buf s.snap.src i)

/-! ## All four commands -/

/-- The frame of `ENC_UNIV`, `ENC_NEC`, `COMPRESS` and `DECOMPRESS` (R201, R108, R145, R164): a completion changes
`ERR`, `RESULT_LEN`, `PAL_SIZE`, BUSY and DONE, and of `BUF` only the bytes from `DST_ADDR` up that `RESULT_LEN`
counts, in the command's unit. -/
def Obligations.CommandFrames : Prop :=
  ∀ (i : Instr) (s t : State), exec i s = .next t →
    CommandFrame s t ∧
    ∀ a, a < s.snap.dst ∨ s.snap.dst + outputUnit i * t.resultLen.toNat ≤ a →
      Memory.read t.buf a = Memory.read s.buf a

/-- R202: a command that fails writes no byte of `BUF`; `RESULT_LEN` and `PAL_SIZE` are 0, and the code is one of
R200. -/
def Obligations.FailedCommandsWriteNothing : Prop :=
  ∀ (i : Instr) (s t : State), exec i s = .next t → t.err ≠ 0 → t = s.failed t.err ∧ errReported t.err = true

/-- R105, R145, R164, R204: the output's length is exactly the capacity needed: with any `DST_CAP` from the length up
to the old one the command does the same; with any smaller one it is AllocationFailure. -/
def Obligations.OutputCapacityIsExact : Prop :=
  ∀ (i : Instr) (s t : State) (c : Word), exec i s = .next t → t.err = 0 →
    (t.resultLen.toNat ≤ c.toNat → c.toNat ≤ s.snap.cap → exec i (s.withCap c) = .next (t.withCap c)) ∧
    (c.toNat < t.resultLen.toNat → exec i (s.withCap c) = .next ((s.withCap c).failed 5))

/-- R201, R234: a command whose source region is written always completes: BUSY falls, DONE rises, and the code is one
of R200. -/
def Obligations.CommandsCompleteOnWrittenSource : Prop :=
  ∀ (i : Instr) (s : State), s.sourceWritten i = true →
    ∃ t, exec i s = .next t ∧ t.busy = false ∧ t.done = true ∧ errReported t.err = true

/-- R68, R125, R208: a command faults only by reading an unwritten byte of its own source region; so `ENC_NEC`, which
has none, never does.  That the fault carries the byte's `BUF` offset is the model's choice, log 9. -/
def Obligations.CommandsFaultOnlyOnUnwrittenSource : Prop :=
  ∀ (i : Instr) (s : State) (f : Fault), exec i s = .fault f →
    ∃ a, f = .unwrittenRead a ∧ Memory.read s.buf a = none ∧
      s.snap.src ≤ a ∧ a < s.snap.src + sourceBytes i s.snap

/-- R68, R148, R167: the first unwritten byte that a command reaches is the fault UnwrittenRead: for `ENC_UNIV` a byte of
a payload that no check turns away; for `COMPRESS` a byte of the symbol after k written ones that need at most 16
buckets; for `DECOMPRESS` a byte of the header from `MAGIC` on, of a palette that the length covers, or of the packed
indices of a signal that no check turns away.  That the fault names the lowest unwritten offset is the model's choice,
log 9. -/
def Obligations.UnwrittenSourceFaults : Prop :=
  (∀ (s : State) (j : Nat), s.snap.tmValid = true → s.regionsOk .encUniv = true →
    ((if s.snap.tmHdr.mark = 0 then 0 else 2) + 16 * s.snap.len + 2) * (s.snap.repeats + 1) ≤ s.snap.cap →
    j < s.snap.len → Memory.written s.buf s.snap.src j = true → Memory.read s.buf (s.snap.src + j) = none →
    exec .encUniv s = .fault (.unwrittenRead (s.snap.src + j))) ∧
  (∀ (s : State) (k j : Nat), s.regionsOk .compress = true → k < s.snap.len → j < 2 →
    Memory.written s.buf s.snap.src (2 * k + j) = true → (s.bucketsOf k).length ≤ 16 →
    Memory.read s.buf (s.snap.src + (2 * k + j)) = none →
    exec .compress s = .fault (.unwrittenRead (s.snap.src + (2 * k + j)))) ∧
  (∀ s : State, s.regionsOk .decompress = true → 6 ≤ s.snap.len →
    (∀ j, j < 6 → (0 < j → Memory.read s.buf s.snap.src = some s.params.magic) →
      Memory.written s.buf s.snap.src j = true → Memory.read s.buf (s.snap.src + j) = none →
      exec .decompress s = .fault (.unwrittenRead (s.snap.src + j))) ∧
    (∀ count n j, s.headerHolds count n = true → n ≤ 16 → 6 + 2 * n ≤ s.snap.len → j < 2 * n →
      Memory.written s.buf (s.snap.src + 6) j = true → Memory.read s.buf (s.snap.src + 6 + j) = none →
      exec .decompress s = .fault (.unwrittenRead (s.snap.src + 6 + j))) ∧
    (∀ count n j, s.headerHolds count n = true → s.paletteHolds n = true → (count = 0 ∨ 0 < n) →
      6 + 2 * n + (count + 1) / 2 ≤ s.snap.len → count ≤ s.snap.cap → j < (count + 1) / 2 →
      Memory.written s.buf (s.snap.src + 6 + 2 * n) j = true →
      Memory.read s.buf (s.snap.src + 6 + 2 * n + j) = none →
      exec .decompress s = .fault (.unwrittenRead (s.snap.src + 6 + 2 * n + j))))

/-- R3, R107, R161: a command's result depends only on its snapshot and the bytes of its source region: in two states
that agree on these and on the parameters it ends the same way and writes the same bytes. -/
def Obligations.CommandsDependOnlyOnSource : Prop :=
  ∀ (i : Instr) (s u : State), u.params = s.params → u.snap = s.snap →
    (∀ k, k < sourceBytes i s.snap → Memory.read u.buf (s.snap.src + k) = Memory.read s.buf (s.snap.src + k)) →
    (∀ t, exec i s = .next t → ∃ v, exec i u = .next v ∧ SameResults t v ∧
      ∀ k, k < outputUnit i * t.resultLen.toNat →
        Memory.read v.buf (s.snap.dst + k) = Memory.read t.buf (s.snap.dst + k)) ∧
    (∀ f, exec i s = .fault f → exec i u = .fault f)

/-! ## Whole-machine rules -/

/-- Every step keeps the invariant, from every state that has it: the canonical form and the bounds of `BUF`, BUSY and
DONE never together (R27), a reported error code, no length or palette beside an error, N at most 16, and a length that
fits `BUF` (R30 to R32, R200, R202). -/
def Obligations.StepKeepsInvariant : Prop :=
  ∀ s t : State, s.inv = true → step s = .next t → t.inv = true

/-- R7, R24, R25: no step changes the parameters, so `ID` and `BUFSIZE` read constants. -/
def Obligations.ParametersNeverChange : Prop :=
  ∀ s t : State, step s = .next t → t.params = s.params ∧
    readReg .id t = readReg .id s ∧ readReg .bufsize t = readReg .bufsize s

/-- R52, R68: only reset makes a byte of `BUF` unwritten. -/
def Obligations.WrittenBytesStayWritten : Prop :=
  ∀ s t : State, step s = .next t → s.turns.head? ≠ some .rst →
    ∀ a, (Memory.read s.buf a).isSome = true → (Memory.read t.buf a).isSome = true

/-- R22, R201, R210: no turn of the host ends, changes or replaces a running command, or writes `BUF` or the results. -/
def Obligations.HostCannotDisturbRunningCommand : Prop :=
  ∀ s t : State, s.busy = true → hostTurn s = .next t →
    t.busy = true ∧ t.curOp = s.curOp ∧ t.snap = s.snap ∧ t.buf = s.buf ∧ t.params = s.params ∧ SameResults s t

/-- R22, R244: what the host writes while a command runs does not reach it: it ends as it would have, with the same
results and the same `BUF`. -/
def Obligations.HostWritesDoNotReachRunningCommand : Prop :=
  ∀ s t : State, s.busy = true → hostTurn s = .next t →
    (∀ u, completionStep s = .next u → ∃ v, completionStep t = .next v ∧ v.buf = u.buf ∧ SameResults u v ∧
      v.ops = t.ops) ∧
    (∀ f, completionStep s = .fault f → completionStep t = .fault f)

/-- R240, R201: an accepted command ends: after any number of host turns, which do not fault, the next step completes
it (that the engine moves at the end of the schedule is the model's form of weak fairness, log 4). -/
def Obligations.AcceptedCommandEnds : Prop :=
  ∀ (n : Nat) (s t : State), s.busy = true → s.turns = List.replicate n .host →
    Sys2Proof.core.run (n + 1) s = .next t → t.busy = false ∧ t.done = true

/-- R51, R71, R201: DONE rises in no other step than one in which BUSY falls, a completion step. -/
def Obligations.DoneRisesOnlyAtCompletion : Prop :=
  ∀ s t : State, step s = .next t → s.done = false → t.done = true →
    s.busy = true ∧ t.busy = false ∧ s.turns.head? ≠ some .host ∧ s.turns.head? ≠ some .rst

/-- R30 to R32, R71: `ERR`, `RESULT_LEN` and `PAL_SIZE` change in no other step than a completion step, which also sets
DONE, or a reset. -/
def Obligations.ResultsChangeOnlyAtCompletion : Prop :=
  ∀ s t : State, step s = .next t → s.turns.head? ≠ some .rst → ¬ SameResults s t →
    s.busy = true ∧ t.busy = false ∧ t.done = true
end

