-- ==== Sys2Proof/Laws/Memory.lean ====
section
/-! SUPPORT. The laws of `BUF`: a read after a write, the canonical form, and little-endian numbers. -/

namespace Sys2Proof.Machine

/-! ## One byte -/

@[simp] theorem Memory.read_nil (a : Nat) : Memory.read [] a = none := rfl

theorem Memory.read_cons (x : Nat) (y : Byte) (m : Memory) (a : Nat) :
    Memory.read ((x, y) :: m) a = if a = x then some y else Memory.read m a := rfl

/-- A byte read after one byte was written. -/
theorem Memory.read_write (m : Memory) (a : Nat) (b : Byte) (c : Nat) :
    Memory.read (Memory.write m a b) c = if c = a then some b else Memory.read m c := by
  induction m with
  | nil => rfl
  | cons h m ih =>
    obtain ⟨x, y⟩ := h
    simp only [Memory.write]
    split
    · rfl
    · split
      · subst_vars
        simp only [Memory.read_cons]
        split <;> rfl
      · simp only [Memory.read_cons, ih]
        split_ifs <;> first | rfl | omega

theorem Memory.read_write_same (m : Memory) (a : Nat) (b : Byte) :
    Memory.read (Memory.write m a b) a = some b := by simp [Memory.read_write]

theorem Memory.read_write_other (m : Memory) (a c : Nat) (b : Byte) (h : c ≠ a) :
    Memory.read (Memory.write m a b) c = Memory.read m c := by simp [Memory.read_write, h]

/-! ## Consecutive bytes -/

@[simp] theorem Memory.writeBytes_nil (m : Memory) (a : Nat) : Memory.writeBytes m a [] = m := rfl

theorem Memory.writeBytes_cons (m : Memory) (a : Nat) (b : Byte) (bs : List Byte) :
    Memory.writeBytes m a (b :: bs) = Memory.writeBytes (Memory.write m a b) (a + 1) bs := rfl

/-- A byte outside the written range keeps its value. -/
theorem Memory.read_writeBytes_other (bs : List Byte) (m : Memory) (a c : Nat)
    (h : c < a ∨ a + bs.length ≤ c) : Memory.read (Memory.writeBytes m a bs) c = Memory.read m c := by
  induction bs generalizing m a with
  | nil => rfl
  | cons b bs ih =>
    simp only [List.length_cons] at h
    rw [Memory.writeBytes_cons, ih _ _ (by omega), Memory.read_write_other _ _ _ _ (by omega)]

/-- A byte inside the written range holds the byte written there. -/
theorem Memory.read_writeBytes_same (bs : List Byte) (m : Memory) (a k : Nat) (h : k < bs.length) :
    Memory.read (Memory.writeBytes m a bs) (a + k) = some bs[k] := by
  induction bs generalizing m a k with
  | nil => simp at h
  | cons b bs ih =>
    rw [Memory.writeBytes_cons]
    cases k with
    | zero =>
      rw [Memory.read_writeBytes_other _ _ _ _ (Or.inl (by omega)), Nat.add_zero, Memory.read_write_same]
      rfl
    | succ k =>
      have := ih (Memory.write m a b) (a + 1) k (by simpa using h)
      rw [show a + (k + 1) = a + 1 + k by omega, this]
      rfl

theorem Memory.writeBytes_append (as bs : List Byte) (m : Memory) (a : Nat) :
    Memory.writeBytes m a (as ++ bs) = Memory.writeBytes (Memory.writeBytes m a as) (a + as.length) bs := by
  induction as generalizing m a with
  | nil => rfl
  | cons x as ih =>
    simp only [List.cons_append, Memory.writeBytes_cons, ih, List.length_cons]
    congr 1
    omega

/-! ## The canonical form -/

@[simp] theorem Memory.wf_nil : Memory.wf [] = true := rfl

/-- The form, one entry at a time: the rest is in form and every offset in it lies above. -/
theorem Memory.wf_cons (x : Nat) (y : Byte) (m : Memory) :
    Memory.wf ((x, y) :: m) = true ↔ (∀ c ∈ m, x < c.1) ∧ Memory.wf m = true := by
  induction m generalizing x y with
  | nil => simp [Memory.wf]
  | cons h m ih =>
    obtain ⟨z, w⟩ := h
    have e : Memory.wf ((x, y) :: (z, w) :: m) = (Nat.blt x z && Memory.wf ((z, w) :: m)) := rfl
    rw [e, Bool.and_eq_true, Nat.blt_eq]
    constructor
    · rintro ⟨hxz, hw⟩
      refine ⟨?_, hw⟩
      intro c hc
      rcases List.mem_cons.1 hc with rfl | hc
      · exact hxz
      · exact lt_trans hxz (((ih z w).1 hw).1 c hc)
    · rintro ⟨hall, hw⟩
      exact ⟨hall (z, w) (by simp), hw⟩

/-- The offsets after a write are the written one and the old ones. -/
theorem Memory.mem_write (m : Memory) (a : Nat) (b : Byte) (c : Host.Cell) (h : c ∈ Memory.write m a b) :
    c = (a, b) ∨ c ∈ m := by
  induction m with
  | nil => simpa [Memory.write] using h
  | cons e m ih =>
    obtain ⟨x, y⟩ := e
    simp only [Memory.write] at h
    split at h
    · simpa using h
    · split at h
      · rcases List.mem_cons.1 h with h | h
        · exact .inl h
        · exact .inr (List.mem_cons_of_mem _ h)
      · rcases List.mem_cons.1 h with h | h
        · exact .inr (by simp [h])
        · rcases ih h with h | h
          · exact .inl h
          · exact .inr (List.mem_cons_of_mem _ h)

theorem Memory.wf_write (m : Memory) (a : Nat) (b : Byte) (h : Memory.wf m = true) :
    Memory.wf (Memory.write m a b) = true := by
  induction m with
  | nil => rfl
  | cons e m ih =>
    obtain ⟨x, y⟩ := e
    obtain ⟨hall, hm⟩ := (Memory.wf_cons x y m).1 h
    simp only [Memory.write]
    split
    · rename_i hlt
      refine (Memory.wf_cons _ _ _).2 ⟨?_, h⟩
      intro c hc
      rcases List.mem_cons.1 hc with rfl | hc
      · exact hlt
      · exact lt_trans hlt (hall c hc)
    · split
      · subst_vars
        exact (Memory.wf_cons _ _ _).2 ⟨hall, hm⟩
      · refine (Memory.wf_cons _ _ _).2 ⟨?_, ih hm⟩
        intro c hc
        rcases Memory.mem_write m a b c hc with rfl | hc
        · simp only
          omega
        · exact hall c hc

theorem Memory.wf_writeBytes (bs : List Byte) (m : Memory) (a : Nat) (h : Memory.wf m = true) :
    Memory.wf (Memory.writeBytes m a bs) = true := by
  induction bs generalizing m a with
  | nil => exact h
  | cons b bs ih => exact ih _ _ (Memory.wf_write m a b h)

theorem Memory.wf_memWrite (m : Memory) (a n v : Nat) (h : Memory.wf m = true) :
    Memory.wf (memWrite m a n v) = true := Memory.wf_writeBytes _ _ _ h

theorem Memory.wf_applyWrites (ws : List BufWrite) (m : Memory) (h : Memory.wf m = true) :
    Memory.wf (applyWrites m ws) = true := by
  induction ws generalizing m with
  | nil => exact h
  | cons w ws ih => exact ih _ (Memory.wf_writeBytes _ _ _ h)

/-! ## Offsets below a bound -/

theorem Memory.below_iff (n : Nat) (m : Memory) : Memory.below n m = true ↔ ∀ c ∈ m, c.1 < n := by
  simp [Memory.below, List.all_eq_true, Nat.blt_eq]

theorem Memory.below_write (n : Nat) (m : Memory) (a : Nat) (b : Byte) (h : Memory.below n m = true) (ha : a < n) :
    Memory.below n (Memory.write m a b) = true := by
  rw [Memory.below_iff] at h ⊢
  intro c hc
  rcases Memory.mem_write m a b c hc with rfl | hc
  · exact ha
  · exact h c hc

theorem Memory.below_writeBytes (n : Nat) (bs : List Byte) (m : Memory) (a : Nat) (h : Memory.below n m = true)
    (ha : bs = [] ∨ a + bs.length ≤ n) : Memory.below n (Memory.writeBytes m a bs) = true := by
  induction bs generalizing m a with
  | nil => exact h
  | cons b bs ih =>
    have hb : a + (bs.length + 1) ≤ n := by simpa using ha
    exact ih _ _ (Memory.below_write n m a b h (by omega)) (.inr (by omega))

/-- Every offset a write list names lies below a bound. -/
def writesBelow (n : Nat) (ws : List BufWrite) : Prop := ∀ w ∈ ws, w.offset + w.bytes.length ≤ n

theorem Memory.below_applyWrites (n : Nat) (ws : List BufWrite) (m : Memory) (h : Memory.below n m = true)
    (hw : writesBelow n ws) : Memory.below n (applyWrites m ws) = true := by
  induction ws generalizing m with
  | nil => exact h
  | cons w ws ih =>
    exact ih _ (Memory.below_writeBytes n _ _ _ h (.inr (hw w (by simp)))) (fun x hx => hw x (by simp [hx]))

/-! ## Reads of several bytes -/

theorem Memory.byteAt_ok (m : Memory) (a : Nat) (b : Byte) :
    Memory.byteAt m a = .ok b ↔ Memory.read m a = some b := by
  unfold Memory.byteAt
  cases Memory.read m a <;> simp

/-- A read of one byte more: the first byte, then the rest. -/
theorem Memory.bytesAt_succ_ok (m : Memory) (n a : Nat) (bs : List Byte) :
    Memory.bytesAt m a (n + 1) = .ok bs ↔
      ∃ b cs, bs = b :: cs ∧ Memory.read m a = some b ∧ Memory.bytesAt m (a + 1) n = .ok cs := by
  simp only [Memory.bytesAt, Memory.byteAt]
  cases Memory.read m a with
  | none => simp [bind, Except.bind]
  | some b =>
    cases Memory.bytesAt m (a + 1) n with
    | error e => simp [bind, Except.bind]
    | ok cs => simp [bind, Except.bind, eq_comm]

/-- A read of several bytes succeeds with exactly the bytes that stand there. -/
theorem Memory.bytesAt_ok (m : Memory) (n a : Nat) (bs : List Byte) :
    Memory.bytesAt m a n = .ok bs ↔
      bs.length = n ∧ ∀ k (h : k < bs.length), Memory.read m (a + k) = some bs[k] := by
  induction n generalizing a bs with
  | zero =>
    cases bs with
    | nil => simp [Memory.bytesAt]
    | cons b bs => simp [Memory.bytesAt]
  | succ n ih =>
    rw [Memory.bytesAt_succ_ok]
    constructor
    · rintro ⟨b, cs, rfl, h0, hs⟩
      obtain ⟨hl, hc⟩ := (ih (a + 1) cs).1 hs
      refine ⟨by simp [hl], ?_⟩
      intro k hk
      cases k with
      | zero => simpa using h0
      | succ k =>
        have := hc k (by simpa using hk)
        rwa [show a + 1 + k = a + (k + 1) by omega] at this
    · rintro ⟨hl, h⟩
      cases bs with
      | nil => simp at hl
      | cons b cs =>
        refine ⟨b, cs, rfl, h 0 (by simp), (ih (a + 1) cs).2 ⟨by simpa using hl, ?_⟩⟩
        intro k hk
        have := h (k + 1) (by simpa using hk)
        rwa [show a + (k + 1) = a + 1 + k by omega] at this

theorem Memory.written_iff (m : Memory) (n a : Nat) :
    Memory.written m a n = true ↔ ∀ k < n, (Memory.read m (a + k)).isSome = true := by
  induction n generalizing a with
  | zero => simp [Memory.written]
  | succ n ih =>
    simp only [Memory.written, Bool.and_eq_true, ih]
    constructor
    · rintro ⟨h0, h⟩ k hk
      cases k with
      | zero => exact h0
      | succ k =>
        have := h k (by omega)
        rwa [show a + 1 + k = a + (k + 1) by omega] at this
    · intro h
      refine ⟨by simpa using h 0 (by omega), fun k hk => ?_⟩
      have := h (k + 1) (by omega)
      rwa [show a + (k + 1) = a + 1 + k by omega] at this

/-- Written bytes can be read. -/
theorem Memory.bytesAt_of_written (m : Memory) (n a : Nat) (h : Memory.written m a n = true) :
    ∃ bs, Memory.bytesAt m a n = .ok bs := by
  induction n generalizing a with
  | zero => exact ⟨[], rfl⟩
  | succ n ih =>
    simp only [Memory.written, Bool.and_eq_true] at h
    obtain ⟨b, hb⟩ := Option.isSome_iff_exists.1 h.1
    obtain ⟨bs, hbs⟩ := ih (a + 1) h.2
    refine ⟨b :: bs, ?_⟩
    simp only [Memory.bytesAt, Memory.byteAt, hb, hbs, bind, Except.bind]

/-- A part of a written region is written. -/
theorem Memory.written_sub (m : Memory) (a n b k : Nat) (h : Memory.written m a n = true) (h1 : a ≤ b)
    (h2 : b + k ≤ a + n) : Memory.written m b k = true := by
  rw [Memory.written_iff] at h ⊢
  intro j hj
  have := h (b - a + j) (by omega)
  rwa [show a + (b - a + j) = b + j by omega] at this

/-! ## Little-endian numbers -/

@[simp] theorem leBytes_length (n v : Nat) : (leBytes n v).length = n := by
  induction n generalizing v with
  | zero => rfl
  | succ n ih => simp [leBytes, ih]

/-- The bytes of a number read back as the number, cut to their width (spec/00_scope.md R10). -/
theorem leNat_leBytes (n v : Nat) : leNat (leBytes n v) = v % 256 ^ n := by
  induction n generalizing v with
  | zero => simp [leBytes, leNat, Nat.mod_one]
  | succ n ih =>
    have e : (BitVec.ofNat 8 v).toNat = v % 256 := by simp
    rw [leBytes, leNat, ih, e, Nat.pow_succ, Nat.mul_comm (256 ^ n) 256, Nat.mod_mul]

/-- A number of fewer than `n` bytes' values. -/
theorem leNat_lt (bs : List Byte) : leNat bs < 256 ^ bs.length := by
  induction bs with
  | nil => simp [leNat]
  | cons b bs ih =>
    have := b.isLt
    simp only [leNat, List.length_cons, Nat.pow_succ]
    omega

end Sys2Proof.Machine
end

