-- ==== Sys2Proof/Laws/State.lean ====
section
/-! SUPPORT. One lemma per field per update of the state, true by unfolding the update once. -/

namespace Sys2Proof.Machine

/-! ## Acceptance (spec/10_state.md R29) -/

@[simp] theorem State.accept_params (op : BitVec 4) (s : State) : (s.accept op).params = s.params := rfl
@[simp] theorem State.accept_irqEn (op : BitVec 4) (s : State) : (s.accept op).irqEn = s.irqEn := rfl
@[simp] theorem State.accept_busy (op : BitVec 4) (s : State) : (s.accept op).busy = true := rfl
@[simp] theorem State.accept_done (op : BitVec 4) (s : State) : (s.accept op).done = false := rfl
@[simp] theorem State.accept_cmdLost (op : BitVec 4) (s : State) : (s.accept op).cmdLost = s.cmdLost := rfl
@[simp] theorem State.accept_err (op : BitVec 4) (s : State) : (s.accept op).err = s.err := rfl
@[simp] theorem State.accept_resultLen (op : BitVec 4) (s : State) : (s.accept op).resultLen = s.resultLen := rfl
@[simp] theorem State.accept_palSize (op : BitVec 4) (s : State) : (s.accept op).palSize = s.palSize := rfl
@[simp] theorem State.accept_ops (op : BitVec 4) (s : State) : (s.accept op).ops = s.ops := rfl
@[simp] theorem State.accept_tmCarrier (op : BitVec 4) (s : State) : (s.accept op).tmCarrier = s.tmCarrier := rfl
@[simp] theorem State.accept_tmDuty (op : BitVec 4) (s : State) : (s.accept op).tmDuty = s.tmDuty := rfl
@[simp] theorem State.accept_curOp (op : BitVec 4) (s : State) : (s.accept op).curOp = op := rfl
@[simp] theorem State.accept_snap (op : BitVec 4) (s : State) : (s.accept op).snap = s.ops := rfl
@[simp] theorem State.accept_buf (op : BitVec 4) (s : State) : (s.accept op).buf = s.buf := rfl
@[simp] theorem State.accept_resp (op : BitVec 4) (s : State) : (s.accept op).resp = s.resp := rfl
@[simp] theorem State.accept_host (op : BitVec 4) (s : State) : (s.accept op).host = s.host := rfl
@[simp] theorem State.accept_turns (op : BitVec 4) (s : State) : (s.accept op).turns = s.turns := rfl

/-! ## Completion of a successful command (spec/60_exceptions.md R201) -/

@[simp] theorem State.finishOk_params (o : Output) (s : State) : (s.finishOk o).params = s.params := rfl
@[simp] theorem State.finishOk_irqEn (o : Output) (s : State) : (s.finishOk o).irqEn = s.irqEn := rfl
@[simp] theorem State.finishOk_busy (o : Output) (s : State) : (s.finishOk o).busy = false := rfl
@[simp] theorem State.finishOk_done (o : Output) (s : State) : (s.finishOk o).done = true := rfl
@[simp] theorem State.finishOk_cmdLost (o : Output) (s : State) : (s.finishOk o).cmdLost = s.cmdLost := rfl
@[simp] theorem State.finishOk_err (o : Output) (s : State) : (s.finishOk o).err = 0 := rfl
@[simp] theorem State.finishOk_resultLen (o : Output) (s : State) : (s.finishOk o).resultLen = BitVec.ofNat 32 o.len := rfl
@[simp] theorem State.finishOk_palSize (o : Output) (s : State) : (s.finishOk o).palSize = BitVec.ofNat 5 o.pal := rfl
@[simp] theorem State.finishOk_ops (o : Output) (s : State) : (s.finishOk o).ops = s.ops := rfl
@[simp] theorem State.finishOk_tmCarrier (o : Output) (s : State) : (s.finishOk o).tmCarrier = s.tmCarrier := rfl
@[simp] theorem State.finishOk_tmDuty (o : Output) (s : State) : (s.finishOk o).tmDuty = s.tmDuty := rfl
@[simp] theorem State.finishOk_curOp (o : Output) (s : State) : (s.finishOk o).curOp = s.curOp := rfl
@[simp] theorem State.finishOk_snap (o : Output) (s : State) : (s.finishOk o).snap = s.snap := rfl
@[simp] theorem State.finishOk_buf (o : Output) (s : State) : (s.finishOk o).buf = applyWrites s.buf o.writes := rfl
@[simp] theorem State.finishOk_resp (o : Output) (s : State) : (s.finishOk o).resp = s.resp := rfl
@[simp] theorem State.finishOk_host (o : Output) (s : State) : (s.finishOk o).host = s.host := rfl
@[simp] theorem State.finishOk_turns (o : Output) (s : State) : (s.finishOk o).turns = s.turns := rfl

/-! ## Completion of a failed command (spec/60_exceptions.md R202) -/

@[simp] theorem State.finishError_params (c : Cause) (s : State) : (s.finishError c).params = s.params := rfl
@[simp] theorem State.finishError_irqEn (c : Cause) (s : State) : (s.finishError c).irqEn = s.irqEn := rfl
@[simp] theorem State.finishError_busy (c : Cause) (s : State) : (s.finishError c).busy = false := rfl
@[simp] theorem State.finishError_done (c : Cause) (s : State) : (s.finishError c).done = true := rfl
@[simp] theorem State.finishError_cmdLost (c : Cause) (s : State) : (s.finishError c).cmdLost = s.cmdLost := rfl
@[simp] theorem State.finishError_err (c : Cause) (s : State) : (s.finishError c).err = c.code := rfl
@[simp] theorem State.finishError_resultLen (c : Cause) (s : State) : (s.finishError c).resultLen = 0 := rfl
@[simp] theorem State.finishError_palSize (c : Cause) (s : State) : (s.finishError c).palSize = 0 := rfl
@[simp] theorem State.finishError_ops (c : Cause) (s : State) : (s.finishError c).ops = s.ops := rfl
@[simp] theorem State.finishError_tmCarrier (c : Cause) (s : State) : (s.finishError c).tmCarrier = s.tmCarrier := rfl
@[simp] theorem State.finishError_tmDuty (c : Cause) (s : State) : (s.finishError c).tmDuty = s.tmDuty := rfl
@[simp] theorem State.finishError_curOp (c : Cause) (s : State) : (s.finishError c).curOp = s.curOp := rfl
@[simp] theorem State.finishError_snap (c : Cause) (s : State) : (s.finishError c).snap = s.snap := rfl
@[simp] theorem State.finishError_buf (c : Cause) (s : State) : (s.finishError c).buf = s.buf := rfl
@[simp] theorem State.finishError_resp (c : Cause) (s : State) : (s.finishError c).resp = s.resp := rfl
@[simp] theorem State.finishError_host (c : Cause) (s : State) : (s.finishError c).host = s.host := rfl
@[simp] theorem State.finishError_turns (c : Cause) (s : State) : (s.finishError c).turns = s.turns := rfl

/-! ## The bus port's answer -/

@[simp] theorem State.respond_params (r : Response) (s : State) : (s.respond r).params = s.params := rfl
@[simp] theorem State.respond_irqEn (r : Response) (s : State) : (s.respond r).irqEn = s.irqEn := rfl
@[simp] theorem State.respond_busy (r : Response) (s : State) : (s.respond r).busy = s.busy := rfl
@[simp] theorem State.respond_done (r : Response) (s : State) : (s.respond r).done = s.done := rfl
@[simp] theorem State.respond_cmdLost (r : Response) (s : State) : (s.respond r).cmdLost = s.cmdLost := rfl
@[simp] theorem State.respond_err (r : Response) (s : State) : (s.respond r).err = s.err := rfl
@[simp] theorem State.respond_resultLen (r : Response) (s : State) : (s.respond r).resultLen = s.resultLen := rfl
@[simp] theorem State.respond_palSize (r : Response) (s : State) : (s.respond r).palSize = s.palSize := rfl
@[simp] theorem State.respond_ops (r : Response) (s : State) : (s.respond r).ops = s.ops := rfl
@[simp] theorem State.respond_tmCarrier (r : Response) (s : State) : (s.respond r).tmCarrier = s.tmCarrier := rfl
@[simp] theorem State.respond_tmDuty (r : Response) (s : State) : (s.respond r).tmDuty = s.tmDuty := rfl
@[simp] theorem State.respond_curOp (r : Response) (s : State) : (s.respond r).curOp = s.curOp := rfl
@[simp] theorem State.respond_snap (r : Response) (s : State) : (s.respond r).snap = s.snap := rfl
@[simp] theorem State.respond_buf (r : Response) (s : State) : (s.respond r).buf = s.buf := rfl
@[simp] theorem State.respond_resp (r : Response) (s : State) : (s.respond r).resp = r := rfl
@[simp] theorem State.respond_host (r : Response) (s : State) : (s.respond r).host = s.host := rfl
@[simp] theorem State.respond_turns (r : Response) (s : State) : (s.respond r).turns = s.turns := rfl

/-! ## The host's program -/

@[simp] theorem State.setHost_params (h : List HostOp) (s : State) : (s.setHost h).params = s.params := rfl
@[simp] theorem State.setHost_irqEn (h : List HostOp) (s : State) : (s.setHost h).irqEn = s.irqEn := rfl
@[simp] theorem State.setHost_busy (h : List HostOp) (s : State) : (s.setHost h).busy = s.busy := rfl
@[simp] theorem State.setHost_done (h : List HostOp) (s : State) : (s.setHost h).done = s.done := rfl
@[simp] theorem State.setHost_cmdLost (h : List HostOp) (s : State) : (s.setHost h).cmdLost = s.cmdLost := rfl
@[simp] theorem State.setHost_err (h : List HostOp) (s : State) : (s.setHost h).err = s.err := rfl
@[simp] theorem State.setHost_resultLen (h : List HostOp) (s : State) : (s.setHost h).resultLen = s.resultLen := rfl
@[simp] theorem State.setHost_palSize (h : List HostOp) (s : State) : (s.setHost h).palSize = s.palSize := rfl
@[simp] theorem State.setHost_ops (h : List HostOp) (s : State) : (s.setHost h).ops = s.ops := rfl
@[simp] theorem State.setHost_tmCarrier (h : List HostOp) (s : State) : (s.setHost h).tmCarrier = s.tmCarrier := rfl
@[simp] theorem State.setHost_tmDuty (h : List HostOp) (s : State) : (s.setHost h).tmDuty = s.tmDuty := rfl
@[simp] theorem State.setHost_curOp (h : List HostOp) (s : State) : (s.setHost h).curOp = s.curOp := rfl
@[simp] theorem State.setHost_snap (h : List HostOp) (s : State) : (s.setHost h).snap = s.snap := rfl
@[simp] theorem State.setHost_buf (h : List HostOp) (s : State) : (s.setHost h).buf = s.buf := rfl
@[simp] theorem State.setHost_resp (h : List HostOp) (s : State) : (s.setHost h).resp = s.resp := rfl
@[simp] theorem State.setHost_host (h : List HostOp) (s : State) : (s.setHost h).host = h := rfl
@[simp] theorem State.setHost_turns (h : List HostOp) (s : State) : (s.setHost h).turns = s.turns := rfl

/-! ## The schedule -/

@[simp] theorem State.setTurns_params (ts : List Turn) (s : State) : (s.setTurns ts).params = s.params := rfl
@[simp] theorem State.setTurns_irqEn (ts : List Turn) (s : State) : (s.setTurns ts).irqEn = s.irqEn := rfl
@[simp] theorem State.setTurns_busy (ts : List Turn) (s : State) : (s.setTurns ts).busy = s.busy := rfl
@[simp] theorem State.setTurns_done (ts : List Turn) (s : State) : (s.setTurns ts).done = s.done := rfl
@[simp] theorem State.setTurns_cmdLost (ts : List Turn) (s : State) : (s.setTurns ts).cmdLost = s.cmdLost := rfl
@[simp] theorem State.setTurns_err (ts : List Turn) (s : State) : (s.setTurns ts).err = s.err := rfl
@[simp] theorem State.setTurns_resultLen (ts : List Turn) (s : State) : (s.setTurns ts).resultLen = s.resultLen := rfl
@[simp] theorem State.setTurns_palSize (ts : List Turn) (s : State) : (s.setTurns ts).palSize = s.palSize := rfl
@[simp] theorem State.setTurns_ops (ts : List Turn) (s : State) : (s.setTurns ts).ops = s.ops := rfl
@[simp] theorem State.setTurns_tmCarrier (ts : List Turn) (s : State) : (s.setTurns ts).tmCarrier = s.tmCarrier := rfl
@[simp] theorem State.setTurns_tmDuty (ts : List Turn) (s : State) : (s.setTurns ts).tmDuty = s.tmDuty := rfl
@[simp] theorem State.setTurns_curOp (ts : List Turn) (s : State) : (s.setTurns ts).curOp = s.curOp := rfl
@[simp] theorem State.setTurns_snap (ts : List Turn) (s : State) : (s.setTurns ts).snap = s.snap := rfl
@[simp] theorem State.setTurns_buf (ts : List Turn) (s : State) : (s.setTurns ts).buf = s.buf := rfl
@[simp] theorem State.setTurns_resp (ts : List Turn) (s : State) : (s.setTurns ts).resp = s.resp := rfl
@[simp] theorem State.setTurns_host (ts : List Turn) (s : State) : (s.setTurns ts).host = s.host := rfl
@[simp] theorem State.setTurns_turns (ts : List Turn) (s : State) : (s.setTurns ts).turns = ts := rfl

/-! ## `BUF` replaced -/

@[simp] theorem State.setBuf_params (m : Memory) (s : State) : (s.setBuf m).params = s.params := rfl
@[simp] theorem State.setBuf_irqEn (m : Memory) (s : State) : (s.setBuf m).irqEn = s.irqEn := rfl
@[simp] theorem State.setBuf_busy (m : Memory) (s : State) : (s.setBuf m).busy = s.busy := rfl
@[simp] theorem State.setBuf_done (m : Memory) (s : State) : (s.setBuf m).done = s.done := rfl
@[simp] theorem State.setBuf_cmdLost (m : Memory) (s : State) : (s.setBuf m).cmdLost = s.cmdLost := rfl
@[simp] theorem State.setBuf_err (m : Memory) (s : State) : (s.setBuf m).err = s.err := rfl
@[simp] theorem State.setBuf_resultLen (m : Memory) (s : State) : (s.setBuf m).resultLen = s.resultLen := rfl
@[simp] theorem State.setBuf_palSize (m : Memory) (s : State) : (s.setBuf m).palSize = s.palSize := rfl
@[simp] theorem State.setBuf_ops (m : Memory) (s : State) : (s.setBuf m).ops = s.ops := rfl
@[simp] theorem State.setBuf_tmCarrier (m : Memory) (s : State) : (s.setBuf m).tmCarrier = s.tmCarrier := rfl
@[simp] theorem State.setBuf_tmDuty (m : Memory) (s : State) : (s.setBuf m).tmDuty = s.tmDuty := rfl
@[simp] theorem State.setBuf_curOp (m : Memory) (s : State) : (s.setBuf m).curOp = s.curOp := rfl
@[simp] theorem State.setBuf_snap (m : Memory) (s : State) : (s.setBuf m).snap = s.snap := rfl
@[simp] theorem State.setBuf_buf (m : Memory) (s : State) : (s.setBuf m).buf = m := rfl
@[simp] theorem State.setBuf_resp (m : Memory) (s : State) : (s.setBuf m).resp = s.resp := rfl
@[simp] theorem State.setBuf_host (m : Memory) (s : State) : (s.setBuf m).host = s.host := rfl
@[simp] theorem State.setBuf_turns (m : Memory) (s : State) : (s.setBuf m).turns = s.turns := rfl

/-! ## A write to `STATUS` (spec/10_state.md R28) -/

@[simp] theorem State.writeStatus_params (v : Word) (s : State) : (s.writeStatus v).params = s.params := rfl
@[simp] theorem State.writeStatus_irqEn (v : Word) (s : State) : (s.writeStatus v).irqEn = s.irqEn := rfl
@[simp] theorem State.writeStatus_busy (v : Word) (s : State) : (s.writeStatus v).busy = s.busy := rfl
@[simp] theorem State.writeStatus_done (v : Word) (s : State) : (s.writeStatus v).done = (s.done && !(v.getLsbD 1)) := rfl
@[simp] theorem State.writeStatus_cmdLost (v : Word) (s : State) : (s.writeStatus v).cmdLost = (s.cmdLost && !(v.getLsbD 3)) := rfl
@[simp] theorem State.writeStatus_err (v : Word) (s : State) : (s.writeStatus v).err = s.err := rfl
@[simp] theorem State.writeStatus_resultLen (v : Word) (s : State) : (s.writeStatus v).resultLen = s.resultLen := rfl
@[simp] theorem State.writeStatus_palSize (v : Word) (s : State) : (s.writeStatus v).palSize = s.palSize := rfl
@[simp] theorem State.writeStatus_ops (v : Word) (s : State) : (s.writeStatus v).ops = s.ops := rfl
@[simp] theorem State.writeStatus_tmCarrier (v : Word) (s : State) : (s.writeStatus v).tmCarrier = s.tmCarrier := rfl
@[simp] theorem State.writeStatus_tmDuty (v : Word) (s : State) : (s.writeStatus v).tmDuty = s.tmDuty := rfl
@[simp] theorem State.writeStatus_curOp (v : Word) (s : State) : (s.writeStatus v).curOp = s.curOp := rfl
@[simp] theorem State.writeStatus_snap (v : Word) (s : State) : (s.writeStatus v).snap = s.snap := rfl
@[simp] theorem State.writeStatus_buf (v : Word) (s : State) : (s.writeStatus v).buf = s.buf := rfl
@[simp] theorem State.writeStatus_resp (v : Word) (s : State) : (s.writeStatus v).resp = s.resp := rfl
@[simp] theorem State.writeStatus_host (v : Word) (s : State) : (s.writeStatus v).host = s.host := rfl
@[simp] theorem State.writeStatus_turns (v : Word) (s : State) : (s.writeStatus v).turns = s.turns := rfl

/-! ## A write to `CTRL` (spec/10_state.md R26) -/

@[simp] theorem State.writeCtrl_params (v : Word) (s : State) : (s.writeCtrl v).params = s.params := rfl
@[simp] theorem State.writeCtrl_irqEn (v : Word) (s : State) : (s.writeCtrl v).irqEn = v.getLsbD 0 := rfl
@[simp] theorem State.writeCtrl_busy (v : Word) (s : State) : (s.writeCtrl v).busy = s.busy := rfl
@[simp] theorem State.writeCtrl_done (v : Word) (s : State) : (s.writeCtrl v).done = s.done := rfl
@[simp] theorem State.writeCtrl_cmdLost (v : Word) (s : State) : (s.writeCtrl v).cmdLost = s.cmdLost := rfl
@[simp] theorem State.writeCtrl_err (v : Word) (s : State) : (s.writeCtrl v).err = s.err := rfl
@[simp] theorem State.writeCtrl_resultLen (v : Word) (s : State) : (s.writeCtrl v).resultLen = s.resultLen := rfl
@[simp] theorem State.writeCtrl_palSize (v : Word) (s : State) : (s.writeCtrl v).palSize = s.palSize := rfl
@[simp] theorem State.writeCtrl_ops (v : Word) (s : State) : (s.writeCtrl v).ops = s.ops := rfl
@[simp] theorem State.writeCtrl_tmCarrier (v : Word) (s : State) : (s.writeCtrl v).tmCarrier = s.tmCarrier := rfl
@[simp] theorem State.writeCtrl_tmDuty (v : Word) (s : State) : (s.writeCtrl v).tmDuty = s.tmDuty := rfl
@[simp] theorem State.writeCtrl_curOp (v : Word) (s : State) : (s.writeCtrl v).curOp = s.curOp := rfl
@[simp] theorem State.writeCtrl_snap (v : Word) (s : State) : (s.writeCtrl v).snap = s.snap := rfl
@[simp] theorem State.writeCtrl_buf (v : Word) (s : State) : (s.writeCtrl v).buf = s.buf := rfl
@[simp] theorem State.writeCtrl_resp (v : Word) (s : State) : (s.writeCtrl v).resp = s.resp := rfl
@[simp] theorem State.writeCtrl_host (v : Word) (s : State) : (s.writeCtrl v).host = s.host := rfl
@[simp] theorem State.writeCtrl_turns (v : Word) (s : State) : (s.writeCtrl v).turns = s.turns := rfl

/-! ## The reset port (spec/70_reset_and_hazards.md R230) -/

@[simp] theorem State.resetBlock_params (s : State) : s.resetBlock.params = s.params := rfl
@[simp] theorem State.resetBlock_irqEn (s : State) : s.resetBlock.irqEn = false := rfl
@[simp] theorem State.resetBlock_busy (s : State) : s.resetBlock.busy = false := rfl
@[simp] theorem State.resetBlock_done (s : State) : s.resetBlock.done = false := rfl
@[simp] theorem State.resetBlock_cmdLost (s : State) : s.resetBlock.cmdLost = false := rfl
@[simp] theorem State.resetBlock_err (s : State) : s.resetBlock.err = 0 := rfl
@[simp] theorem State.resetBlock_resultLen (s : State) : s.resetBlock.resultLen = 0 := rfl
@[simp] theorem State.resetBlock_palSize (s : State) : s.resetBlock.palSize = 0 := rfl
@[simp] theorem State.resetBlock_ops (s : State) : s.resetBlock.ops = OperandRegs.zero := rfl
@[simp] theorem State.resetBlock_tmCarrier (s : State) : s.resetBlock.tmCarrier = 0 := rfl
@[simp] theorem State.resetBlock_tmDuty (s : State) : s.resetBlock.tmDuty = 0 := rfl
@[simp] theorem State.resetBlock_curOp (s : State) : s.resetBlock.curOp = 0 := rfl
@[simp] theorem State.resetBlock_snap (s : State) : s.resetBlock.snap = OperandRegs.zero := rfl
@[simp] theorem State.resetBlock_buf (s : State) : s.resetBlock.buf = [] := rfl
@[simp] theorem State.resetBlock_resp (s : State) : s.resetBlock.resp = .none := rfl
@[simp] theorem State.resetBlock_host (s : State) : s.resetBlock.host = s.host := rfl
@[simp] theorem State.resetBlock_turns (s : State) : s.resetBlock.turns = s.turns := rfl

/-! ## A write to `CMD` (spec/10_state.md R29) -/

theorem State.writeCmd_busy (v : Word) (s : State) (h : s.busy = true) :
    s.writeCmd v = { s with cmdLost := true } := by
  simp [State.writeCmd, h]

theorem State.writeCmd_idle (v : Word) (s : State) (h : s.busy = false) :
    s.writeCmd v = s.accept (opField v) := by
  simp [State.writeCmd, h]

end Sys2Proof.Machine
end

