-- ==== Sys2Proof/Laws/Ops.lean ====
section
/-! SUPPORT. What each shared operation can do, said once: the computations' building blocks, the region checks, the
completion, and lists of writes. -/

namespace Sys2Proof.Machine

/-! ## Computations -/

/-- A computation in two parts succeeds where both do. -/
theorem bind_ok_iff {ε α β : Type} (x : Except ε α) (f : α → Except ε β) (r : β) :
    (x >>= f) = .ok r ↔ ∃ a, x = .ok a ∧ f a = .ok r := by
  cases x <;> simp [bind, Except.bind]

/-- A computation in two parts stops where the first does, or the second does after it. -/
theorem bind_error_iff {ε α β : Type} (x : Except ε α) (f : α → Except ε β) (e : ε) :
    (x >>= f) = .error e ↔ x = .error e ∨ ∃ a, x = .ok a ∧ f a = .error e := by
  cases x <;> simp [bind, Except.bind]

@[simp] theorem raiseIf_ok (c : Bool) (k : Cause) (u : Unit) : raiseIf c k = .ok u ↔ c = false := by
  cases c <;> simp [raiseIf]

@[simp] theorem raiseIf_error (c : Bool) (k : Cause) (h : Halt) :
    raiseIf c k = .error h ↔ c = true ∧ h = .raise k := by
  cases c <;> simp [raiseIf, eq_comm]

@[simp] theorem orUnwritten_ok {α : Type} (r : Except Nat α) (x : α) : orUnwritten r = .ok x ↔ r = .ok x := by
  cases r <;> simp [orUnwritten]

@[simp] theorem orUnwritten_error {α : Type} (r : Except Nat α) (h : Halt) :
    orUnwritten r = .error h ↔ ∃ a, r = .error a ∧ h = .unwritten a := by
  cases r <;> simp [orUnwritten, eq_comm]

theorem readBytes_ok (m : Memory) (a n : Nat) (bs : List Byte) :
    readBytes m a n = .ok bs ↔ Memory.bytesAt m a n = .ok bs := orUnwritten_ok _ _

theorem readByte_ok (m : Memory) (a : Nat) (b : Byte) :
    readByte m a = .ok b ↔ Memory.read m a = some b := by
  rw [readByte, orUnwritten_ok, Memory.byteAt_ok]

theorem memRead_ok (m : Memory) (a n v : Nat) :
    memRead m a n = .ok v ↔ ∃ bs, Memory.bytesAt m a n = .ok bs ∧ leNat bs = v := by
  rw [memRead, orUnwritten_ok, Memory.load, bind_ok_iff]
  simp

/-! ## The region checks (spec/60_exceptions.md R204) -/

theorem checkSrcBytes_ok (p : Params) (a n : Nat) (u : Unit) :
    checkSrcBytes p a n = .ok u ↔ a + n ≤ p.bufBytes := by
  simp [checkSrcBytes]

theorem checkSrcSymbols_ok (p : Params) (a n : Nat) (u : Unit) :
    checkSrcSymbols p a n = .ok u ↔ a % 2 = 0 ∧ a + 2 * n ≤ p.bufBytes := by
  simp [checkSrcSymbols, bind_ok_iff]

theorem checkDstBytes_ok (p : Params) (a c : Nat) (u : Unit) :
    checkDstBytes p a c = .ok u ↔ a + c ≤ p.bufBytes := by
  simp [checkDstBytes]

theorem checkDstSymbols_ok (p : Params) (a c : Nat) (u : Unit) :
    checkDstSymbols p a c = .ok u ↔ a % 2 = 0 ∧ a + 2 * c ≤ p.bufBytes := by
  simp [checkDstSymbols, bind_ok_iff]

theorem checkNoOverlap_ok (s0 s1 d0 d1 : Nat) (u : Unit) :
    checkNoOverlap s0 s1 d0 d1 = .ok u ↔ regionsOverlap s0 s1 d0 d1 = false := by
  simp [checkNoOverlap]

/-- Two regions do not overlap where one is empty or one ends before the other starts. -/
theorem regionsOverlap_false (s0 s1 d0 d1 : Nat) :
    regionsOverlap s0 s1 d0 d1 = false ↔ s1 ≤ s0 ∨ d1 ≤ d0 ∨ d1 ≤ s0 ∨ s1 ≤ d0 := by
  simp only [regionsOverlap, Bool.and_eq_false_iff, decide_eq_false_iff_not]
  omega

/-! ## The completion (spec/60_exceptions.md R201, R202, R208) -/

/-- A completion that ends in a next state is that of a result or of an error. -/
theorem complete_next (r : Except Halt Output) (s t : State) :
    complete r s = .next t ↔
      (∃ o, r = .ok o ∧ t = s.finishOk o) ∨ (∃ c, r = .error (.raise c) ∧ t = s.finishError c) := by
  rcases r with (c | a) | o <;> simp [complete, eq_comm]

/-- A completion faults only on an unwritten byte. -/
theorem complete_fault (r : Except Halt Output) (s : State) (f : Fault) :
    complete r s = .fault f ↔ ∃ a, r = .error (.unwritten a) ∧ f = .unwrittenRead a := by
  rcases r with (c | a) | o <;> simp [complete, eq_comm]

/-- A completion never refuses. -/
theorem complete_not_refused (r : Except Halt Output) (s : State) (x : Refusal) :
    complete r s ≠ .refused x := by
  rcases r with (c | a) | o <;> simp [complete]

/-- Every cause has a reported code, and none has code 0 (spec/60_exceptions.md R200). -/
theorem Cause.code_reported (c : Cause) : errReported c.code = true ∧ c.code ≠ 0#4 := by
  cases c <;> simp [Cause.code, errReported]

/-! ## Lists of writes -/

/-- Every byte of a list of writes lies in `lo .. hi - 1`. -/
def writesWithin (lo hi : Nat) (ws : List BufWrite) : Prop :=
  ∀ w ∈ ws, lo ≤ w.offset ∧ w.offset + w.bytes.length ≤ hi

/-- A byte outside the writes' range keeps its value. -/
theorem read_applyWrites_other (lo hi : Nat) (ws : List BufWrite) (m : Memory) (c : Nat)
    (hw : writesWithin lo hi ws) (hc : c < lo ∨ hi ≤ c) :
    Memory.read (applyWrites m ws) c = Memory.read m c := by
  induction ws generalizing m with
  | nil => rfl
  | cons w ws ih =>
    have h := hw w (by simp)
    rw [applyWrites, ih _ (fun x hx => hw x (by simp [hx])), Memory.read_writeBytes_other _ _ _ _ (by omega)]

theorem writesWithin_append (lo hi : Nat) (as bs : List BufWrite) (ha : writesWithin lo hi as)
    (hb : writesWithin lo hi bs) : writesWithin lo hi (as ++ bs) := by
  intro w hw
  rcases List.mem_append.1 hw with h | h
  · exact ha w h
  · exact hb w h

theorem writesWithin_mono (lo hi lo' hi' : Nat) (ws : List BufWrite) (h : writesWithin lo hi ws) (hl : lo' ≤ lo)
    (hh : hi ≤ hi') : writesWithin lo' hi' ws := fun w hw =>
  ⟨hl.trans (h w hw).1, (h w hw).2.trans hh⟩

theorem writesBelow_of_within (lo hi n : Nat) (ws : List BufWrite) (h : writesWithin lo hi ws) (hn : hi ≤ n) :
    writesBelow n ws := fun w hw => (h w hw).2.trans hn

/-- The bytes of a list of writes one after the other. -/
def writtenBytes (ws : List BufWrite) : List Byte := ws.flatMap BufWrite.bytes

/-- The writes start at `a` and each goes on where the one before it ends. -/
def contiguous : Nat → List BufWrite → Prop
  | _, [] => True
  | a, w :: ws => w.offset = a ∧ contiguous (a + w.bytes.length) ws

/-- Contiguous writes are one write of all their bytes. -/
theorem applyWrites_contiguous (ws : List BufWrite) (m : Memory) (a : Nat) (h : contiguous a ws) :
    applyWrites m ws = Memory.writeBytes m a (writtenBytes ws) := by
  induction ws generalizing m a with
  | nil => rfl
  | cons w ws ih =>
    obtain ⟨rfl, h⟩ := h
    rw [applyWrites, ih _ _ h]
    exact (Memory.writeBytes_append w.bytes (writtenBytes ws) m w.offset).symm

theorem contiguous_append (as bs : List BufWrite) (a : Nat) :
    contiguous a (as ++ bs) ↔ contiguous a as ∧ contiguous (a + (writtenBytes as).length) bs := by
  induction as generalizing a with
  | nil => simp [contiguous, writtenBytes]
  | cons w as ih =>
    simp only [List.cons_append, contiguous, ih, writtenBytes, List.flatMap_cons, List.length_append]
    rw [and_assoc, Nat.add_assoc]

theorem contiguous_within (ws : List BufWrite) (a : Nat) (h : contiguous a ws) :
    writesWithin a (a + (writtenBytes ws).length) ws := by
  induction ws generalizing a with
  | nil => intro w hw; simp at hw
  | cons x ws ih =>
    obtain ⟨rfl, h⟩ := h
    have := ih _ h
    intro w hw
    simp only [writtenBytes, List.flatMap_cons, List.length_append] at *
    rcases List.mem_cons.1 hw with rfl | hw
    · exact ⟨le_rfl, by omega⟩
    · have := this w hw
      exact ⟨by omega, by omega⟩

@[simp] theorem bufWrite_offset (a n v : Nat) : (bufWrite a n v).offset = a := rfl

@[simp] theorem bufWrite_bytes (a n v : Nat) : (bufWrite a n v).bytes = leBytes n v := rfl

end Sys2Proof.Machine
end

