-- ==== Sys2Proof/Laws/Trains.lean ====
section
/-! SUPPORT. Symbols, trains and the lengths of what the commands write. -/

namespace Sys2Proof.Machine

/-! ## Symbol words (spec/30_encoding.md R84, R85) -/

/-- A symbol word as a number: 0x8000 for a Mark, plus the duration. -/
theorem Symbol.word_toNat (x : Symbol) :
    x.word.toNat = (match x.level with | .mark => 32768 | .space => 0) + x.dur.toNat := by
  obtain ⟨l, d⟩ := x
  have hd : d.toNat < 32768 := d.isLt
  have e : (d.setWidth 16).toNat = d.toNat := by simp; omega
  cases l
  · simp only [Symbol.word, Level.bits, BitVec.toNat_or, e]
    have := Nat.two_pow_add_eq_or_of_lt (i := 15) hd 1
    simpa using this.symm
  · simp only [Symbol.word, Level.bits, BitVec.toNat_or, e]
    simp

theorem durOf_toNat (w : Half) : (durOf w).toNat = w.toNat % 32768 := by
  simp [durOf]

theorem levelOf_toNat (w : Half) : levelOf w = if w.toNat < 32768 then .space else .mark := by
  have hw : w.toNat < 65536 := w.isLt
  have e : w.getLsbD 15 = decide (¬ w.toNat < 32768) := by
    rw [BitVec.getLsbD, Nat.testBit_eq_decide_div_mod_eq]
    by_cases h : w.toNat < 32768
    · simp [h, Nat.div_eq_of_lt h]
    · have : w.toNat / 32768 = 1 := by omega
      simp [h, this]
  unfold levelOf
  rw [e]
  by_cases h : w.toNat < 32768 <;> simp [h]

/-- Every symbol is read back from its word. -/
@[simp] theorem symbolOf_word (x : Symbol) : symbolOf x.word = x := by
  have hx : x.dur.toNat < 32768 := x.dur.isLt
  have hd : durOf x.word = x.dur := by
    apply BitVec.eq_of_toNat_eq
    rw [durOf_toNat, Symbol.word_toNat]
    cases x.level <;> simp only <;> omega
  have hl : levelOf x.word = x.level := by
    rw [levelOf_toNat, Symbol.word_toNat]
    cases x.level <;> simp [hx]
  rw [symbolOf, hd, hl]

theorem durOf_word (x : Symbol) : durOf x.word = x.dur := congrArg Symbol.dur (symbolOf_word x)

theorem levelOf_word (x : Symbol) : levelOf x.word = x.level := congrArg Symbol.level (symbolOf_word x)

/-! ## The writes of a train (spec/20_memory.md R62) -/

theorem trainWrites_contiguous (t : List Symbol) (a : Nat) : contiguous a (trainWrites a t) := by
  induction t generalizing a with
  | nil => trivial
  | cons x t ih => exact ⟨rfl, by simpa using ih (a + 2)⟩

theorem trainWrites_bytes (t : List Symbol) (a : Nat) :
    writtenBytes (trainWrites a t) = t.flatMap (fun x => leBytes 2 x.word.toNat) := by
  induction t generalizing a with
  | nil => rfl
  | cons x t ih =>
    rw [trainWrites, writtenBytes, List.flatMap_cons, List.flatMap_cons, ← ih (a + 2)]
    rfl

theorem trainWrites_length (t : List Symbol) (a : Nat) : (writtenBytes (trainWrites a t)).length = 2 * t.length := by
  induction t generalizing a with
  | nil => rfl
  | cons x t ih =>
    have := ih (a + 2)
    simp only [trainWrites, writtenBytes, List.flatMap_cons, List.length_append, bufWrite_bytes, leBytes_length,
      List.length_cons] at *
    omega

theorem trainWrites_within (t : List Symbol) (a : Nat) : writesWithin a (a + 2 * t.length) (trainWrites a t) := by
  have := contiguous_within _ _ (trainWrites_contiguous t a)
  rwa [trainWrites_length] at this

/-- After the writes of a train, symbol `i` reads back at `a + 2i`. -/
theorem readSymbol_trainWrites (t : List Symbol) (m : Memory) (a i : Nat) (h : i < t.length) :
    readSymbol (applyWrites m (trainWrites a t)) (a + 2 * i) = .ok t[i].word := by
  induction t generalizing m a i with
  | nil => simp at h
  | cons x t ih =>
    rw [trainWrites, applyWrites]
    cases i with
    | succ i =>
      have := ih (Memory.writeBytes m (bufWrite a 2 x.word.toNat).offset (bufWrite a 2 x.word.toNat).bytes) (a + 2) i
        (by simpa using h)
      rw [show a + 2 * (i + 1) = a + 2 + 2 * i by omega, this]
      rfl
    | zero =>
      have hb : Memory.bytesAt (applyWrites (Memory.writeBytes m a (leBytes 2 x.word.toNat)) (trainWrites (a + 2) t)) a 2
          = .ok (leBytes 2 x.word.toNat) := by
        rw [Memory.bytesAt_ok]
        refine ⟨by simp, fun k hk => ?_⟩
        rw [read_applyWrites_other _ _ _ _ _ (trainWrites_within t (a + 2)) (.inl (by simp at hk; omega))]
        exact Memory.read_writeBytes_same _ _ _ _ hk
      have hm : memRead (applyWrites (Memory.writeBytes m a (leBytes 2 x.word.toNat)) (trainWrites (a + 2) t)) a 2
          = .ok x.word.toNat := by
        rw [memRead_ok]
        refine ⟨_, hb, ?_⟩
        rw [leNat_leBytes]
        exact Nat.mod_eq_of_lt x.word.isLt
      simp only [Nat.mul_zero, Nat.add_zero, bufWrite_offset, bufWrite_bytes, readSymbol, hm, bind, Except.bind]
      simp

/-! ## Lengths of trains (spec/40_encode_universal.md R105, spec/41_encode_nec.md R124) -/

@[simp] theorem pairSyms_length (p : Pair) : (pairSyms p).length = 2 := rfl

@[simp] theorem bitSyms_length (p q : Pair) (b : Bool) : (bitSyms p q b).length = 2 := rfl

@[simp] theorem byteBits_length (l : Bool) (b : Byte) : (byteBits l b).length = 8 := by simp [byteBits]

theorem byteSyms_length (p q : Pair) (bits : List Bool) :
    (bits.flatMap (bitSyms p q)).length = 2 * bits.length := by
  induction bits with
  | nil => rfl
  | cons b bits ih =>
    rw [List.flatMap_cons, List.length_append, ih, bitSyms_length, List.length_cons]
    omega

@[simp] theorem payloadSyms_length (l : Bool) (p q : Pair) (bs : List Byte) :
    (payloadSyms l p q bs).length = 16 * bs.length := by
  induction bs with
  | nil => rfl
  | cons b bs ih =>
    rw [payloadSyms, List.flatMap_cons, List.length_append, byteSyms_length, byteBits_length, List.length_cons]
    change 2 * 8 + (payloadSyms l p q bs).length = _
    omega

@[simp] theorem headerSyms_length (o : OperandRegs) : (headerSyms o).length = headerLen o := by
  unfold headerSyms headerLen
  split <;> rfl

theorem frameSyms_length (o : OperandRegs) (bs : List Byte) (last : Bool) :
    (frameSyms o bs last).length = headerLen o + 16 * bs.length + 2 := by
  simp [frameSyms, footerSyms, Nat.add_assoc]

theorem univTrain_length (o : OperandRegs) (bs : List Byte) :
    (univTrain o bs).length = (headerLen o + 16 * bs.length + 2) * (o.repeats + 1) := by
  have : ∀ (n : Nat) (f : Nat → Bool), ((List.range n).flatMap (fun r => frameSyms o bs (f r))).length
      = (headerLen o + 16 * bs.length + 2) * n := by
    intro n f
    simp [List.length_flatMap, frameSyms_length, Nat.mul_comm]
  exact this _ _

theorem necTrain_length (p : Params) (o : OperandRegs) : (necTrain p o).length = necLen := by
  simp [necTrain, necPayload, necLen]

theorem decodeSyms_length (m : Memory) (base : Nat) (pal : List Dur) (n i : Nat) (t : List Symbol)
    (h : decodeSyms m base pal n i = .ok t) : t.length = n := by
  induction n generalizing i t with
  | zero => simp [decodeSyms] at h; simp [← h]
  | succ n ih =>
    simp only [decodeSyms, bind_ok_iff] at h
    obtain ⟨b, -, rest, hr, h⟩ := h
    injection h with h
    simp [← h, ih _ _ hr]

/-! ## The writes of a Persisted Signal (spec/30_encoding.md R86, R87) -/

theorem paletteWrites_contiguous (pal : List Dur) (a : Nat) : contiguous a (paletteWrites a pal) := by
  induction pal generalizing a with
  | nil => trivial
  | cons d pal ih => exact ⟨rfl, by simpa using ih (a + 2)⟩

theorem paletteWrites_length (pal : List Dur) (a : Nat) :
    (writtenBytes (paletteWrites a pal)).length = 2 * pal.length := by
  induction pal generalizing a with
  | nil => rfl
  | cons d pal ih =>
    have := ih (a + 2)
    simp only [paletteWrites, writtenBytes, List.flatMap_cons, List.length_append, bufWrite_bytes, leBytes_length,
      List.length_cons] at *
    omega

theorem byteWrites_contiguous (bs : List Byte) (a : Nat) : contiguous a (byteWrites a bs) := by
  induction bs generalizing a with
  | nil => trivial
  | cons b bs ih => exact ⟨rfl, by simpa using ih (a + 1)⟩

theorem byteWrites_bytes (bs : List Byte) (a : Nat) : writtenBytes (byteWrites a bs) = bs := by
  induction bs generalizing a with
  | nil => rfl
  | cons b bs ih =>
    have := ih (a + 1)
    simp only [byteWrites, writtenBytes, List.flatMap_cons, bufWrite_bytes] at *
    rw [this]
    simp [leBytes]

theorem packIndices_length (idx : List (BitVec 4)) : (packIndices idx).length = ceilHalf idx.length := by
  induction idx using packIndices.induct with
  | case1 => rfl
  | case2 h => simp [packIndices, ceilHalf]
  | case3 h l rest ih =>
    simp only [packIndices, List.length_cons, ih, ceilHalf]
    omega

theorem signalWrites_contiguous (p : Params) (a count : Nat) (pal : List Dur) (idx : List (BitVec 4)) :
    contiguous a (signalWrites p a count pal idx) := by
  rw [signalWrites, contiguous_append, contiguous_append]
  refine ⟨⟨?_, ?_⟩, ?_⟩
  · simp [contiguous]
  · have e : a + (writtenBytes [bufWrite a 1 p.magic.toNat, bufWrite (a + 1) 4 count,
        bufWrite (a + 5) 1 pal.length]).length = a + 6 := by simp [writtenBytes]
    rw [e]
    exact paletteWrites_contiguous _ _
  · have e : a + (writtenBytes ([bufWrite a 1 p.magic.toNat, bufWrite (a + 1) 4 count,
        bufWrite (a + 5) 1 pal.length] ++ paletteWrites (a + 6) pal)).length = a + 6 + 2 * pal.length := by
      have := paletteWrites_length pal (a + 6)
      simp only [writtenBytes, List.flatMap_append, List.length_append, List.flatMap_cons, List.flatMap_nil,
        bufWrite_bytes, leBytes_length, List.length_nil] at *
      omega
    rw [e]
    exact byteWrites_contiguous _ _

theorem signalWrites_length (p : Params) (a count : Nat) (pal : List Dur) (idx : List (BitVec 4)) :
    (writtenBytes (signalWrites p a count pal idx)).length = signalLen idx.length pal.length := by
  have h1 := paletteWrites_length pal (a + 6)
  have h2 := byteWrites_bytes (packIndices idx) (a + 6 + 2 * pal.length)
  have h3 := packIndices_length idx
  simp only [signalWrites, signalLen, writtenBytes, List.flatMap_append, List.length_append, List.flatMap_cons,
    List.flatMap_nil, bufWrite_bytes, leBytes_length, List.length_nil] at *
  rw [h2]
  omega

/-! ## The palette (spec/42_compress.md R142, R143) -/

/-- What placing a duration can do: an entry within the tolerance is reused, or the duration becomes the last entry. -/
theorem placeDur_some (tol : Nat) (d : Dur) (pal pal' : List Dur) (j : Nat)
    (h : placeDur tol d pal = some (j, pal')) :
    (findBucket tol d pal = some j ∧ pal' = pal) ∨
      (findBucket tol d pal = none ∧ pal.length < paletteMax ∧ j = pal.length ∧ pal' = pal ++ [d]) := by
  unfold placeDur at h
  split at h
  · rename_i k hk
    simp only [Option.some.injEq, Prod.mk.injEq] at h
    exact .inl ⟨by rw [hk, h.1], h.2.symm⟩
  · rename_i hk
    split at h
    · rename_i hl
      simp only [Option.some.injEq, Prod.mk.injEq] at h
      exact .inr ⟨hk, hl, h.1.symm, h.2.symm⟩
    · cases h

theorem placeDur_length (tol : Nat) (d : Dur) (pal pal' : List Dur) (j : Nat)
    (h : placeDur tol d pal = some (j, pal')) (hl : pal.length ≤ paletteMax) : pal'.length ≤ paletteMax := by
  rcases placeDur_some _ _ _ _ _ h with ⟨-, rfl⟩ | ⟨-, hlt, -, rfl⟩
  · exact hl
  · simp only [List.length_append, List.length_cons, List.length_nil]
    omega

/-- The scan gives one index per symbol and a palette of at most 16 entries. -/
theorem scanTrain_ok (m : Memory) (tol n a i : Nat) (pal : List Dur) (r : List Dur × List (BitVec 4))
    (h : scanTrain m tol n a i pal = .ok r) (hl : pal.length ≤ paletteMax) :
    r.2.length = n ∧ r.1.length ≤ paletteMax := by
  induction n generalizing a i pal r with
  | zero =>
    simp only [scanTrain, Except.ok.injEq] at h
    subst h
    exact ⟨rfl, hl⟩
  | succ n ih =>
    simp only [scanTrain, bind_ok_iff] at h
    obtain ⟨w, -, h⟩ := h
    split at h
    · cases h
    · rename_i j pal' hp
      rw [bind_ok_iff] at h
      obtain ⟨r', hr', h⟩ := h
      injection h with h
      subst h
      have := ih _ _ _ _ hr' (placeDur_length _ _ _ _ _ hp hl)
      exact ⟨by simp [this.1], this.2⟩

end Sys2Proof.Machine
end

