-- ==== Sys2Proof/Laws/Buckets.lean ====
section
/-! SUPPORT. The scan of `COMPRESS` against the buckets a train needs (spec/42_compress.md R142, R143). -/

namespace Sys2Proof.Machine

theorem findBucket_eq_none (tol : Nat) (d : Dur) (pal : List Dur) :
    findBucket tol d pal = none ↔ pal.any (fun e => decide (durDist d e ≤ tol)) = false := by
  simp [findBucket]

theorem openBucket_length (tol : Nat) (pal : List Dur) (d : Dur) : pal.length ≤ (openBucket tol pal d).length := by
  unfold openBucket
  split <;> simp

/-- More durations never need fewer buckets. -/
theorem foldl_openBucket_length (tol : Nat) (ds pal : List Dur) :
    pal.length ≤ (ds.foldl (openBucket tol) pal).length := by
  induction ds generalizing pal with
  | nil => exact le_refl _
  | cons d ds ih => exact (openBucket_length tol pal d).trans (ih _)

@[simp] theorem buckets_nil (tol : Nat) : buckets tol [] = [] := rfl

theorem buckets_append (tol : Nat) (ds es : List Dur) :
    buckets tol (ds ++ es) = es.foldl (openBucket tol) (buckets tol ds) := by
  simp [buckets]

/-- Placing a duration opens a bucket exactly where the unlimited palette does. -/
theorem placeDur_openBucket (tol : Nat) (d : Dur) (pal pal' : List Dur) (j : Nat)
    (h : placeDur tol d pal = some (j, pal')) : pal' = openBucket tol pal d := by
  rcases placeDur_some _ _ _ _ _ h with ⟨hf, rfl⟩ | ⟨hf, -, -, rfl⟩
  · have : pal'.any (fun e => decide (durDist d e ≤ tol)) = true := by
      by_contra hc
      rw [Bool.not_eq_true, ← findBucket_eq_none, hf] at hc
      cases hc
    simp only [openBucket, this, if_true]
  · simp [openBucket, (findBucket_eq_none _ _ _).1 hf]

/-- A duration has no place exactly where it would open a 17th bucket. -/
theorem placeDur_eq_none (tol : Nat) (d : Dur) (pal : List Dur) :
    placeDur tol d pal = none ↔ paletteMax ≤ pal.length ∧ openBucket tol pal d = pal ++ [d] := by
  unfold placeDur openBucket
  cases hf : findBucket tol d pal with
  | some j =>
    have : pal.any (fun e => decide (durDist d e ≤ tol)) = true := by
      by_contra hc
      rw [Bool.not_eq_true, ← findBucket_eq_none, hf] at hc
      cases hc
    simp only [this, if_true, List.self_eq_append_right, List.cons_ne_self, and_false, reduceCtorEq]
  | none => simp [(findBucket_eq_none _ _ _).1 hf]

/-- A symbol word read is the one that stands there. -/
theorem readSymbol_ok (m : Memory) (a i : Nat) (w : Half) (h : readSymbol m (a + 2 * i) = .ok w) :
    symbolWordAt m a i = w := by
  rw [readSymbol, bind_ok_iff] at h
  obtain ⟨v, hv, h⟩ := h
  injection h with h
  unfold symbolWordAt
  cases hl : Memory.load m (a + 2 * i) 2 with
  | ok x => simp only [memRead, orUnwritten, hl, Except.ok.injEq] at hv; simp only [hv, h]
  | error e => simp [memRead, orUnwritten, hl] at hv

theorem dursAt_succ (m : Memory) (a n : Nat) : dursAt m a (n + 1) = durAt m a 0 :: dursAt m (a + 2) n := by
  simp only [dursAt, List.range_succ_eq_map, List.map_cons, List.map_map, List.cons.injEq, true_and]
  apply List.map_congr_left
  intro k _
  simp only [Function.comp_apply, durAt, symbolWordAt, Nat.succ_eq_add_one]
  congr 2
  ring_nf

/-- The palette of a scan that ends is that of the buckets its symbols need. -/
theorem scanTrain_palette (m : Memory) (tol n a i : Nat) (pal : List Dur) (r : List Dur × List (BitVec 4))
    (h : scanTrain m tol n a i pal = .ok r) : r.1 = (dursAt m a n).foldl (openBucket tol) pal := by
  induction n generalizing a i pal r with
  | zero =>
    simp only [scanTrain, Except.ok.injEq] at h
    subst h
    rfl
  | succ n ih =>
    simp only [scanTrain, bind_ok_iff] at h
    obtain ⟨w, hw, h⟩ := h
    split at h
    · cases h
    · rename_i j pal' hp
      rw [bind_ok_iff] at h
      obtain ⟨r', hr', h⟩ := h
      injection h with h
      subst h
      have hd : durAt m a 0 = durOf w := by rw [durAt, readSymbol_ok m a 0 w (by simpa using hw)]
      rw [dursAt_succ, List.foldl_cons, hd, ← placeDur_openBucket _ _ _ _ _ hp]
      exact ih _ _ _ r' hr'

end Sys2Proof.Machine
end

