-- ==== Sys2Proof/Laws/Bus.lean ====
section
/-! SUPPORT. What one bus transaction and one step can do, said once. -/

namespace Sys2Proof.Machine

/-! ## The register map (spec/10_state.md R23) -/

/-- Every register stands at its own offset. -/
@[simp] theorem regAt_offset (r : Reg) : regAt r.offset = some r := by
  cases r <;> rfl

theorem regAt_some (off : Nat) (r : Reg) (h : regAt off = some r) : r.offset = off := by
  have := List.find?_some h
  simpa using this

@[simp] theorem readOffset_offset (r : Reg) (s : State) : readOffset r.offset s = readReg r s := by
  simp [readOffset]

@[simp] theorem writeOffset_offset (r : Reg) (v : Word) (s : State) : writeOffset r.offset v s = writeReg r v s := by
  simp [writeOffset]

/-! ## Transactions (spec/20_memory.md R64, R65) -/

/-- A 4-byte read at a register's offset returns what the register reads. -/
theorem transact_readReg (r : Reg) (s : State) :
    transact ⟨r.offset, .four, .read⟩ s = .next (s.respond (.readData (readReg r s))) := by
  have h1 : r.offset < regRegionEnd := by cases r <;> decide
  have h2 : regReachable ⟨r.offset, .four, .read⟩ = true := by cases r <;> decide
  simp only [transact, h1, h2, if_true, regAccess, readOffset_offset]

/-- A 4-byte write at a register's offset writes the register. -/
theorem transact_writeReg (r : Reg) (v : Word) (s : State) :
    transact ⟨r.offset, .four, .write v⟩ s = .next ((writeReg r v s).respond .writeDone) := by
  have h1 : r.offset < regRegionEnd := by cases r <;> decide
  have h2 : regReachable ⟨r.offset, .four, .write v⟩ = true := by
    cases r <;> simp [regReachable, Width.bytes, Reg.offset]
  simp only [transact, h1, h2, if_true, regAccess, writeOffset_offset]

/-- A transaction that ends in a next state is a register access, a `BUF` read or a `BUF` write of an idle block. -/
theorem transact_next (t : Txn) (s u : State) (h : transact t s = .next u) :
    (t.offset < regRegionEnd ∧ regReachable t = true ∧ u = regAccess t s) ∨
    (bufBase ≤ t.offset ∧ bufReachable s.params (t.offset - bufBase) t.width.bytes = true ∧ s.busy = false ∧
      ((t.access = .read ∧ ∃ v, Memory.load s.buf (t.offset - bufBase) t.width.bytes = .ok v ∧
          u = s.respond (.readData (BitVec.ofNat 32 v))) ∨
        ∃ v, t.access = .write v ∧ u = bufStore (t.offset - bufBase) t.width.bytes v s)) := by
  unfold transact at h
  split at h
  · rename_i h1
    split at h
    · rename_i h2
      injection h with h
      exact .inl ⟨h1, h2, h.symm⟩
    · cases h
  · split at h
    · cases h
    · rename_i h1
      split at h
      · unfold bufAccess at h
        split at h
        · cases h
        · rename_i h3
          split at h
          · rename_i h2
            refine .inr ⟨by omega, h2, by simpa using h3, ?_⟩
            split at h
            · rename_i h4
              unfold bufRead at h
              split at h
              · rename_i v hv
                injection h with h
                exact .inl ⟨h4, v, hv, h.symm⟩
              · cases h
            · rename_i v h4
              injection h with h
              exact .inr ⟨v, h4, h.symm⟩
          · cases h
      · cases h

/-- A transaction is never refused. -/
theorem transact_not_refused (t : Txn) (s : State) (x : Refusal) : transact t s ≠ .refused x := by
  unfold transact bufAccess bufRead busError
  split_ifs
  · simp
  · simp
  · simp
  · simp
  · cases t.access with
    | read => simp only; split <;> simp
    | write v => simp
  · simp
  · simp

/-- In an idle block a transaction on `n` aligned bytes inside `BUF` reads or writes them (spec/20_memory.md R65). -/
theorem transact_idle_buf (a : Nat) (w : Width) (acc : Access) (s : State) (hb : s.busy = false)
    (h1 : a % w.bytes = 0) (h2 : a + w.bytes ≤ s.params.bufBytes) :
    transact ⟨bufBase + a, w, acc⟩ s = match acc with
      | .read => bufRead a w.bytes s
      | .write v => .next (bufStore a w.bytes v s) := by
  have hw : 0 < w.bytes := by cases w <;> decide
  have h3 : ¬ bufBase + a < regRegionEnd := by simp only [regRegionEnd, bufBase]; omega
  have h4 : ¬ bufBase + a < bufBase := by omega
  have h5 : bufBase + a < bufRegionEnd s.params := by simp only [bufRegionEnd]; omega
  have h6 : bufReachable s.params a w.bytes = true := by simp [bufReachable, h1, h2]
  simp only [transact, h3, h4, h5, if_false, if_true, bufAccess, hb, Nat.add_sub_cancel_left, h6]
  cases acc <;> rfl

/-! ## One step (spec/20_memory.md R70) -/

/-- Who moves: the reset port, the engine or the host, in the state with that turn taken off the schedule. -/
theorem step_cases (s : State) :
    (∃ ts, s.turns = .rst :: ts ∧ step s = .next (s.setTurns ts).resetBlock) ∨
    (∃ ts, s.turns = .engine :: ts ∧ step s = engineTurn (s.setTurns ts)) ∨
    (∃ ts, s.turns = .host :: ts ∧ step s = hostTurn (s.setTurns ts)) ∨
    (s.turns = [] ∧ s.busy = true ∧ step s = completionStep s) ∨
    (s.turns = [] ∧ s.busy = false ∧ step s = hostTurn s) := by
  unfold step
  split
  · rename_i ts h
    exact .inl ⟨ts, h, rfl⟩
  · rename_i ts h
    exact .inr (.inl ⟨ts, h, rfl⟩)
  · rename_i ts h
    exact .inr (.inr (.inl ⟨ts, h, rfl⟩))
  · rename_i h
    cases hb : s.busy
    · exact .inr (.inr (.inr (.inr ⟨h, rfl, by simp⟩)))
    · exact .inr (.inr (.inr (.inl ⟨h, rfl, by simp⟩)))

/-- The host's turn is nothing, a transaction of its program, or one pass of `WAIT`. -/
theorem hostTurn_cases (s : State) :
    (s.host = [] ∧ hostTurn s = .next s) ∨
    (∃ t rest, s.host = .access t :: rest ∧ hostTurn s = transact t (s.setHost rest)) ∨
    (∃ rest, s.host = .wait :: rest ∧ hostTurn s
      = transact statusRead (if waitOver (readOffset statusRead.offset s) then s.setHost rest else s)) := by
  unfold hostTurn
  split
  · rename_i h
    exact .inl ⟨h, rfl⟩
  · rename_i t rest h
    exact .inr (.inl ⟨t, rest, h, rfl⟩)
  · rename_i rest h
    exact .inr (.inr ⟨rest, h, rfl⟩)

/-- The completion step runs the decoded command, or completes an illegal one (spec/60_exceptions.md R203). -/
theorem completionStep_eq (s : State) :
    completionStep s = match decodeOp s.curOp with
      | .ok i => exec i s
      | .error _ => completeIllegal s := by
  unfold completionStep
  cases decodeOp s.curOp with
  | ok i => rfl
  | error e => cases e; rfl

end Sys2Proof.Machine
end

