-- ==== Sys2Proof/Laws/Commands.lean ====
section
/-! SUPPORT. What each command's computation can do, said once: when it succeeds and with what result, and where its
writes lie.  The frames, completions and invariants are derived from these. -/

namespace Sys2Proof.Machine

/-! ## Success, command by command -/

/-- `ENC_UNIV` succeeds exactly where no check applies and the payload is written (spec/40_encode_universal.md
R100). -/
theorem computeEncUniv_ok (p : Params) (o : OperandRegs) (m : Memory) (r : Output) :
    computeEncUniv p o m = .ok r ↔
      o.tmValid = true ∧ o.len ≠ 0 ∧ o.src + o.len ≤ p.bufBytes ∧ (o.dst % 2 = 0 ∧ o.dst + 2 * o.cap ≤ p.bufBytes) ∧
      regionsOverlap o.src (o.src + o.len) o.dst (o.dst + 2 * o.cap) = false ∧ univLen o ≤ o.cap ∧
      ∃ payload, Memory.bytesAt m o.src o.len = .ok payload ∧
        ({ writes := trainWrites o.dst (univTrain o payload), len := univLen o, pal := 0 } : Output) = r := by
  simp only [computeEncUniv, bind_ok_iff, raiseIf_ok, checkSrcBytes_ok, checkDstSymbols_ok, checkNoOverlap_ok,
    readBytes_ok, exists_const, decide_eq_false_iff_not, Bool.not_eq_false', not_lt, gt_iff_lt, ne_eq,
    Except.ok.injEq]

/-- `ENC_NEC` succeeds exactly where no check applies (spec/41_encode_nec.md R120). -/
theorem computeEncNec_ok (p : Params) (o : OperandRegs) (r : Output) :
    computeEncNec p o = .ok r ↔
      (o.dst % 2 = 0 ∧ o.dst + 2 * o.cap ≤ p.bufBytes) ∧ necLen ≤ o.cap ∧
      ({ writes := trainWrites o.dst (necTrain p o), len := necLen, pal := 0 } : Output) = r := by
  simp only [computeEncNec, bind_ok_iff, raiseIf_ok, checkDstSymbols_ok, exists_const, decide_eq_false_iff_not,
    not_lt, gt_iff_lt, Except.ok.injEq]

/-- `COMPRESS` succeeds exactly where no check applies, the scan ends with a palette and the signal fits
(spec/42_compress.md R140). -/
theorem computeCompress_ok (p : Params) (o : OperandRegs) (m : Memory) (r : Output) :
    computeCompress p o m = .ok r ↔
      (o.src % 2 = 0 ∧ o.src + 2 * o.len ≤ p.bufBytes) ∧ o.dst + o.cap ≤ p.bufBytes ∧
      regionsOverlap o.src (o.src + 2 * o.len) o.dst (o.dst + o.cap) = false ∧
      ∃ q, scanTrain m p.paletteTol o.len o.src 0 [] = .ok q ∧ signalLen o.len q.1.length ≤ o.cap ∧
        ({ writes := signalWrites p o.dst o.len q.1 q.2, len := signalLen o.len q.1.length, pal := q.1.length } : Output)
          = r := by
  simp only [computeCompress, bind_ok_iff, raiseIf_ok, checkSrcSymbols_ok, checkDstBytes_ok, checkNoOverlap_ok,
    exists_const, decide_eq_false_iff_not, not_lt, gt_iff_lt, Except.ok.injEq]

/-- `DECOMPRESS` succeeds exactly where no check applies and every byte it reads is written (spec/43_decompress.md
R160, R161). -/
theorem computeDecompress_ok (p : Params) (o : OperandRegs) (m : Memory) (r : Output) :
    computeDecompress p o m = .ok r ↔
      o.src + o.len ≤ p.bufBytes ∧ (o.dst % 2 = 0 ∧ o.dst + 2 * o.cap ≤ p.bufBytes) ∧
      regionsOverlap o.src (o.src + o.len) o.dst (o.dst + 2 * o.cap) = false ∧ 6 ≤ o.len ∧
      ∃ magic, readByte m o.src = .ok magic ∧ magic = p.magic ∧
      ∃ count, memRead m (o.src + 1) 4 = .ok count ∧
      ∃ n, memRead m (o.src + 5) 1 = .ok n ∧ n ≤ paletteMax ∧ 6 + 2 * n ≤ o.len ∧
      ∃ entries, readPalette m n (o.src + 6) = .ok entries ∧ entries.any badEntry = false ∧
      ¬(0 < count ∧ n = 0) ∧ signalLen count n ≤ o.len ∧ count ≤ o.cap ∧
      ∃ t, decodeSyms m (o.src + 6 + 2 * n) (entries.map durOf) count 0 = .ok t ∧
        ({ writes := trainWrites o.dst t, len := count, pal := n } : Output) = r := by
  simp only [computeDecompress, bind_ok_iff, raiseIf_ok, checkSrcBytes_ok, checkDstSymbols_ok, checkNoOverlap_ok,
    exists_const, decide_eq_false_iff_not, not_lt, gt_iff_lt, ne_eq, not_not, Except.ok.injEq]

/-! ## Where a successful computation writes -/

/-- What holds of every successful computation: its writes lie in the `u * len` bytes from the destination up, they
stay inside `BUF`, the length fits `DST_CAP` and the palette has at most 16 entries. -/
structure OutputFits (p : Params) (o : OperandRegs) (u : Nat) (r : Output) : Prop where
  within : writesWithin o.dst (o.dst + u * r.len) r.writes
  inBuf : o.dst + u * r.len ≤ p.bufBytes
  fitsCap : r.len ≤ o.cap
  palLe : r.pal ≤ paletteMax

theorem computeEncUniv_fits (p : Params) (o : OperandRegs) (m : Memory) (r : Output)
    (h : computeEncUniv p o m = .ok r) : OutputFits p o 2 r := by
  obtain ⟨-, -, -, ⟨-, hd⟩, -, hc, bs, hb, rfl⟩ := (computeEncUniv_ok p o m r).1 h
  have hl : bs.length = o.len := ((Memory.bytesAt_ok _ _ _ _).1 hb).1
  have := trainWrites_within (univTrain o bs) o.dst
  rw [univTrain_length, hl] at this
  exact ⟨this, by simp only; omega, hc, Nat.zero_le _⟩

theorem computeEncNec_fits (p : Params) (o : OperandRegs) (r : Output) (h : computeEncNec p o = .ok r) :
    OutputFits p o 2 r := by
  obtain ⟨⟨-, hd⟩, hc, rfl⟩ := (computeEncNec_ok p o r).1 h
  have := trainWrites_within (necTrain p o) o.dst
  rw [necTrain_length] at this
  exact ⟨this, by simp only; omega, hc, Nat.zero_le _⟩

theorem computeCompress_fits (p : Params) (o : OperandRegs) (m : Memory) (r : Output)
    (h : computeCompress p o m = .ok r) : OutputFits p o 1 r := by
  obtain ⟨-, hd, -, q, hq, hc, rfl⟩ := (computeCompress_ok p o m r).1 h
  obtain ⟨hl, hp⟩ := scanTrain_ok _ _ _ _ _ _ _ hq (Nat.zero_le _)
  have := contiguous_within _ _ (signalWrites_contiguous p o.dst o.len q.1 q.2)
  rw [signalWrites_length, hl] at this
  exact ⟨by simpa using this, by simp only; omega, hc, hp⟩

theorem computeDecompress_fits (p : Params) (o : OperandRegs) (m : Memory) (r : Output)
    (h : computeDecompress p o m = .ok r) : OutputFits p o 2 r := by
  obtain ⟨-, ⟨-, hd⟩, -, -, magic, -, -, count, -, n, -, hn, -, e, -, -, -, -, hc, t, ht, rfl⟩ :=
    (computeDecompress_ok p o m r).1 h
  have := trainWrites_within t o.dst
  rw [decodeSyms_length _ _ _ _ _ _ ht] at this
  exact ⟨this, by simp only; omega, hc, hn⟩

/-! ## The four meanings as one -/

/-- The computation a command's completion step runs (spec/60_exceptions.md R201). -/
def computeOf (i : Instr) (p : Params) (o : OperandRegs) (m : Memory) : Except Halt Output :=
  match i with
  | .encUniv => computeEncUniv p o m
  | .encNec => computeEncNec p o
  | .compress => computeCompress p o m
  | .decompress => computeDecompress p o m

/-- Every meaning is the completion of its computation on the snapshot and `BUF`. -/
theorem exec_eq_complete (i : Instr) (s : State) : exec i s = complete (computeOf i s.params s.snap s.buf) s := by
  cases i <;> rfl

theorem computeOf_fits (i : Instr) (p : Params) (o : OperandRegs) (m : Memory) (r : Output)
    (h : computeOf i p o m = .ok r) : OutputFits p o (outputUnit i) r := by
  cases i
  · exact computeEncUniv_fits p o m r h
  · exact computeEncNec_fits p o r h
  · exact computeCompress_fits p o m r h
  · exact computeDecompress_fits p o m r h

end Sys2Proof.Machine
end

