-- ==== Sys2Proof/Laws/PerInstr.lean ====
section
/-! SUPPORT. The statements made once per command: its number is read back as the command (spec/30_encoding.md R82). -/

namespace Sys2Proof.Laws.Opcode

/-- A command is well formed, its number decodes to it, and its word is its number with every ignored bit 0. -/
def Statement (i : Instr) : Prop :=
  i.wf = true ∧ decodeOp (opcode i) = .ok i ∧ (encode i).toNat = (opcode i).toNat

theorem encUniv : Statement .encUniv := ⟨rfl, rfl, rfl⟩

theorem encNec : Statement .encNec := ⟨rfl, rfl, rfl⟩

theorem compress : Statement .compress := ⟨rfl, rfl, rfl⟩

theorem decompress : Statement .decompress := ⟨rfl, rfl, rfl⟩

end Sys2Proof.Laws.Opcode
end

