-- ==== Sys2Proof/Laws/Words.lean ====
section
/-! SUPPORT. The bits of the register words, one lemma per way a word is put together. -/

namespace Sys2Proof.Machine

theorem boolWord_getLsbD (b : Bool) (k : Nat) : (boolWord b).getLsbD k = (decide (k = 0) && b) := by
  cases b <;> simp [boolWord]

/-- `STATUS` bit by bit (spec/10_state.md R27). -/
theorem statusWord_getLsbD (s : State) (k : Nat) :
    s.statusWord.getLsbD k
      = if k = 0 then s.busy else if k = 1 then s.done else if k = 2 then s.error else if k = 3 then s.cmdLost
        else false := by
  unfold State.statusWord
  simp only [BitVec.getLsbD_or, BitVec.getLsbD_shiftLeft, boolWord_getLsbD]
  rcases k with _ | _ | _ | _ | k <;> simp

/-- A (mark, space) register bit by bit (spec/10_state.md R37). -/
theorem pairWord_getLsbD (p : Pair) (k : Nat) :
    (pairWord p).getLsbD k
      = if k < 15 then p.mark.getLsbD k else if k < 16 then false else p.space.getLsbD (k - 16) := by
  unfold pairWord
  simp only [BitVec.getLsbD_or, BitVec.getLsbD_shiftLeft, BitVec.getLsbD_setWidth]
  by_cases h1 : k < 15
  · simp [h1, show k < 16 by omega, show k < 32 by omega]
  · have e1 : p.mark.getLsbD k = false := BitVec.getLsbD_of_ge _ _ (by omega)
    by_cases h2 : k < 16
    · simp [e1, h1, h2]
    · by_cases h3 : k < 32
      · simp [e1, h1, h2, h3]
        intro _
        omega
      · have e2 : p.space.getLsbD (k - 16) = false := BitVec.getLsbD_of_ge _ _ (by omega)
        simp [e1, e2, h1, h2]

/-- `TM_CTRL` bit by bit (spec/10_state.md R33). -/
theorem tmCtrlWord_getLsbD (o : OperandRegs) (k : Nat) :
    (tmCtrlWord o).getLsbD k = if k = 0 then o.tmValid else if k = 1 then o.tmLsbFirst else false := by
  unfold tmCtrlWord
  simp only [BitVec.getLsbD_or, BitVec.getLsbD_shiftLeft, boolWord_getLsbD]
  rcases k with _ | _ | k <;> simp

/-- `NEC_ARG` bit by bit (spec/10_state.md R47). -/
theorem necArgWord_getLsbD (o : OperandRegs) (k : Nat) :
    (necArgWord o).getLsbD k = if k < 16 then o.necAddress.getLsbD k else o.necCommand.getLsbD (k - 16) := by
  unfold necArgWord
  simp only [BitVec.getLsbD_or, BitVec.getLsbD_shiftLeft, BitVec.getLsbD_setWidth]
  by_cases h1 : k < 16
  · simp [h1, show k < 32 by omega]
  · have e1 : o.necAddress.getLsbD k = false := BitVec.getLsbD_of_ge _ _ (by omega)
    by_cases h3 : k < 32
    · simp [e1, h1, h3]
      intro _
      omega
    · have e2 : o.necCommand.getLsbD (k - 16) = false := BitVec.getLsbD_of_ge _ _ (by omega)
      simp [e1, e2, h1]

/-- The bytes of a word put together again (spec/20_memory.md R61). -/
theorem wordOfBytes_commandBytes (v : Word) :
    wordOfBytes (v.extractLsb' 0 8) (v.extractLsb' 8 8) (v.extractLsb' 16 8) (v.extractLsb' 24 8) = v := by
  unfold wordOfBytes
  apply BitVec.eq_of_getLsbD_eq
  intro i hi
  simp only [BitVec.getLsbD_or, BitVec.getLsbD_shiftLeft, BitVec.getLsbD_setWidth, BitVec.getLsbD_extractLsb']
  interval_cases i <;> simp

/-- The OP field as a number (spec/30_encoding.md R81). -/
theorem opField_toNat (w : Word) : (opField w).toNat = w.toNat % 16 := by
  simp [opField]

/-- The high index of a packed byte (spec/30_encoding.md R88). -/
theorem packPair_high (h l : BitVec 4) : (packPair h l).extractLsb' 4 4 = h := by
  revert h l
  decide

/-- The low index of a packed byte (spec/30_encoding.md R88). -/
theorem packPair_low (h l : BitVec 4) : (packPair h l).extractLsb' 0 4 = l := by
  revert h l
  decide

end Sys2Proof.Machine
end

