-- ==== Sys2Proof/Tests/Slice0.lean ====
section
/-! SUPPORT. Tests of the model, on results taken from spec/95_test_vectors.md and from the rules of spec/, and for
every obligation that has hypotheses a witness: a concrete state and operands that meet all of them together. -/

namespace Sys2Proof.Tests

open Sys2Proof.Machine

set_option Elab.async false

/-! ## Small states -/

/-- A small block: 256 bytes, tolerance 100, `MAGIC` 0x5A, `NEC_STOP_SPACE` 0, `BLOCK_ID` 7. -/
def small : Params := ⟨256, 100, 0x5A, 0, 7⟩

/-- An idle small block. -/
def idle : State := State.resetWith small

/-- A small block running command number `op` with operands `o` on a `BUF` that holds `bytes` from offset 0. -/
def running (op : BitVec 4) (o : OperandRegs) (bytes : List Byte) : State :=
  { idle with curOp := op, ops := o, snap := o, busy := true, buf := Memory.writeBytes [] 0 bytes }

/-- Regions alone: source `a`, `n`, destination `b`, `c`. -/
def regions (a n b c : Word) : OperandRegs :=
  { OperandRegs.zero with srcAddr := a, srcLen := n, dstAddr := b, dstCap := c }

/-- Timing model T of spec/95_test_vectors.md, with its regions. -/
def modelT (n b c : Word) : OperandRegs :=
  { regions 0 n b c with
    tmValid := true
    tmHdr := ⟨4500, 4500⟩
    tmBit1 := ⟨560, 1690⟩
    tmBit0 := ⟨560, 560⟩
    tmFtr := ⟨560, 5000⟩
    tmGap := 20000
    tmRepeat := 1 }

/-- The NEC timing model (vector NV4) with `NEC_ARG` 0x001600FF. -/
def necOps : OperandRegs :=
  { regions 0 4 64 68 with
    tmValid := true
    tmLsbFirst := true
    tmHdr := ⟨9000, 4500⟩
    tmBit1 := ⟨560, 1690⟩
    tmBit0 := ⟨560, 560⟩
    tmFtr := ⟨560, 0⟩
    necAddress := 0x00FF
    necCommand := 0x0016 }

/-- Vector UV1. -/
def univ : State := running 1 (modelT 1 64 40) [0xC1]

/-- Vectors NV1 and NV4. -/
def nec : State := running 2 necOps [0xFF, 0x00, 0x16, 0xE9]

/-- The train of vector CV1, as bytes. -/
def trainBytes : List Byte := [0x28, 0xA3, 0x94, 0x11, 0x30, 0x82, 0x9A, 0x06, 0x30, 0x82, 0x30, 0x02]

/-- Vector CV1. -/
def comp : State := running 3 (regions 0 6 64 18) trainBytes

/-- The signal of vector DV1. -/
def signalBytes : List Byte :=
  [0x5A, 0x06, 0x00, 0x00, 0x00, 0x04, 0x28, 0x23, 0x94, 0x11, 0x30, 0x02, 0x9A, 0x06, 0x01, 0x23, 0x22]

/-- `DECOMPRESS` of given signal bytes with room for `c` symbols. -/
def decOf (bytes : List Byte) (c : Word) : State :=
  running 4 (regions 0 (BitVec.ofNat 32 bytes.length) 128 c) bytes

/-- Vector DV1. -/
def dec : State := decOf signalBytes 6

/-- The state an outcome lands in; `idle` where it is no next state. -/
def landed (r : Host.Outcome State Fault Refusal) : State :=
  match r with
  | .next t => t
  | .fault _ => idle
  | .refused _ => idle

/-- An outcome is a next state. -/
def moves (r : Host.Outcome State Fault Refusal) : Bool :=
  match r with
  | .next _ => true
  | .fault _ => false
  | .refused _ => false

/-- An outcome is this fault. -/
def stops (r : Host.Outcome State Fault Refusal) (f : Fault) : Bool :=
  match r with
  | .next _ => false
  | .fault g => decide (g = f)
  | .refused _ => false

theorem next_of_moves {r : Host.Outcome State Fault Refusal} (h : moves r = true) : r = .next (landed r) := by
  cases r with
  | next t => rfl
  | fault f => simp [moves] at h
  | refused x => simp [moves] at h

theorem fault_of_stops {r : Host.Outcome State Fault Refusal} {f : Fault} (h : stops r f = true) : r = .fault f := by
  cases r with
  | next t => simp [stops] at h
  | fault g => simpa [stops] using h
  | refused x => simp [stops] at h

/-- `n` bytes of `BUF` from offset `a` up; 0 where unwritten. -/
def bytesAt (s : State) (a n : Nat) : List Byte :=
  (List.range n).map (fun k => (Memory.read s.buf (a + k)).getD 0)

/-- `n` symbol words of `BUF` from offset `a` up. -/
def wordsAt (s : State) (a n : Nat) : List Half := (List.range n).map (symbolWordAt s.buf a)

/-! ## Well-formedness -/

/-- spec/00_scope.md R7: `BUF_BYTES` a multiple of 4. -/
theorem test_wf_refuses_unaligned_buf : Params.wf { small with bufBytes := 66 } = false := by decide

/-- spec/00_scope.md R7: `BUF_BYTES` at least 64. -/
theorem test_wf_refuses_small_buf : Params.wf { small with bufBytes := 60 } = false := by decide

/-- spec/00_scope.md R7: `BUF_BYTES` at most 2^24. -/
theorem test_wf_refuses_large_buf : Params.wf { small with bufBytes := 16777220 } = false := by decide

/-- spec/00_scope.md R7: both ends of the range are allowed. -/
theorem test_wf_takes_both_ends :
    Params.wf { small with bufBytes := 64 } = true ∧ Params.wf { small with bufBytes := 16777216 } = true := by decide

/-- A memory with offsets out of order, or one offset twice, is not canonical. -/
theorem test_memory_wf_refuses_disorder :
    Memory.wf [(4, 1), (2, 1)] = false ∧ Memory.wf [(4, 1), (4, 2)] = false := by decide

/-- spec/30_encoding.md R80: a command has no operands, so all four are well formed. -/
theorem test_instr_wf :
    Instr.encUniv.wf = true ∧ Instr.encNec.wf = true ∧ Instr.compress.wf = true ∧ Instr.decompress.wf = true := by decide

/-! ## Decoding: words from the table of spec/30_encoding.md R82, OP in bits [3:0] -/

/-- OP 0x1, bytes 01 00 00 00. -/
theorem test_decode_encUniv : decodeBytes [0b00000001, 0, 0, 0] = some (.ok .encUniv, []) := by decide

/-- OP 0x2. -/
theorem test_decode_encNec : decodeBytes [0b00000010, 0, 0, 0] = some (.ok .encNec, []) := by decide

/-- OP 0x3; the bits above OP are ignored (vector IV4). -/
theorem test_decode_compress : decodeBytes [0b11110011, 0xFF, 0xFF, 0xFF] = some (.ok .compress, []) := by decide

/-- OP 0x4. -/
theorem test_decode_decompress : decodeBytes [0b00000100, 0, 0, 0] = some (.ok .decompress, []) := by decide

/-- OP 0x0 with bit 4 set is illegal (vector IV3); fewer than four bytes are no word. -/
theorem test_decode_illegal :
    decodeBytes [0b00010000, 0, 0, 0] = some (.error (.illegalOp 0), []) ∧ decodeBytes [1, 0, 0] = none := by decide

/-- The words of spec/30_encoding.md R82. -/
theorem test_encode :
    encode .encUniv = 1 ∧ encode .encNec = 2 ∧ encode .compress = 3 ∧ encode .decompress = 4 := by decide

/-- The table's numbering: bit 0 is bit 0 of the command word. -/
theorem test_decode_table_word :
    decodeTableWord 32 0x00000003 = some .compress ∧ decodeTableWord 8 0x04 = some .decompress ∧
      decodeTableWord 32 0x00000005 = none := by decide

/-- spec/30_encoding.md R84: M(9000) is 0xA328 and S(4500) is 0x1194. -/
theorem test_symbol_words : (markSym 9000).word = 0xA328 ∧ (spaceSym 4500).word = 0x1194 := by decide

/-! ## The four commands, at most two tests each -/

/-- Vector UV1. -/
theorem test_encUniv_uv1 :
    (landed (exec .encUniv univ)).resultLen = 40 ∧ (landed (exec .encUniv univ)).err = 0 ∧
    wordsAt (landed (exec .encUniv univ)) 64 40 =
      [0x9194, 0x1194, 0x8230, 0x069A, 0x8230, 0x069A, 0x8230, 0x0230, 0x8230, 0x0230]
        ++ [0x8230, 0x0230, 0x8230, 0x0230, 0x8230, 0x0230, 0x8230, 0x069A, 0x8230, 0x4E20]
        ++ [0x9194, 0x1194, 0x8230, 0x069A, 0x8230, 0x069A, 0x8230, 0x0230, 0x8230, 0x0230]
        ++ [0x8230, 0x0230, 0x8230, 0x0230, 0x8230, 0x0230, 0x8230, 0x069A, 0x8230, 0x1388] := by decide +kernel

/-- Vector UV14: one symbol too little room. -/
theorem test_encUniv_uv14 :
    landed (exec .encUniv (univ.withCap 39)) = (univ.withCap 39).failed 5 := by decide +kernel

/-- Vector NV1: the first two bytes, FF and 00, and the end of the train. -/
theorem test_encNec_nv1 :
    wordsAt (landed (exec .encNec nec)) 64 6 = [0xA328, 0x1194, 0x8230, 0x069A, 0x8230, 0x069A] ∧
    wordsAt (landed (exec .encNec nec)) 96 4 = [0x8230, 0x069A, 0x8230, 0x0230] ∧
    wordsAt (landed (exec .encNec nec)) 196 2 = [0x8230, 0x0000] ∧
    (landed (exec .encNec nec)).resultLen = 68 := by decide +kernel

/-- Vector NV5: room for 67 symbols. -/
theorem test_encNec_nv5 : landed (exec .encNec (nec.withCap 67)) = (nec.withCap 67).failed 5 := by decide +kernel

/-- Vector CV1. -/
theorem test_compress_cv1 :
    bytesAt (landed (exec .compress comp)) 64 17 = signalBytes ∧
    (landed (exec .compress comp)).resultLen = 17 ∧ (landed (exec .compress comp)).palSize = 4 := by decide +kernel

/-- Vector CV3: 600 and 400 are within the tolerance of 500, 601 is not; an odd count's last nibble is 0. -/
theorem test_compress_cv3 :
    bytesAt (landed (exec .compress (running 3 (regions 0 5 64 18)
      [0xF4, 0x81, 0x58, 0x02, 0x59, 0x82, 0xBC, 0x02, 0x90, 0x81]))) 64 13
      = [0x5A, 0x05, 0, 0, 0, 0x02, 0xF4, 0x01, 0x59, 0x02, 0x00, 0x11, 0x00] := by decide +kernel

/-- Vector DV1. -/
theorem test_decompress_dv1 :
    wordsAt (landed (exec .decompress dec)) 128 6 = [0xA328, 0x1194, 0x8230, 0x069A, 0x8230, 0x0230] ∧
    (landed (exec .decompress dec)).resultLen = 6 ∧ (landed (exec .decompress dec)).palSize = 4 := by decide +kernel

/-- Vector DV2: indices 2 and 5 of a palette of 2 decode as entry 0. -/
theorem test_decompress_dv2 :
    wordsAt (landed (exec .decompress
      (decOf [0x5A, 0x03, 0, 0, 0, 0x02, 0xE8, 0x03, 0xD0, 0x07, 0x25, 0x10] 3))) 128 3
      = [0x83E8, 0x03E8, 0x87D0] := by decide +kernel

/-! ## The bus, the flags, the step -/

/-- Vector IV1: CMD = 0 is accepted and completes with code 6; STATUS reads 6 (DONE and ERROR). -/
theorem test_illegal_command_iv1 :
    (landed (step (idle.writeCmd 0))).err = 6 ∧ (landed (step (idle.writeCmd 0))).statusWord = 6 := by decide +kernel

/-- Vector SV2: a second CMD write before the completion is lost; STATUS then reads 0xA. -/
theorem test_lost_command_sv2 :
    (landed (step ((nec.writeCmd 2)))).statusWord = 0xA := by decide +kernel

/-- spec/10_state.md R37, R50: bits 31 and 15 of a pair register read 0. -/
theorem test_pair_register_drops_reserved_bits :
    readReg .tmHdr (writeReg .tmHdr 0xFFFFFFFF idle) = 0x7FFF7FFF ∧
    readReg .tmHdr (writeReg .tmHdr 0x11942328 idle) = 0x11942328 := by decide

/-- spec/20_memory.md R61: byte order of a 4-byte write; R68: an unwritten byte. -/
theorem test_buf_byte_order :
    bytesAt (landed (transact ⟨0x1000, .four, .write 0x11223344⟩ idle)) 0 4 = [0x44, 0x33, 0x22, 0x11] ∧
    stops (transact ⟨0x1000, .two, .read⟩ idle) (.unwrittenRead 0) = true := by decide +kernel

/-- spec/20_memory.md R64: between the register region and `BUF` nothing answers. -/
theorem test_hole_is_bus_error :
    stops (transact ⟨0x100, .four, .read⟩ idle) (.hostBusError 0x100 4) = true ∧
    stops (transact ⟨0xFFC, .four, .read⟩ idle) (.hostBusError 0xFFC 4) = true := by decide +kernel

/-- The command placed by `withFetchWord` runs as the very next step from reset: `DECOMPRESS` with all operands 0 has a
source shorter than 6 bytes, code 3 (spec/43_decompress.md R161). -/
theorem test_fetched_word_runs_from_reset :
    (landed (step (State.reset.withFetchWord 32 4))).err = 3 ∧
    (landed (step (State.reset.withFetchWord 32 4))).done = true := by decide +kernel

/-! ## Witnesses of the obligations about encodings and reset -/

/-- Hypotheses of `DecoderReadsOnlyTheOpField`: equal OP fields of unequal words; each side of each `iff` at the ends of
its range. -/
theorem witness_DecoderReadsOnlyTheOpField :
    (0xFFFFFFF3#32).toNat % 16 = (3#32).toNat % 16 ∧ decode 1#32 = .ok .encUniv ∧ decode 4#32 = .ok .decompress ∧
    decode 0x20#32 = .error (.illegalOp 0) ∧ decode 5#32 = .error (.illegalOp 5) ∧
    decode 0xFF#32 = .error (.illegalOp 15) := by decide

/-- Hypothesis of `EveryWordIsOneSymbol`: the words of the longest Mark and of the empty Space. -/
theorem witness_EveryWordIsOneSymbol : (markSym 32767).word = 0xFFFF ∧ (spaceSym 0).word = 0 := by decide

/-- Hypothesis of `ResetTurnAbandonsTheCommand`: a reset turn while a command runs. -/
theorem witness_ResetTurnAbandonsTheCommand :
    (univ.setTurns [.rst, .host]).turns = .rst :: [.host] ∧ univ.busy = true := by decide

/-- Hypothesis of `InvariantHoldsAtReset`. -/
theorem witness_InvariantHoldsAtReset : small.wf = true ∧ Config.params.wf = true := by decide

/-! ## Witnesses of the obligations about steps -/

/-- Hypotheses of `StepRunsTheAcceptedCommand`, both clauses, on a word with ignored bits set. -/
theorem witness_StepRunsTheAcceptedCommand :
    comp.busy = true ∧ comp.curOp = (0xFFFFFFF3#32).extractLsb' 0 4 ∧ decode 0xFFFFFFF3#32 = .ok .compress ∧
    Instr.compress.wf = true ∧ comp.turns = [] ∧ (comp.setTurns [.engine, .host]).turns = .engine :: [.host] := by
  decide

/-- Hypothesis of `FetchedWordRunsNext`. -/
theorem witness_FetchedWordRunsNext :
    decodeTableWord 32 1 = some .encUniv ∧ decodeTableWord 32 0xFFFFFFF2 = some .encNec := by decide

/-- Hypotheses of `IllegalCommandCompletes` at the ends of the illegal numbers. -/
theorem witness_IllegalCommandCompletes :
    (running 0 OperandRegs.zero []).curOp = 0 ∧ 5 ≤ (running 5 OperandRegs.zero []).curOp.toNat ∧
    5 ≤ (running 15 OperandRegs.zero []).curOp.toNat ∧ (running 5 OperandRegs.zero []).busy = true := by decide

/-- Hypotheses of `IdleBlockDoesNothing`, each clause; the engine's with a host that has still to write. -/
theorem witness_IdleBlockDoesNothing :
    idle.busy = false ∧ idle.host = [] ∧ idle.turns = [] ∧ (idle.setTurns [.host]).turns = .host :: [] ∧
    ((idle.setHost [.access ⟨0x010, .four, .write 1⟩]).setTurns [.engine]).turns = .engine :: [] ∧
    ((idle.setHost [.access ⟨0x010, .four, .write 1⟩]).setTurns [.engine]).busy = false := by decide

/-- An idle block whose host is about to acknowledge and then to wait. -/
def hosted : State := idle.setHost [.access ⟨0x00C, .four, .write 2⟩, .wait]

/-- Hypotheses of `HostTurnTakesOneTransaction`, both clauses. -/
theorem witness_HostTurnTakesOneTransaction :
    hosted.host = .access ⟨0x00C, .four, .write 2⟩ :: [.wait] ∧ (hosted.setTurns [.host]).turns = .host :: [] ∧
    hosted.turns = [] ∧ hosted.busy = false := by decide

/-- Hypothesis of `WaitPassReadsStatus`, with the wait going on and with the wait over. -/
theorem witness_WaitPassReadsStatus :
    (univ.setHost [.wait]).host = .wait :: [] ∧ univ.busy = true ∧
    ((univ.finishError .truncated).setHost [.wait]).host = .wait :: [] ∧ (univ.finishError .truncated).busy = false ∧
    (univ.finishError .truncated).done = true := by decide

/-- Hypotheses of `PseudoInstructionsActAsNamed`: the largest durations; an idle block. -/
theorem witness_PseudoInstructionsActAsNamed :
    (0x7FFF#32).toNat < 2 ^ 15 ∧ (0#32).toNat < 2 ^ 15 ∧ idle.busy = false := by decide

/-! ## Witnesses of the obligations about registers -/

/-- Hypothesis of `RegistersReadBackTheirFields`: fifteen registers are RW, `CMD` and `STATUS` are not. -/
theorem witness_RegistersReadBackTheirFields :
    Reg.necArg.readWrite = true ∧ Reg.ctrl.readWrite = true ∧ (allRegs.filter Reg.readWrite).length = 15 ∧
    Reg.cmd.readWrite = false ∧ Reg.status.readWrite = false := by decide

/-- Hypotheses of `RegisterWritesTouchOneRegister`: another register, and one a `CMD` write leaves. -/
theorem witness_RegisterWritesTouchOneRegister : Reg.ctrl ≠ .cmd ∧ Reg.ctrl ≠ .status ∧ Reg.srcLen ≠ .srcAddr := by
  decide

/-- Hypotheses of `ReadOnlyAndReservedIgnoreWrites` at both ends of the reserved offsets. -/
theorem witness_ReadOnlyAndReservedIgnoreWrites :
    0x058 ≤ 0x058 ∧ 0x0FC ≤ 0x0FC ∧ 0x058 % 4 = 0 ∧ 0x0FC % 4 = 0 ∧ regAt 0x058 = none ∧ regAt 0x054 = some .necArg := by
  decide

/-- Hypotheses of `StatusWriteClearsOnlyDoneAndLost`: a busy block, and a completion after the write. -/
theorem witness_StatusWriteClearsOnlyDoneAndLost :
    nec.busy = true ∧ nec.flagInv = true ∧
    completionStep (landed (transact ⟨0x00C, .four, .write 0xA⟩ nec))
      = .next (landed (completionStep (landed (transact ⟨0x00C, .four, .write 0xA⟩ nec)))) :=
  ⟨by decide, by decide, next_of_moves (by decide +kernel)⟩

/-- Hypotheses of `CommandWriteAcceptsOrIsLost`, both clauses. -/
theorem witness_CommandWriteAcceptsOrIsLost : univ.busy = true ∧ idle.busy = false := by decide

/-- Hypotheses of `InterruptFollowsDoneAndEnable`: a completion with the interrupt enabled, a CMD write when idle. -/
theorem witness_InterruptFollowsDoneAndEnable :
    completionStep { nec with irqEn := true } = .next (landed (completionStep { nec with irqEn := true })) ∧
    (landed (completionStep { nec with irqEn := true })).irq = true ∧ idle.busy = false :=
  ⟨next_of_moves (by decide +kernel), by decide +kernel, by decide⟩

/-! ## Witnesses of the obligations about the bus -/

/-- Both sides of `BusErrorsExactly` where its cases meet: an idle block's last word and the byte after `BUF`. -/
theorem witness_BusErrorsExactly :
    moves (transact ⟨0x10FC, .four, .write 0⟩ idle) = true ∧
    stops (transact ⟨0x10FE, .four, .write 0⟩ idle) (.hostBusError 0x10FE 4) = true ∧
    stops (transact ⟨0x1100, .one, .read⟩ idle) (.hostBusError 0x1100 1) = true ∧
    stops (transact ⟨0x1100, .one, .read⟩ univ) (.hostBusError 0x1100 1) = true := by decide +kernel

/-- Hypotheses of `BufAccessWhileBusyFaults`, both clauses, at both ends of their ranges. -/
theorem witness_BufAccessWhileBusyFaults :
    univ.busy = true ∧ 0x1000 ≤ 0x1000 ∧ 0x10FF < 0x1000 + univ.params.bufBytes ∧ 0x0FC < 0x100 ∧ 0x0FC % 4 = 0 := by
  decide

/-- spec/20_memory.md R65 (its last sentence), R74: a misaligned access and one running past the end while busy. -/
theorem test_misaligned_buf_access_while_busy :
    stops (transact ⟨0x1001, .four, .read⟩ univ) (.busyBufAccess 1) = true ∧
    stops (transact ⟨0x10FF, .two, .write 0⟩ univ) (.busyBufAccess 255) = true := by decide +kernel

/-- Hypotheses of `HostWriteStoresLittleEndian` at the last word and the last byte of `BUF`. -/
theorem witness_HostWriteStoresLittleEndian :
    idle.busy = false ∧ 252 % Width.four.bytes = 0 ∧ 252 + Width.four.bytes ≤ idle.params.bufBytes ∧
    255 % Width.one.bytes = 0 ∧ 255 + Width.one.bytes ≤ idle.params.bufBytes ∧ 2 < Width.four.bytes ∧
    254 % Width.two.bytes = 0 ∧ 254 + Width.two.bytes ≤ idle.params.bufBytes := by decide

/-- The small block, idle, with `trainBytes` in `BUF`. -/
def filled : State := idle.setBuf (Memory.writeBytes [] 0 trainBytes)

/-- Hypotheses of `HostReadReturnsLittleEndian`, both clauses: the last written word, and the first unwritten byte. -/
theorem witness_HostReadReturnsLittleEndian :
    filled.busy = false ∧ 8 % Width.four.bytes = 0 ∧ 8 + Width.four.bytes ≤ filled.params.bufBytes ∧
    Memory.written filled.buf 8 Width.four.bytes = true ∧ 12 % Width.two.bytes = 0 ∧
    12 + Width.two.bytes ≤ filled.params.bufBytes ∧ 0 < Width.two.bytes ∧ Memory.written filled.buf 12 0 = true ∧
    Memory.read filled.buf (12 + 0) = none := by decide +kernel

/-- Hypotheses of `MixedWidthReadsSeeOneWrite` at the last word of `BUF`. -/
theorem witness_MixedWidthReadsSeeOneWrite :
    idle.busy = false ∧ 252 % 4 = 0 ∧ 252 + 4 ≤ idle.params.bufBytes := by decide

/-- Hypothesis of `ReadsHaveNoSideEffect`, for a register and for `BUF`. -/
theorem witness_ReadsHaveNoSideEffect :
    transact ⟨0x00C, .four, .read⟩ filled = .next (landed (transact ⟨0x00C, .four, .read⟩ filled)) ∧
    transact ⟨0x1000, .one, .read⟩ filled = .next (landed (transact ⟨0x1000, .one, .read⟩ filled)) :=
  ⟨next_of_moves (by decide +kernel), next_of_moves (by decide +kernel)⟩

/-! ## Witnesses of the obligations about the encoders -/

/-- Hypotheses of `EncUnivWritesTheTrain`: two frames with a header, room for exactly their 40 symbols. -/
theorem witness_EncUnivWritesTheTrain :
    univ.snap.tmValid = true ∧ 0 < univ.snap.len ∧ univ.regionsOk .encUniv = true ∧
    univ.sourceWritten .encUniv = true ∧ 2 = (if univ.snap.tmHdr.mark = 0 then 0 else 2) ∧
    20 = 2 + 16 * univ.snap.len + 2 ∧ 20 * (univ.snap.repeats + 1) ≤ univ.snap.cap := by decide +kernel

/-- Vector UV3: one frame without a header. -/
def headless : State :=
  running 1 { modelT 1 64 18 with tmHdr := ⟨0, 777⟩, tmRepeat := 0 } [0x80]

/-- Hypotheses of `EncUnivWritesTheTrain` without a header (vector UV3). -/
theorem witness_EncUnivWritesTheTrain_headless :
    headless.snap.tmValid = true ∧ 0 < headless.snap.len ∧ headless.regionsOk .encUniv = true ∧
    headless.sourceWritten .encUniv = true ∧ 0 = (if headless.snap.tmHdr.mark = 0 then 0 else 2) ∧
    18 = 0 + 16 * headless.snap.len + 2 ∧ 18 * (headless.snap.repeats + 1) ≤ headless.snap.cap := by decide +kernel

/-- Hypotheses of `EncUnivFailuresInOrder`: no model, no payload, an odd destination; 39 symbols of room for 40. -/
theorem witness_EncUnivFailuresInOrder :
    comp.snap.tmValid = false ∧ (running 1 (modelT 0 64 40) []).snap.len = 0 ∧
    (running 1 (modelT 1 65 40) [0xC1]).regionsOk .encUniv = false ∧
    (univ.withCap 39).snap.tmValid = true ∧ 0 < (univ.withCap 39).snap.len ∧
    (univ.withCap 39).regionsOk .encUniv = true ∧
    (univ.withCap 39).snap.cap
      < ((if (univ.withCap 39).snap.tmHdr.mark = 0 then 0 else 2) + 16 * (univ.withCap 39).snap.len + 2)
        * ((univ.withCap 39).snap.repeats + 1) := by decide +kernel

/-- Hypotheses of `EncNecWritesTheTrain` and `NecTrainCountsOneBits`: room for exactly 68 symbols. -/
theorem witness_EncNecWritesTheTrain : nec.regionsOk .encNec = true ∧ 68 ≤ nec.snap.cap := by decide +kernel

/-- Hypotheses of `EncNecFailuresInOrder`, both clauses: an odd destination; 67 symbols of room. -/
theorem witness_EncNecFailuresInOrder :
    (running 2 (regions 0 0 65 68) []).regionsOk .encNec = false ∧ (nec.withCap 67).regionsOk .encNec = true ∧
    (nec.withCap 67).snap.cap < 68 := by decide +kernel

/-- Hypotheses of `EncNecReadsOnlyItsOperands`: two states that differ in the model, in `SRC_LEN`, and in the high byte
of the command. -/
theorem witness_EncNecReadsOnlyItsOperands :
    (running 2 { regions 9 9 64 68 with necAddress := 0x00FF, necCommand := 0xAB16 }
      [0xFF, 0x00, 0x16, 0xE9]).params = nec.params ∧
    (regions 9 9 64 68).dstAddr = nec.snap.dstAddr ∧ (regions 9 9 64 68).dstCap = nec.snap.dstCap ∧
    (0x00FF : Half) = nec.snap.necAddress ∧ (0xAB16 : Half).toNat % 256 = nec.snap.necCommand.toNat % 256 ∧
    (running 2 { regions 9 9 64 68 with necAddress := 0x00FF, necCommand := 0xAB16 }
      [0xFF, 0x00, 0x16, 0xE9]).buf = nec.buf := by decide +kernel

/-- Hypotheses of `NecEqualsUniversalEncoder` (vector NV4). -/
theorem witness_NecEqualsUniversalEncoder :
    nec.snap.tmValid = true ∧ nec.snap.tmLsbFirst = true ∧ nec.snap.tmHdr = ⟨9000, 4500⟩ ∧
    nec.snap.tmBit1 = ⟨560, 1690⟩ ∧ nec.snap.tmBit0 = ⟨560, 560⟩ ∧
    nec.snap.tmFtr = ⟨560, nec.params.necStopSpace⟩ ∧ nec.snap.tmRepeat = 0 ∧ nec.snap.srcLen = 4 ∧
    nec.regionsOk .encUniv = true ∧ 68 ≤ nec.snap.cap ∧
    Memory.read nec.buf nec.snap.src = some (nec.snap.necAddress.extractLsb' 0 8) ∧
    Memory.read nec.buf (nec.snap.src + 1) = some (nec.snap.necAddress.extractLsb' 8 8) ∧
    Memory.read nec.buf (nec.snap.src + 2) = some (nec.snap.necCommand.extractLsb' 0 8) ∧
    Memory.read nec.buf (nec.snap.src + 3) = some (~~~ (nec.snap.necCommand.extractLsb' 0 8)) := by decide +kernel

/-- Hypotheses of `WrittenTrainsAlternate` for each of the three encoders and decoders of trains. -/
theorem witness_WrittenTrainsAlternate :
    exec .encUniv univ = .next (landed (exec .encUniv univ)) ∧ exec .encNec nec = .next (landed (exec .encNec nec)) ∧
    exec .decompress dec = .next (landed (exec .decompress dec)) ∧
    0 < (landed (exec .decompress dec)).resultLen.toNat :=
  ⟨next_of_moves (by decide +kernel), next_of_moves (by decide +kernel), next_of_moves (by decide +kernel),
    by decide +kernel⟩

/-! ## Witnesses of the obligations about the codec -/

/-- Hypotheses of `CompressWritesTheSignal`, both clauses: four durations, four buckets, room for 18 bytes. -/
theorem witness_CompressWritesTheSignal :
    comp.regionsOk .compress = true ∧ comp.sourceWritten .compress = true ∧
    4 = (comp.bucketsOf comp.snap.len).length ∧ 4 ≤ 16 ∧ 6 + 2 * 4 + (comp.snap.len + 1) / 2 ≤ comp.snap.cap ∧
    4 = (dursAt comp.buf comp.snap.src comp.snap.len).dedup.length := by decide +kernel

/-- Symbols of given durations, all Spaces, as bytes. -/
def spaceBytes (ds : List Nat) : List Byte := ds.flatMap (fun d => [BitVec.ofNat 8 d, BitVec.ofNat 8 (d / 256)])

/-- Seventeen distinct durations, all within the tolerance of the first. -/
def close : State := running 3 (regions 0 17 64 17) (spaceBytes (List.range 17))

/-- Hypotheses of `CompressWritesTheSignal`: 17 distinct durations that need one bucket, room for exactly 17 bytes. -/
theorem witness_CompressWritesTheSignal_close :
    close.regionsOk .compress = true ∧ close.sourceWritten .compress = true ∧
    1 = (close.bucketsOf close.snap.len).length ∧ 6 + 2 * 1 + (close.snap.len + 1) / 2 ≤ close.snap.cap ∧
    (dursAt close.buf close.snap.src close.snap.len).dedup.length = 17 := by decide +kernel

/-- Sixteen buckets, the most there is room for (vector CV4), and room for exactly their 46 bytes. -/
def sixteen : State := running 3 (regions 0 16 64 46) (spaceBytes ((List.range 16).map (fun i => 1000 + 201 * i)))

/-- Hypotheses of `CompressWritesTheSignal`, both clauses, at the limit of the palette. -/
theorem witness_CompressWritesTheSignal_sixteen :
    sixteen.regionsOk .compress = true ∧ sixteen.sourceWritten .compress = true ∧
    16 = (sixteen.bucketsOf sixteen.snap.len).length ∧
    16 = (dursAt sixteen.buf sixteen.snap.src sixteen.snap.len).dedup.length ∧
    6 + 2 * 16 + (sixteen.snap.len + 1) / 2 ≤ sixteen.snap.cap := by decide +kernel

/-- Vector CV5, with one more symbol that is not written and room for no byte at all. -/
def seventeen : State := running 3 (regions 0 18 64 0) (spaceBytes ((List.range 17).map (fun i => 1000 + 201 * i)))

/-- Hypotheses of `SeventeenthBucketFails`, both clauses. -/
theorem witness_SeventeenthBucketFails :
    seventeen.regionsOk .compress = true ∧ 17 ≤ seventeen.snap.len ∧
    Memory.written seventeen.buf seventeen.snap.src (2 * 17) = true ∧ 16 < (seventeen.bucketsOf 17).length ∧
    (List.range 17).length = 17 ∧ (∀ i ∈ List.range 17, i < 17) ∧
    (List.range 17).Pairwise (fun i j => 2 * seventeen.params.paletteTol
      < durDist (durAt seventeen.buf seventeen.snap.src i) (durAt seventeen.buf seventeen.snap.src j)) := by
  decide +kernel

/-- Seventeen durations one more than the tolerance apart: 0, 101, 202, … . -/
def stairs : State := running 3 (regions 0 17 64 0) (spaceBytes ((List.range 17).map (fun i => 101 * i)))

/-- Hypotheses of the first clause of `SeventeenthBucketFails`, with neighbours no further apart than twice the
tolerance. -/
theorem witness_SeventeenthBucketFails_stairs :
    stairs.regionsOk .compress = true ∧ 17 ≤ stairs.snap.len ∧
    Memory.written stairs.buf stairs.snap.src (2 * 17) = true ∧ 16 < (stairs.bucketsOf 17).length := by decide +kernel

/-- Hypotheses of `CompressWithoutRoomFails`: 16 bytes of room for 17 (vector CV9). -/
theorem witness_CompressWithoutRoomFails :
    (comp.withCap 16).regionsOk .compress = true ∧ (comp.withCap 16).sourceWritten .compress = true ∧
    4 = ((comp.withCap 16).bucketsOf (comp.withCap 16).snap.len).length ∧ 4 ≤ 16 ∧
    (comp.withCap 16).snap.cap < 6 + 2 * 4 + ((comp.withCap 16).snap.len + 1) / 2 := by decide +kernel

/-- Hypotheses of `CompressOfEmptyTrain`: room for exactly 6 bytes (vector CV2). -/
theorem witness_CompressOfEmptyTrain :
    (running 3 (regions 0 0 64 6) []).snap.srcLen = 0 ∧ (running 3 (regions 0 0 64 6) []).regionsOk .compress = true ∧
    6 ≤ (running 3 (regions 0 0 64 6) []).snap.cap := by decide +kernel

/-- Hypotheses of `CompressBadRegionsFail`: an odd source (vector CV12), an overlap (vector CV13), good regions. -/
theorem witness_CompressBadRegionsFail :
    (running 3 (regions 1 6 64 18) []).regionsOk .compress = false ∧
    (running 3 (regions 0 6 10 18) []).regionsOk .compress = false ∧ comp.regionsOk .compress = true ∧
    exec .compress comp = .next (landed (exec .compress comp)) :=
  ⟨by decide +kernel, by decide +kernel, by decide +kernel, next_of_moves (by decide +kernel)⟩

/-- Clauses 1 to 3 of `DecompressFailuresInOrder`: an overlap (vector DV19), five bytes, a wrong first byte. -/
theorem witness_DecompressFailuresInOrder_start :
    (running 4 (regions 0 17 0 6) signalBytes).regionsOk .decompress = false ∧
    (decOf [0x5A, 0, 0, 0, 0] 6).regionsOk .decompress = true ∧ (decOf [0x5A, 0, 0, 0, 0] 6).snap.len < 6 ∧
    (decOf [0x5B, 0, 0, 0, 0, 0] 6).regionsOk .decompress = true ∧ 6 ≤ (decOf [0x5B, 0, 0, 0, 0, 0] 6).snap.len ∧
    Memory.read (decOf [0x5B, 0, 0, 0, 0, 0] 6).buf (decOf [0x5B, 0, 0, 0, 0, 0] 6).snap.src = some 0x5B ∧
    (0x5B : Byte) ≠ (decOf [0x5B, 0, 0, 0, 0, 0] 6).params.magic := by decide +kernel

/-- Seventeen entries declared. -/
def tooLarge : State := decOf [0x5A, 0, 0, 0, 0, 17] 6

/-- Two entries declared, no room for the second. -/
def cutPalette : State := decOf [0x5A, 1, 0, 0, 0, 2, 0x30, 0x02, 0x9A] 6

/-- One entry, 0x8000. -/
def badPalette : State := decOf [0x5A, 1, 0, 0, 0, 1, 0x00, 0x80, 0] 6

/-- Clauses 4 to 6 of `DecompressFailuresInOrder`, each at the boundary of its range. -/
theorem witness_DecompressFailuresInOrder_palette :
    tooLarge.regionsOk .decompress = true ∧ tooLarge.headerHolds 0 17 = true ∧ 16 < 17 ∧
    cutPalette.regionsOk .decompress = true ∧ cutPalette.headerHolds 1 2 = true ∧ cutPalette.snap.len < 6 + 2 * 2 ∧
    badPalette.regionsOk .decompress = true ∧ badPalette.headerHolds 1 1 = true ∧ 6 + 2 * 1 ≤ badPalette.snap.len ∧
    Memory.written badPalette.buf (badPalette.snap.src + 6) (2 * 1) = true ∧ badPalette.paletteHolds 1 = false := by
  decide +kernel

/-- One symbol, no palette. -/
def noPalette : State := decOf [0x5A, 1, 0, 0, 0, 0, 0] 6

/-- Three symbols and one packed byte. -/
def cutSymbols : State := decOf [0x5A, 3, 0, 0, 0, 1, 0x30, 0x02, 0] 6

/-- Clauses 7 to 9 of `DecompressFailuresInOrder`; the last with one symbol too little room (vector DV7). -/
theorem witness_DecompressFailuresInOrder_end :
    noPalette.regionsOk .decompress = true ∧ noPalette.headerHolds 1 0 = true ∧ noPalette.paletteHolds 0 = true ∧
    cutSymbols.regionsOk .decompress = true ∧ cutSymbols.headerHolds 3 1 = true ∧ cutSymbols.paletteHolds 1 = true ∧
    cutSymbols.snap.len < 6 + 2 * 1 + (3 + 1) / 2 ∧
    (dec.withCap 5).regionsOk .decompress = true ∧ (dec.withCap 5).headerHolds 6 4 = true ∧
    (dec.withCap 5).paletteHolds 4 = true ∧ 6 + 2 * 4 + (6 + 1) / 2 ≤ (dec.withCap 5).snap.len ∧
    (dec.withCap 5).snap.cap < 6 := by decide +kernel

/-- Hypotheses of `DecompressWritesTheTrain`: the signal of DV1 with room for exactly its 6 symbols. -/
theorem witness_DecompressWritesTheTrain :
    dec.regionsOk .decompress = true ∧ dec.headerHolds 6 4 = true ∧ dec.paletteHolds 4 = true ∧ 0 < 4 ∧
    6 + 2 * 4 + (6 + 1) / 2 ≤ dec.snap.len ∧
    Memory.written dec.buf (dec.snap.src + 6 + 2 * 4) ((6 + 1) / 2) = true ∧ 6 ≤ dec.snap.cap := by decide +kernel

/-- The empty signal with no palette also meets them (vector DV5). -/
theorem witness_DecompressWritesTheTrain_empty :
    (decOf [0x5A, 0, 0, 0, 0, 0] 0).regionsOk .decompress = true ∧
    (decOf [0x5A, 0, 0, 0, 0, 0] 0).headerHolds 0 0 = true ∧ (decOf [0x5A, 0, 0, 0, 0, 0] 0).paletteHolds 0 = true ∧
    6 + 2 * 0 + (0 + 1) / 2 ≤ (decOf [0x5A, 0, 0, 0, 0, 0] 0).snap.len := by decide +kernel

/-- What `COMPRESS` of CV1 leaves. -/
def compressed : State := landed (exec .compress comp)

/-- `DECOMPRESS` of what `COMPRESS` of CV1 left. -/
def unpack : State := { compressed with busy := true, snap := regions 64 17 128 6 }

/-- Hypotheses of `CodecRoundTrip`, those of its exact clause among them. -/
theorem witness_CodecRoundTrip :
    exec .compress comp = .next compressed ∧ compressed.err = 0 ∧
    (∀ i, i < comp.snap.len → levelOf (symbolWordAt comp.buf comp.snap.src i) = altLevel i) ∧
    unpack.params = comp.params ∧ unpack.buf = compressed.buf ∧ unpack.snap.src = comp.snap.dst ∧
    unpack.snap.len = compressed.resultLen.toNat ∧ unpack.regionsOk .decompress = true ∧
    comp.snap.len ≤ unpack.snap.cap ∧
    (∀ i, i < comp.snap.len → ∀ j, j < comp.snap.len →
      durAt comp.buf comp.snap.src i = durAt comp.buf comp.snap.src j ∨
        comp.params.paletteTol < durDist (durAt comp.buf comp.snap.src i) (durAt comp.buf comp.snap.src j)) := by
  refine ⟨next_of_moves (by decide +kernel), by decide +kernel, by decide +kernel, by decide +kernel,
    by decide +kernel, by decide +kernel, by decide +kernel, by decide +kernel, by decide +kernel, by decide +kernel⟩

/-! ## Witnesses of the obligations about all four commands -/

/-- Hypothesis of `CommandFrames` for each command. -/
theorem witness_CommandFrames :
    exec .encUniv univ = .next (landed (exec .encUniv univ)) ∧ exec .encNec nec = .next (landed (exec .encNec nec)) ∧
    exec .compress comp = .next (landed (exec .compress comp)) ∧
    exec .decompress dec = .next (landed (exec .decompress dec)) :=
  ⟨next_of_moves (by decide +kernel), next_of_moves (by decide +kernel), next_of_moves (by decide +kernel),
    next_of_moves (by decide +kernel)⟩

/-- Hypotheses of `FailedCommandsWriteNothing`: one symbol too little room. -/
theorem witness_FailedCommandsWriteNothing :
    exec .encNec (nec.withCap 67) = .next (landed (exec .encNec (nec.withCap 67))) ∧
    (landed (exec .encNec (nec.withCap 67))).err ≠ 0 := ⟨next_of_moves (by decide +kernel), by decide +kernel⟩

/-- Hypotheses of `OutputCapacityIsExact`, both clauses at their boundary: 18 bytes of room for 17, then 17 and 16. -/
theorem witness_OutputCapacityIsExact :
    exec .compress comp = .next compressed ∧ compressed.err = 0 ∧ compressed.resultLen.toNat ≤ (17#32).toNat ∧
    (17#32).toNat ≤ comp.snap.cap ∧ (16#32).toNat < compressed.resultLen.toNat :=
  ⟨next_of_moves (by decide +kernel), by decide +kernel, by decide +kernel, by decide +kernel, by decide +kernel⟩

/-- Hypothesis of `CommandsCompleteOnWrittenSource` for each command. -/
theorem witness_CommandsCompleteOnWrittenSource :
    univ.sourceWritten .encUniv = true ∧ nec.sourceWritten .encNec = true ∧ comp.sourceWritten .compress = true ∧
    dec.sourceWritten .decompress = true := by decide +kernel

/-- `ENC_UNIV` of a payload of two bytes whose second is not written. -/
def hole : State := running 1 { modelT 2 64 72 with tmRepeat := 1 } [0xC1]

/-- Hypothesis of `CommandsFaultOnlyOnUnwrittenSource`. -/
theorem witness_CommandsFaultOnlyOnUnwrittenSource : exec .encUniv hole = .fault (.unwrittenRead 1) :=
  fault_of_stops (by decide +kernel)

/-- Hypotheses of `UnwrittenSourceFaults`, first clause. -/
theorem witness_UnwrittenSourceFaults :
    hole.snap.tmValid = true ∧ hole.regionsOk .encUniv = true ∧
    ((if hole.snap.tmHdr.mark = 0 then 0 else 2) + 16 * hole.snap.len + 2) * (hole.snap.repeats + 1) ≤ hole.snap.cap ∧
    1 < hole.snap.len ∧ Memory.written hole.buf hole.snap.src 1 = true ∧
    Memory.read hole.buf (hole.snap.src + 1) = none := by decide +kernel

/-- `COMPRESS` of two symbols, the high byte of the second not written. -/
def halfSymbol : State := running 3 (regions 0 2 64 18) [0x28, 0xA3, 0x94]

/-- Hypotheses of `UnwrittenSourceFaults`, the clause of `COMPRESS`. -/
theorem witness_UnwrittenSourceFaults_compress :
    halfSymbol.regionsOk .compress = true ∧ 1 < halfSymbol.snap.len ∧
    Memory.written halfSymbol.buf halfSymbol.snap.src (2 * 1 + 1) = true ∧ (halfSymbol.bucketsOf 1).length ≤ 16 ∧
    Memory.read halfSymbol.buf (halfSymbol.snap.src + (2 * 1 + 1)) = none := by decide +kernel

/-- `DECOMPRESS` of 17 bytes of which only the first `n` of vector DV1 are written. -/
def cut (n : Nat) : State := running 4 (regions 0 17 128 6) (signalBytes.take n)

/-- Hypotheses of `UnwrittenSourceFaults`, `DECOMPRESS`: no byte, the whole header but N, one palette byte too few. -/
theorem witness_UnwrittenSourceFaults_header :
    (cut 0).regionsOk .decompress = true ∧ 6 ≤ (cut 0).snap.len ∧ Memory.read (cut 0).buf (cut 0).snap.src = none ∧
    Memory.read (cut 5).buf (cut 5).snap.src = some (cut 5).params.magic ∧
    Memory.written (cut 5).buf (cut 5).snap.src 5 = true ∧ Memory.read (cut 5).buf ((cut 5).snap.src + 5) = none ∧
    (cut 13).headerHolds 6 4 = true ∧ 6 + 2 * 4 ≤ (cut 13).snap.len ∧
    Memory.written (cut 13).buf ((cut 13).snap.src + 6) 7 = true ∧
    Memory.read (cut 13).buf ((cut 13).snap.src + 6 + 7) = none := by decide +kernel

/-- Hypotheses of `UnwrittenSourceFaults`, `DECOMPRESS`: the last packed byte not written. -/
theorem witness_UnwrittenSourceFaults_packed :
    (cut 16).regionsOk .decompress = true ∧ (cut 16).headerHolds 6 4 = true ∧ (cut 16).paletteHolds 4 = true ∧
    6 + 2 * 4 + (6 + 1) / 2 ≤ (cut 16).snap.len ∧ 6 ≤ (cut 16).snap.cap ∧ 2 < (6 + 1) / 2 ∧
    Memory.written (cut 16).buf ((cut 16).snap.src + 6 + 2 * 4) 2 = true ∧
    Memory.read (cut 16).buf ((cut 16).snap.src + 6 + 2 * 4 + 2) = none := by decide +kernel

/-- `dec` with another byte outside its source region and another result left by the last command. -/
def decElsewhere : State := { dec with buf := Memory.write dec.buf 100 0x77, resultLen := 9 }

/-- Hypotheses of `CommandsDependOnlyOnSource`: two unequal states that agree on the source. -/
theorem witness_CommandsDependOnlyOnSource :
    decElsewhere.params = dec.params ∧ decElsewhere.snap = dec.snap ∧ decElsewhere ≠ dec ∧
    (∀ k, k < sourceBytes .decompress dec.snap →
      Memory.read decElsewhere.buf (dec.snap.src + k) = Memory.read dec.buf (dec.snap.src + k)) ∧
    exec .decompress dec = .next (landed (exec .decompress dec)) :=
  ⟨by decide +kernel, by decide +kernel, by decide +kernel, by decide +kernel, next_of_moves (by decide +kernel)⟩

/-- The fault clause of `CommandsDependOnlyOnSource`. -/
theorem witness_CommandsDependOnlyOnSource_fault :
    (hole.setHost [.wait]).params = hole.params ∧ (hole.setHost [.wait]).snap = hole.snap ∧
    (∀ k, k < sourceBytes .encUniv hole.snap →
      Memory.read (hole.setHost [.wait]).buf (hole.snap.src + k) = Memory.read hole.buf (hole.snap.src + k)) ∧
    exec .encUniv hole = .fault (.unwrittenRead 1) :=
  ⟨by decide +kernel, by decide +kernel, by decide +kernel, fault_of_stops (by decide +kernel)⟩

/-! ## Witnesses of the whole-machine rules -/

/-- Hypotheses of `StepKeepsInvariant`, of `ParametersNeverChange`, of `WrittenBytesStayWritten` and of
`DoneRisesOnlyAtCompletion`: a completion step. -/
theorem witness_StepKeepsInvariant :
    univ.inv = true ∧ step univ = .next (landed (step univ)) ∧ univ.turns.head? ≠ some .rst ∧
    (Memory.read univ.buf 0).isSome = true ∧ univ.done = false ∧ (landed (step univ)).done = true :=
  ⟨by decide +kernel, next_of_moves (by decide +kernel), by decide +kernel, by decide +kernel, by decide +kernel,
    by decide +kernel⟩

/-- A running command, and a host that writes an operand register meanwhile. -/
def disturbed : State := univ.setHost [.access ⟨0x024, .four, .write 3⟩]

/-- Hypotheses of `HostCannotDisturbRunningCommand` and `HostWritesDoNotReachRunningCommand`. -/
theorem witness_HostCannotDisturbRunningCommand :
    disturbed.busy = true ∧ hostTurn disturbed = .next (landed (hostTurn disturbed)) ∧
    completionStep disturbed = .next (landed (completionStep disturbed)) :=
  ⟨by decide +kernel, next_of_moves (by decide +kernel), next_of_moves (by decide +kernel)⟩

/-- The fault clause of `HostWritesDoNotReachRunningCommand`. -/
theorem witness_HostWritesDoNotReachRunningCommand_fault :
    (hole.setHost [.wait]).busy = true ∧
    hostTurn (hole.setHost [.wait]) = .next (landed (hostTurn (hole.setHost [.wait]))) ∧
    completionStep (hole.setHost [.wait]) = .fault (.unwrittenRead 1) :=
  ⟨by decide +kernel, next_of_moves (by decide +kernel), fault_of_stops (by decide +kernel)⟩

/-- Hypotheses of `AcceptedCommandEnds`, with one host turn and with none. -/
theorem witness_AcceptedCommandEnds :
    (disturbed.setTurns [.host]).busy = true ∧ (disturbed.setTurns [.host]).turns = List.replicate 1 .host ∧
    Sys2Proof.core.run (1 + 1) (disturbed.setTurns [.host])
      = .next (landed (Sys2Proof.core.run (1 + 1) (disturbed.setTurns [.host]))) ∧
    disturbed.turns = List.replicate 0 .host :=
  ⟨by decide +kernel, by decide +kernel, next_of_moves (by decide +kernel), by decide +kernel⟩

/-- Hypotheses of `ResultsChangeOnlyAtCompletion`: a completion that changes `RESULT_LEN`. -/
theorem witness_ResultsChangeOnlyAtCompletion :
    step univ = .next (landed (step univ)) ∧ univ.turns.head? ≠ some .rst ∧ ¬ SameResults univ (landed (step univ)) :=
  ⟨next_of_moves (by decide +kernel), by decide +kernel, fun h => absurd h.resultLen (by decide +kernel)⟩

end Sys2Proof.Tests
end

section
/-! PROOF. The scope of a command (spec/00_scope.md): the parameters are constant, reset meets the invariant, every
written train alternates, and a command depends on nothing but its snapshot, the parameters and its source bytes. -/

namespace Sys2Proof.Machine

/-! ## Reset meets the invariant (spec/10_state.md R54) -/

/-- The whole invariant of a block just reset comes down to the ranges of its parameters. -/
theorem State.resetWith_inv (p : Params) : (State.resetWith p).inv = p.wf := by
  have hbuf : (State.resetWith p).bufInv = true := rfl
  have hflag : (State.resetWith p).flagInv = true := rfl
  have hresult : (State.resetWith p).resultInv = true := by
    simp [State.resultInv, State.resetWith, errReported]
  simp only [State.inv, hbuf, hflag, hresult, Bool.and_true]
  rfl

/-- Settles O6: reset leaves an empty `BUF`, no flag and no result, so only the parameters' ranges remain. -/
theorem invariantHoldsAtReset : Obligations.InvariantHoldsAtReset := by
  have hdefault : Config.params.wf = true := by decide
  exact ⟨(State.resetWith_inv _).trans hdefault, fun p hp => (State.resetWith_inv p).trans hp⟩

/-! ## The parameters are constant (spec/00_scope.md R7) -/

@[simp] theorem State.writeCmd_params (v : Word) (s : State) : (s.writeCmd v).params = s.params := by
  unfold State.writeCmd
  split <;> rfl

@[simp] theorem writeReg_params (r : Reg) (v : Word) (s : State) : (writeReg r v s).params = s.params := by
  cases r with
  | cmd => exact State.writeCmd_params v s
  | _ => rfl

@[simp] theorem writeOffset_params (off : Nat) (v : Word) (s : State) : (writeOffset off v s).params = s.params := by
  unfold writeOffset
  split
  · exact writeReg_params _ v s
  · rfl

@[simp] theorem regAccess_params (t : Txn) (s : State) : (regAccess t s).params = s.params := by
  unfold regAccess
  split
  · rfl
  · exact writeOffset_params _ _ s

theorem transact_params (t : Txn) (s u : State) (h : transact t s = .next u) : u.params = s.params := by
  rcases transact_next t s u h with ⟨-, -, rfl⟩ | ⟨-, -, -, ⟨-, v, -, rfl⟩ | ⟨v, -, rfl⟩⟩
  · exact regAccess_params t s
  · rfl
  · rfl

theorem hostTurn_params (s t : State) (h : hostTurn s = .next t) : t.params = s.params := by
  rcases hostTurn_cases s with ⟨-, hs⟩ | ⟨x, rest, -, hs⟩ | ⟨rest, -, hs⟩ <;> rw [hs] at h
  · injection h with h
    rw [h]
  · exact transact_params x (s.setHost rest) t h
  · rw [transact_params _ _ _ h]
    split <;> rfl

theorem complete_params (r : Except Halt Output) (s t : State) (h : complete r s = .next t) :
    t.params = s.params := by
  rcases (complete_next r s t).1 h with ⟨o, -, rfl⟩ | ⟨c, -, rfl⟩ <;> rfl

/-- Whatever the accepted number is, the completion step is the completion of some computation. -/
theorem completionStep_eq_complete (s : State) : ∃ r, completionStep s = complete r s := by
  rw [completionStep_eq]
  split
  · exact ⟨_, exec_eq_complete _ s⟩
  · exact ⟨_, rfl⟩

theorem completionStep_params (s t : State) (h : completionStep s = .next t) : t.params = s.params := by
  obtain ⟨r, hr⟩ := completionStep_eq_complete s
  exact complete_params r s t (hr ▸ h)

theorem engineTurn_params (s t : State) (h : engineTurn s = .next t) : t.params = s.params := by
  unfold engineTurn at h
  split at h
  · exact completionStep_params s t h
  · injection h with h
    rw [h]

theorem step_params (s t : State) (h : step s = .next t) : t.params = s.params := by
  rcases step_cases s with ⟨ts, -, hs⟩ | ⟨ts, -, hs⟩ | ⟨ts, -, hs⟩ | ⟨-, -, hs⟩ | ⟨-, -, hs⟩ <;>
    rw [hs] at h
  · injection h with h
    rw [← h, State.resetBlock_params, State.setTurns_params]
  · rw [engineTurn_params _ t h, State.setTurns_params]
  · rw [hostTurn_params _ t h, State.setTurns_params]
  · exact completionStep_params s t h
  · exact hostTurn_params s t h

/-- Settles O53: no turn writes the parameters, and `ID` and `BUFSIZE` read nothing else. -/
theorem parametersNeverChange : Obligations.ParametersNeverChange := by
  intro s t h
  have hp := step_params s t h
  exact ⟨hp, by simp only [readReg, hp], by simp only [readReg, hp]⟩

/-! ## Alternating trains (spec/00_scope.md R13) -/

/-- The symbols' levels are those of the positions `i`, `i + 1`, … . -/
def alternatesFrom (i : Nat) (t : List Symbol) : Prop := ∀ k (h : k < t.length), t[k].level = altLevel (i + k)

/-- A part of a train that starts with a Mark and ends with a Space: such parts can stand one after the other. -/
def MarkSpaceBlock (t : List Symbol) : Prop := t.length % 2 = 0 ∧ alternatesFrom 0 t

theorem altLevel_add_even (n k : Nat) (h : n % 2 = 0) : altLevel (n + k) = altLevel k := by
  have : (n + k) % 2 = k % 2 := by omega
  simp only [altLevel, this]

theorem alternatesFrom_nil (i : Nat) : alternatesFrom i [] := fun k hk => absurd hk (Nat.not_lt_zero k)

theorem alternatesFrom_cons (i : Nat) (x : Symbol) (t : List Symbol) (hx : x.level = altLevel i)
    (ht : alternatesFrom (i + 1) t) : alternatesFrom i (x :: t) := by
  intro k hk
  cases k with
  | zero => exact hx
  | succ k =>
    rw [List.getElem_cons_succ, ht k (by simpa using hk), show i + 1 + k = i + (k + 1) by omega]

theorem MarkSpaceBlock.nil : MarkSpaceBlock [] := ⟨rfl, alternatesFrom_nil 0⟩

theorem MarkSpaceBlock.pair (d e : Dur) : MarkSpaceBlock [markSym d, spaceSym e] :=
  ⟨Nat.mod_self 2, alternatesFrom_cons 0 _ _ rfl (alternatesFrom_cons 1 _ _ rfl (alternatesFrom_nil 2))⟩

theorem MarkSpaceBlock.append {as bs : List Symbol} (ha : MarkSpaceBlock as) (hb : MarkSpaceBlock bs) :
    MarkSpaceBlock (as ++ bs) := by
  obtain ⟨hla, ha⟩ := ha
  obtain ⟨hlb, hb⟩ := hb
  refine ⟨by rw [List.length_append]; omega, fun k hk => ?_⟩
  by_cases hka : k < as.length
  · rw [List.getElem_append_left hka]
    exact ha k hka
  · rw [List.getElem_append_right (by omega), hb, Nat.zero_add, Nat.zero_add,
      ← altLevel_add_even as.length _ hla, Nat.add_sub_cancel' (by omega)]

theorem MarkSpaceBlock.flatMap {α : Type} (xs : List α) (f : α → List Symbol) (h : ∀ x, MarkSpaceBlock (f x)) :
    MarkSpaceBlock (xs.flatMap f) := by
  induction xs with
  | nil => exact MarkSpaceBlock.nil
  | cons x xs ih => exact (h x).append ih

theorem payloadSyms_block (l : Bool) (p q : Pair) (bs : List Byte) : MarkSpaceBlock (payloadSyms l p q bs) :=
  .flatMap _ _ fun _ => .flatMap _ _ fun _ => .pair _ _

theorem headerSyms_block (o : OperandRegs) : MarkSpaceBlock (headerSyms o) := by
  unfold headerSyms
  split
  · exact .pair _ _
  · exact .nil

theorem frameSyms_block (o : OperandRegs) (bs : List Byte) (last : Bool) : MarkSpaceBlock (frameSyms o bs last) :=
  ((headerSyms_block o).append (payloadSyms_block _ _ _ _)).append (.pair _ _)

theorem univTrain_block (o : OperandRegs) (bs : List Byte) : MarkSpaceBlock (univTrain o bs) :=
  .flatMap _ _ fun _ => frameSyms_block o bs _

theorem necTrain_block (p : Params) (o : OperandRegs) : MarkSpaceBlock (necTrain p o) :=
  ((MarkSpaceBlock.pair _ _).append (payloadSyms_block _ _ _ _)).append (.pair _ _)

/-- `DECOMPRESS` gives each symbol the level of its position, so an odd count may end in a Mark. -/
theorem decodeSyms_alternatesFrom (m : Memory) (base : Nat) (pal : List Dur) (n i : Nat) (t : List Symbol)
    (h : decodeSyms m base pal n i = .ok t) : alternatesFrom i t := by
  induction n generalizing i t with
  | zero =>
    injection h with h
    subst h
    exact alternatesFrom_nil i
  | succ n ih =>
    simp only [decodeSyms, bind_ok_iff] at h
    obtain ⟨b, -, rest, hrest, h⟩ := h
    injection h with h
    subst h
    exact alternatesFrom_cons i _ rest rfl (ih (i + 1) rest hrest)

/-- Every successful command but `COMPRESS` writes an alternating train of the reported length at its destination. -/
theorem computeOf_train (i : Instr) (p : Params) (o : OperandRegs) (m : Memory) (r : Output) (hi : i ≠ .compress)
    (h : computeOf i p o m = .ok r) :
    ∃ t, r.writes = trainWrites o.dst t ∧ r.len = t.length ∧ alternatesFrom 0 t := by
  cases i with
  | encUniv =>
    obtain ⟨-, -, -, -, -, -, bs, hb, rfl⟩ := (computeEncUniv_ok p o m r).1 h
    have hl : bs.length = o.len := ((Memory.bytesAt_ok _ _ _ _).1 hb).1
    exact ⟨univTrain o bs, rfl, by rw [univTrain_length, hl]; rfl, (univTrain_block o bs).2⟩
  | encNec =>
    obtain ⟨-, -, rfl⟩ := (computeEncNec_ok p o r).1 h
    exact ⟨necTrain p o, rfl, (necTrain_length p o).symm, (necTrain_block p o).2⟩
  | compress => exact absurd rfl hi
  | decompress =>
    obtain ⟨-, -, -, -, magic, -, -, count, -, n, -, -, -, e, -, -, -, -, -, t, ht, rfl⟩ :=
      (computeDecompress_ok p o m r).1 h
    exact ⟨t, rfl, (decodeSyms_length _ _ _ _ _ _ ht).symm, decodeSyms_alternatesFrom _ _ _ _ _ _ ht⟩

/-- A symbol word that can be read is what `BUF` holds there. -/
theorem holds_of_readSymbol (m : Memory) (a : Nat) (w : Half) (h : readSymbol m a = .ok w) :
    Memory.holds m a 2 w.toNat = true := by
  rw [readSymbol, bind_ok_iff] at h
  obtain ⟨v, hv, h⟩ := h
  injection h with h
  obtain ⟨bs, hbs, hle⟩ := (memRead_ok m a 2 v).1 hv
  have hv16 : v < 65536 := by
    have hlt := leNat_lt bs
    rw [((Memory.bytesAt_ok m 2 a bs).1 hbs).1, hle] at hlt
    exact hlt
  have hw : w.toNat = v := by
    rw [← h, BitVec.toNat_ofNat]
    exact Nat.mod_eq_of_lt hv16
  rw [memRead, orUnwritten_ok] at hv
  simp only [Memory.holds, hv, hw, decide_true]

/-- After an alternating train's writes the word at position `k` is a Mark where `k` is even, else a Space. -/
theorem holds_trainWrites (t : List Symbol) (m : Memory) (a k : Nat) (hk : k < t.length) (ht : alternatesFrom 0 t) :
    (k % 2 = 0 → Memory.holdsMark (applyWrites m (trainWrites a t)) (a + 2 * k) t[k].dur = true) ∧
    (k % 2 = 1 → Memory.holdsSpace (applyWrites m (trainWrites a t)) (a + 2 * k) t[k].dur = true) := by
  have hh := holds_of_readSymbol _ _ _ (readSymbol_trainWrites t m a k hk)
  have hl : t[k].level = altLevel k := by rw [ht k hk, Nat.zero_add]
  rw [Symbol.word_toNat, hl] at hh
  refine ⟨fun hmod => ?_, fun hmod => ?_⟩
  · simpa [Memory.holdsMark, altLevel, hmod] using hh
  · simpa [Memory.holdsSpace, altLevel, hmod] using hh

theorem toNat_ofNat_le (w n : Nat) : (BitVec.ofNat w n).toNat ≤ n := by
  rw [BitVec.toNat_ofNat]
  exact Nat.mod_le _ _

/-- Settles O36: a success writes an alternating train, and a failure reports length 0. -/
theorem writtenTrainsAlternate : Obligations.WrittenTrainsAlternate := by
  intro i s t hi h k hk
  rw [exec_eq_complete] at h
  rcases (complete_next _ s t).1 h with ⟨r, hr, rfl⟩ | ⟨c, -, rfl⟩
  · have hne : i ≠ .compress := by rcases hi with rfl | rfl | rfl <;> decide
    obtain ⟨train, hw, hlen, halt⟩ := computeOf_train i _ _ _ r hne hr
    have hkt : k < train.length := hlen ▸ hk.trans_le (toNat_ofNat_le 32 r.len)
    rw [State.finishOk_buf, hw]
    exact ⟨train[k].dur, holds_trainWrites train s.buf s.snap.dst k hkt halt⟩
  · exact absurd hk (Nat.not_lt_zero k)

/-! ## What a computation reads (spec/00_scope.md R3) -/

/-- Two memories agree on the `n` bytes from `a` up, written or not. -/
def Memory.agree (m m' : Memory) (a n : Nat) : Prop := ∀ k < n, Memory.read m' (a + k) = Memory.read m (a + k)

theorem Memory.agree.sub {m m' : Memory} {a n : Nat} (h : Memory.agree m m' a n) (b k : Nat) (h1 : a ≤ b)
    (h2 : b + k ≤ a + n) : Memory.agree m m' b k := by
  intro j hj
  have := h (b - a + j) (by omega)
  rwa [show a + (b - a + j) = b + j by omega] at this

/-- Computations that start alike and go on alike after every result of the start are equal. -/
theorem bind_congr_ok {ε α β : Type} {x y : Except ε α} {f g : α → Except ε β} (hxy : x = y)
    (h : ∀ a, y = .ok a → f a = g a) : (x >>= f) = (y >>= g) := by
  subst hxy
  cases x with
  | error e => rfl
  | ok a => exact h a rfl

theorem byteAt_congr {m m' : Memory} {a : Nat} (h : Memory.agree m m' a 1) :
    Memory.byteAt m' a = Memory.byteAt m a := by
  have h0 : Memory.read m' a = Memory.read m a := h 0 Nat.one_pos
  simp only [Memory.byteAt, h0]

theorem bytesAt_congr {m m' : Memory} {a n : Nat} (h : Memory.agree m m' a n) :
    Memory.bytesAt m' a n = Memory.bytesAt m a n := by
  induction n generalizing a with
  | zero => rfl
  | succ n ih =>
    rw [Memory.bytesAt, Memory.bytesAt, byteAt_congr (h.sub a 1 le_rfl (by omega)),
      ih (h.sub (a + 1) n (by omega) (by omega))]

theorem readByte_congr {m m' : Memory} {a : Nat} (h : Memory.agree m m' a 1) : readByte m' a = readByte m a := by
  rw [readByte, byteAt_congr h, readByte]

theorem readBytes_congr {m m' : Memory} {a n : Nat} (h : Memory.agree m m' a n) :
    readBytes m' a n = readBytes m a n := by
  rw [readBytes, bytesAt_congr h, readBytes]

theorem memRead_congr {m m' : Memory} {a n : Nat} (h : Memory.agree m m' a n) : memRead m' a n = memRead m a n := by
  rw [memRead, Memory.load, bytesAt_congr h, memRead, Memory.load]

theorem readSymbol_congr {m m' : Memory} {a : Nat} (h : Memory.agree m m' a 2) : readSymbol m' a = readSymbol m a := by
  rw [readSymbol, memRead_congr h, readSymbol]

theorem scanTrain_congr {m m' : Memory} (tol n a i : Nat) (pal : List Dur) (h : Memory.agree m m' a (2 * n)) :
    scanTrain m' tol n a i pal = scanTrain m tol n a i pal := by
  induction n generalizing a i pal with
  | zero => rfl
  | succ n ih =>
    have hrest (pal' : List Dur) : scanTrain m' tol n (a + 2) (i + 1) pal' = scanTrain m tol n (a + 2) (i + 1) pal' :=
      ih _ _ _ (h.sub (a + 2) (2 * n) (by omega) (by omega))
    simp only [scanTrain, readSymbol_congr (h.sub a 2 le_rfl (by omega)), hrest]

theorem readPalette_congr {m m' : Memory} (n a : Nat) (h : Memory.agree m m' a (2 * n)) :
    readPalette m' n a = readPalette m n a := by
  induction n generalizing a with
  | zero => rfl
  | succ n ih =>
    rw [readPalette, readPalette, memRead_congr (h.sub a 2 le_rfl (by omega)),
      ih _ (h.sub (a + 2) (2 * n) (by omega) (by omega))]

/-- Symbols `i` to `i + n - 1` lie in the packed bytes up to the one of the last. -/
theorem decodeSyms_congr {m m' : Memory} (base : Nat) (pal : List Dur) (n i : Nat)
    (h : Memory.agree m m' base (ceilHalf (i + n))) : decodeSyms m' base pal n i = decodeSyms m base pal n i := by
  induction n generalizing i with
  | zero => rfl
  | succ n ih =>
    have hbyte : Memory.agree m m' (base + i / 2) 1 := h.sub _ _ (by omega) (by simp only [ceilHalf]; omega)
    rw [decodeSyms, decodeSyms, readByte_congr hbyte, ih (i + 1) (by rwa [show i + 1 + n = i + (n + 1) by omega])]

theorem computeEncUniv_congr {m m' : Memory} (p : Params) (o : OperandRegs) (h : Memory.agree m m' o.src o.len) :
    computeEncUniv p o m' = computeEncUniv p o m := by
  rw [computeEncUniv, readBytes_congr h, computeEncUniv]

theorem computeCompress_congr {m m' : Memory} (p : Params) (o : OperandRegs)
    (h : Memory.agree m m' o.src (2 * o.len)) : computeCompress p o m' = computeCompress p o m := by
  rw [computeCompress, scanTrain_congr _ _ _ _ _ h, computeCompress]

/-- `DECOMPRESS` takes its counts from the source: each read stays inside it because of the checks made before it
(spec/43_decompress.md R161 cases 1, 4 and 7). -/
theorem computeDecompress_congr {m m' : Memory} (p : Params) (o : OperandRegs) (h : Memory.agree m m' o.src o.len) :
    computeDecompress p o m' = computeDecompress p o m := by
  unfold computeDecompress
  refine bind_congr_ok rfl fun _ _ => bind_congr_ok rfl fun _ _ => bind_congr_ok rfl fun _ _ =>
    bind_congr_ok rfl fun _ hheader => ?_
  have hheader : 6 ≤ o.len := by simpa using hheader
  refine bind_congr_ok (readByte_congr (h.sub _ _ le_rfl (by omega))) fun magic _ => bind_congr_ok rfl fun _ _ => ?_
  refine bind_congr_ok (memRead_congr (h.sub _ _ (by omega) (by omega))) fun count _ => ?_
  refine bind_congr_ok (memRead_congr (h.sub _ _ (by omega) (by omega))) fun n _ => bind_congr_ok rfl fun _ _ =>
    bind_congr_ok rfl fun _ hpalette => ?_
  have hpalette : 6 + 2 * n ≤ o.len := by simpa using hpalette
  refine bind_congr_ok (readPalette_congr _ _ (h.sub _ _ (by omega) (by omega))) fun entries _ =>
    bind_congr_ok rfl fun _ _ => bind_congr_ok rfl fun _ _ => bind_congr_ok rfl fun _ hsignal => ?_
  have hsignal : signalLen count n ≤ o.len := by simpa using hsignal
  refine bind_congr_ok rfl fun _ _ => bind_congr_ok (decodeSyms_congr _ _ _ _ (h.sub _ _ (by omega) ?_)) fun _ _ => rfl
  rwa [Nat.zero_add, Nat.add_assoc o.src, Nat.add_assoc o.src, Nat.add_le_add_iff_left]

theorem computeOf_congr {m m' : Memory} (i : Instr) (p : Params) (o : OperandRegs)
    (h : Memory.agree m m' o.src (sourceBytes i o)) : computeOf i p o m' = computeOf i p o m := by
  cases i with
  | encUniv => exact computeEncUniv_congr p o h
  | encNec => rfl
  | compress => exact computeCompress_congr p o h
  | decompress => exact computeDecompress_congr p o h

/-! ## What a computation writes (spec/60_exceptions.md R201) -/

/-- A success writes every byte of its output, one after the other from the destination up. -/
theorem computeOf_writes (i : Instr) (p : Params) (o : OperandRegs) (m : Memory) (r : Output)
    (h : computeOf i p o m = .ok r) :
    contiguous o.dst r.writes ∧ (writtenBytes r.writes).length = outputUnit i * r.len := by
  by_cases hi : i = .compress
  · subst hi
    obtain ⟨-, -, -, q, hq, -, rfl⟩ := (computeCompress_ok p o m r).1 h
    obtain ⟨hl, -⟩ := scanTrain_ok _ _ _ _ _ _ _ hq (Nat.zero_le _)
    exact ⟨signalWrites_contiguous _ _ _ _ _, by rw [signalWrites_length, hl, outputUnit, Nat.one_mul]⟩
  · obtain ⟨t, hw, hlen, -⟩ := computeOf_train i p o m r hi h
    have hunit : outputUnit i = 2 := by
      cases i with
      | compress => exact absurd rfl hi
      | _ => rfl
    exact ⟨hw ▸ trainWrites_contiguous t o.dst, by rw [hw, trainWrites_length, hlen, hunit]⟩

/-- A byte that contiguous writes cover does not depend on what stood there before. -/
theorem read_applyWrites_contiguous (ws : List BufWrite) (m m' : Memory) (a k : Nat) (h : contiguous a ws)
    (hk : k < (writtenBytes ws).length) :
    Memory.read (applyWrites m' ws) (a + k) = Memory.read (applyWrites m ws) (a + k) := by
  rw [applyWrites_contiguous ws m' a h, applyWrites_contiguous ws m a h, Memory.read_writeBytes_same _ _ _ _ hk,
    Memory.read_writeBytes_same _ _ _ _ hk]

/-- The same computation completed in two states: the same results, and the same bytes where the output stands. -/
theorem complete_same (i : Instr) (r : Except Halt Output) (s t u : State)
    (hr : r = computeOf i s.params s.snap s.buf) (h : complete r s = .next t) :
    ∃ v, complete r u = .next v ∧ SameResults t v ∧ ∀ k, k < outputUnit i * t.resultLen.toNat →
      Memory.read v.buf (s.snap.dst + k) = Memory.read t.buf (s.snap.dst + k) := by
  rcases (complete_next r s t).1 h with ⟨o, rfl, rfl⟩ | ⟨c, rfl, rfl⟩
  · refine ⟨u.finishOk o, rfl, ⟨rfl, rfl, rfl⟩, fun k hk => ?_⟩
    obtain ⟨hc, hl⟩ := computeOf_writes i _ _ _ o hr.symm
    refine read_applyWrites_contiguous o.writes s.buf u.buf _ k hc ?_
    rw [hl]
    exact hk.trans_le (Nat.mul_le_mul_left _ (toNat_ofNat_le 32 o.len))
  · exact ⟨u.finishError c, rfl, ⟨rfl, rfl, rfl⟩, fun k hk => by simp at hk⟩

/-- The same computation faults in every state or in none. -/
theorem complete_fault_same (r : Except Halt Output) (s u : State) (f : Fault) (h : complete r s = .fault f) :
    complete r u = .fault f :=
  (complete_fault r u f).2 ((complete_fault r s f).1 h)

/-- Settles O51: the two states run the same computation, and what it writes covers the whole output. -/
theorem commandsDependOnlyOnSource : Obligations.CommandsDependOnlyOnSource := by
  intro i s u hp hsnap hsrc
  have hcompute : computeOf i u.params u.snap u.buf = computeOf i s.params s.snap s.buf := by
    rw [hp, hsnap]
    exact computeOf_congr i _ _ hsrc
  rw [exec_eq_complete i s, exec_eq_complete i u, hcompute]
  exact ⟨fun t h => complete_same i _ s t u rfl h, fun f h => complete_fault_same _ s u f h⟩

end Sys2Proof.Machine
end

section
/-! PROOF. What one step can do, said once: a turn of the host (spec/10_state.md R22, spec/20_memory.md R67), a
completion (spec/60_exceptions.md R201, R202) and the whole step (spec/20_memory.md R70).  The rules about every step of
the block follow: the invariant, written bytes, a running command left alone, DONE and the results. -/

namespace Sys2Proof.Machine

/-! ## Written bytes stay written (spec/20_memory.md R68) -/

theorem Memory.isSome_read_write (m : Memory) (a c : Nat) (b : Byte) (h : (Memory.read m c).isSome = true) :
    (Memory.read (Memory.write m a b) c).isSome = true := by
  rw [Memory.read_write]
  split
  · rfl
  · exact h

theorem Memory.isSome_read_writeBytes (bs : List Byte) (m : Memory) (a c : Nat)
    (h : (Memory.read m c).isSome = true) : (Memory.read (Memory.writeBytes m a bs) c).isSome = true := by
  induction bs generalizing m a with
  | nil => exact h
  | cons b bs ih => exact ih _ _ (Memory.isSome_read_write m a c b h)

theorem isSome_read_applyWrites (ws : List BufWrite) (m : Memory) (c : Nat) (h : (Memory.read m c).isSome = true) :
    (Memory.read (applyWrites m ws) c).isSome = true := by
  induction ws generalizing m with
  | nil => exact h
  | cons w ws ih => exact ih _ (Memory.isSome_read_writeBytes w.bytes m w.offset c h)

/-! ## What a turn of the host can do -/

/-- The bounds of what the host can do to the block in one turn: it writes `BUF` only in an idle block and only inside
its bounds, leaves a running command alone, and never raises DONE or touches BUSY beside a DONE that stays. -/
structure HostEffect (s t : State) : Prop where
  params : t.params = s.params
  results : SameResults s t
  running : s.busy = true → t.busy = true ∧ t.curOp = s.curOp ∧ t.snap = s.snap
  done : t.done = true → s.done = true ∧ t.busy = s.busy
  buf : t.buf = s.buf ∨
    s.busy = false ∧ ∃ a n v, a + n ≤ s.params.bufBytes ∧ t.buf = memWrite s.buf a n v

theorem HostEffect.refl (s : State) : HostEffect s s :=
  ⟨rfl, ⟨rfl, rfl, rfl⟩, fun h => ⟨h, rfl, rfl⟩, fun h => ⟨h, rfl⟩, .inl rfl⟩

theorem writeStatus_effect (v : Word) (s : State) : HostEffect s (s.writeStatus v) :=
  ⟨rfl, ⟨rfl, rfl, rfl⟩, fun h => ⟨h, rfl, rfl⟩, fun h => ⟨Bool.and_elim_left h, rfl⟩, .inl rfl⟩

/-- A `CMD` write sets CMD_LOST beside a running command; else it raises BUSY and clears DONE. -/
theorem writeCmd_effect (v : Word) (s : State) : HostEffect s (s.writeCmd v) := by
  cases hb : s.busy with
  | true =>
    rw [State.writeCmd_busy v s hb]
    exact ⟨rfl, ⟨rfl, rfl, rfl⟩, fun h => ⟨h, rfl, rfl⟩, fun h => ⟨h, rfl⟩, .inl rfl⟩
  | false =>
    rw [State.writeCmd_idle v s hb]
    have hrun : ¬ s.busy = true := by simp [hb]
    exact ⟨rfl, ⟨rfl, rfl, rfl⟩, fun h => absurd h hrun, fun h => Bool.noConfusion h, .inl rfl⟩

theorem writeReg_effect (r : Reg) (v : Word) (s : State) : HostEffect s (writeReg r v s) := by
  cases r with
  | status => exact writeStatus_effect v s
  | cmd => exact writeCmd_effect v s
  | _ => exact ⟨rfl, ⟨rfl, rfl, rfl⟩, fun h => ⟨h, rfl, rfl⟩, fun h => ⟨h, rfl⟩, .inl rfl⟩

theorem writeOffset_effect (off : Nat) (v : Word) (s : State) : HostEffect s (writeOffset off v s) := by
  unfold writeOffset
  split
  · exact writeReg_effect _ v s
  · exact .refl s

/-- The port's answer is no part of the effect. -/
theorem HostEffect.respond {s t : State} (h : HostEffect s t) (x : Response) : HostEffect s (t.respond x) :=
  ⟨h.params, ⟨h.results.err, h.results.resultLen, h.results.palSize⟩, h.running, h.done, h.buf⟩

theorem regAccess_effect (t : Txn) (s : State) : HostEffect s (regAccess t s) := by
  unfold regAccess
  split
  · exact (HostEffect.refl s).respond _
  · exact (writeOffset_effect _ _ s).respond _

/-- A store to bytes inside the `BUF` of an idle block. -/
theorem bufStore_effect (a n : Nat) (v : Word) (s : State) (hb : s.busy = false) (h : a + n ≤ s.params.bufBytes) :
    HostEffect s (bufStore a n v s) :=
  ⟨rfl, ⟨rfl, rfl, rfl⟩, fun hr => ⟨hr, rfl, rfl⟩, fun hd => ⟨hd, rfl⟩, .inr ⟨hb, a, n, v.toNat, h, rfl⟩⟩

theorem transact_effect (t : Txn) (s u : State) (h : transact t s = .next u) : HostEffect s u := by
  rcases transact_next t s u h with ⟨-, -, rfl⟩ | ⟨-, hin, hb, ⟨-, v, -, rfl⟩ | ⟨v, -, rfl⟩⟩
  · exact regAccess_effect t s
  · exact (HostEffect.refl s).respond _
  · simp only [bufReachable, Bool.and_eq_true, decide_eq_true_eq] at hin
    exact bufStore_effect _ _ v s hb hin.2

/-- A transaction taken off the host's program does to the block what it would do with the program as it was. -/
theorem transact_setHost_effect (t : Txn) (rest : List HostOp) (s u : State)
    (h : transact t (s.setHost rest) = .next u) : HostEffect s u := by
  obtain ⟨hp, ⟨he, hl, hn⟩, hr, hd, hb⟩ := transact_effect t _ u h
  exact ⟨hp, ⟨he, hl, hn⟩, hr, hd, hb⟩

theorem hostTurn_effect (s t : State) (h : hostTurn s = .next t) : HostEffect s t := by
  rcases hostTurn_cases s with ⟨-, hs⟩ | ⟨x, rest, -, hs⟩ | ⟨rest, -, hs⟩ <;> rw [hs] at h
  · injection h with h
    exact h ▸ .refl s
  · exact transact_setHost_effect x rest s t h
  · split at h
    · exact transact_setHost_effect _ rest s t h
    · exact transact_effect _ s t h

/-! ## What a completion can do -/

/-- The computation of the accepted number: that of its command, or the error of an illegal one
(spec/60_exceptions.md R203). -/
def acceptedCompute (op : BitVec 4) (p : Params) (o : OperandRegs) (m : Memory) : Except Halt Output :=
  match decodeOp op with
  | .ok i => computeOf i p o m
  | .error _ => .error (.raise .illegalCommand)

/-- The completion step depends on the accepted number, the snapshot, the parameters and `BUF` alone. -/
theorem completionStep_eq_acceptedCompute (s : State) :
    completionStep s = complete (acceptedCompute s.curOp s.params s.snap s.buf) s := by
  rw [completionStep_eq, acceptedCompute]
  cases decodeOp s.curOp with
  | ok i => exact exec_eq_complete i s
  | error e => rfl

/-- A result of the accepted number is that of a command. -/
theorem acceptedCompute_ok (op : BitVec 4) (p : Params) (o : OperandRegs) (m : Memory) (r : Output)
    (h : acceptedCompute op p o m = .ok r) : ∃ i, computeOf i p o m = .ok r := by
  unfold acceptedCompute at h
  split at h
  · exact ⟨_, h⟩
  · cases h

/-- A completion step ends in the success of some command or in an error. -/
theorem completionStep_next (s t : State) (h : completionStep s = .next t) :
    (∃ i r, computeOf i s.params s.snap s.buf = .ok r ∧ t = s.finishOk r) ∨ ∃ c, t = s.finishError c := by
  rw [completionStep_eq_acceptedCompute, complete_next] at h
  rcases h with ⟨r, hr, rfl⟩ | ⟨c, -, rfl⟩
  · obtain ⟨i, hi⟩ := acceptedCompute_ok _ _ _ _ r hr
    exact .inl ⟨i, r, hi, rfl⟩
  · exact .inr ⟨c, rfl⟩

/-- Every completion, successful or not, clears BUSY and sets DONE (spec/60_exceptions.md R201). -/
theorem completionStep_flags (s t : State) (h : completionStep s = .next t) : t.busy = false ∧ t.done = true := by
  rcases completionStep_next s t h with ⟨i, r, -, rfl⟩ | ⟨c, rfl⟩ <;> exact ⟨rfl, rfl⟩

/-! ## What a step can do -/

/-- The four things a step can be: a reset, nothing but a turn taken off the schedule, the completion of the running
command on a turn that is not the host's, or a turn of the host. -/
theorem step_next (s t : State) (h : step s = .next t) :
    (s.turns.head? = some .rst ∧ ∃ ts, t = (s.setTurns ts).resetBlock) ∨
    (∃ ts, t = s.setTurns ts) ∨
    (s.busy = true ∧ s.turns.head? ≠ some .host ∧ s.turns.head? ≠ some .rst ∧
      ∃ ts, completionStep (s.setTurns ts) = .next t) ∨
    ∃ ts, hostTurn (s.setTurns ts) = .next t := by
  rcases step_cases s with ⟨ts, hts, hs⟩ | ⟨ts, hts, hs⟩ | ⟨ts, hts, hs⟩ | ⟨hts, hb, hs⟩ | ⟨hts, -, hs⟩ <;>
    rw [hs] at h
  · injection h with h
    exact .inl ⟨by simp [hts], ts, h.symm⟩
  · unfold engineTurn at h
    split at h
    · rename_i hb
      exact .inr (.inr (.inl ⟨hb, by simp [hts], by simp [hts], ts, h⟩))
    · injection h with h
      exact .inr (.inl ⟨ts, h.symm⟩)
  · exact .inr (.inr (.inr ⟨ts, h⟩))
  · exact .inr (.inr (.inl ⟨hb, by simp [hts], by simp [hts], s.turns, h⟩))
  · exact .inr (.inr (.inr ⟨s.turns, h⟩))

/-! ## The invariant, part by part -/

theorem State.bufInv_iff (s : State) :
    s.bufInv = true ↔ Memory.wf s.buf = true ∧ Memory.below s.params.bufBytes s.buf = true := by
  simp only [State.bufInv, Bool.and_eq_true]

theorem State.flagInv_iff (s : State) : s.flagInv = true ↔ (s.done = true → s.busy = false) := by
  unfold State.flagInv
  cases s.busy <;> cases s.done <;> simp

theorem State.resultInv_iff (s : State) :
    s.resultInv = true ↔ errReported s.err = true ∧ (s.err = 0 ∨ s.resultLen = 0 ∧ s.palSize = 0) ∧
      s.palSize.toNat ≤ paletteMax ∧ s.resultLen.toNat ≤ s.params.bufBytes := by
  simp only [State.resultInv, Bool.and_eq_true, Bool.or_eq_true, decide_eq_true_eq, and_assoc]
  rfl

theorem State.inv_iff (s : State) :
    s.inv = true ↔ s.params.wf = true ∧ s.bufInv = true ∧ s.flagInv = true ∧ s.resultInv = true := by
  simp only [State.inv, Bool.and_eq_true, and_assoc]

/-! ## The invariant is kept -/

/-- The host keeps every part: `BUF` in form and in bounds, DONE only where it was, and the results as they were. -/
theorem HostEffect.inv {s t : State} (h : HostEffect s t) (hs : s.inv = true) : t.inv = true := by
  obtain ⟨hp, ⟨he, hl, hn⟩, -, hdone, hbuf⟩ := h
  rw [State.inv_iff, State.bufInv_iff, State.flagInv_iff, State.resultInv_iff] at hs ⊢
  rw [hp, he, hl, hn]
  obtain ⟨hpar, ⟨hwf, hbelow⟩, hflag, hres⟩ := hs
  refine ⟨hpar, ?_, fun hd => ?_, hres⟩
  · rcases hbuf with hb | ⟨-, a, n, v, hin, hb⟩ <;> rw [hb]
    · exact ⟨hwf, hbelow⟩
    · refine ⟨Memory.wf_memWrite _ _ _ _ hwf, Memory.below_writeBytes _ _ _ _ hbelow (.inr ?_)⟩
      rwa [leBytes_length]
  · obtain ⟨hd, hb⟩ := hdone hd
    exact hb.trans (hflag hd)

/-- A successful command writes inside `BUF`, its length fits `BUF`, and its palette has at most 16 entries. -/
theorem State.finishOk_inv (i : Instr) (r : Output) (s : State) (hs : s.inv = true)
    (hr : computeOf i s.params s.snap s.buf = .ok r) : (s.finishOk r).inv = true := by
  obtain ⟨hwithin, hin, -, hpal⟩ := computeOf_fits i _ _ _ r hr
  have hlen : r.len ≤ s.params.bufBytes := by
    have : r.len ≤ outputUnit i * r.len := Nat.le_mul_of_pos_left _ (by cases i <;> decide)
    omega
  rw [State.inv_iff, State.bufInv_iff] at hs
  obtain ⟨hpar, ⟨hwf, hbelow⟩, -, -⟩ := hs
  rw [State.inv_iff, State.bufInv_iff, State.flagInv_iff, State.resultInv_iff]
  exact ⟨hpar, ⟨Memory.wf_applyWrites _ _ hwf, Memory.below_applyWrites _ _ _ hbelow
      (writesBelow_of_within _ _ _ _ hwithin hin)⟩, fun _ => rfl,
    rfl, .inl rfl, (toNat_ofNat_le _ _).trans hpal, (toNat_ofNat_le _ _).trans hlen⟩

/-- A failed command leaves `BUF` alone and reports a code of R200 with no length and no palette. -/
theorem State.finishError_inv (c : Cause) (s : State) (hs : s.inv = true) : (s.finishError c).inv = true := by
  rw [State.inv_iff] at hs
  obtain ⟨hpar, hbuf, -, -⟩ := hs
  rw [State.inv_iff, State.flagInv_iff, State.resultInv_iff]
  exact ⟨hpar, hbuf, fun _ => rfl, (Cause.code_reported c).1, .inr ⟨rfl, rfl⟩, Nat.zero_le _, Nat.zero_le _⟩

theorem completionStep_inv (s t : State) (hs : s.inv = true) (h : completionStep s = .next t) : t.inv = true := by
  rcases completionStep_next s t h with ⟨i, r, hr, rfl⟩ | ⟨c, rfl⟩
  · exact State.finishOk_inv i r s hs hr
  · exact State.finishError_inv c s hs

theorem State.resetBlock_inv (s : State) (hs : s.inv = true) : s.resetBlock.inv = true :=
  (State.resetWith_inv s.params).trans ((State.inv_iff s).1 hs).1

/-- Settles O52: reset, a completion and a turn of the host each keep the invariant, which the schedule is no part
of. -/
theorem stepKeepsInvariant : Obligations.StepKeepsInvariant := by
  intro s t hs h
  rcases step_next s t h with ⟨-, ts, rfl⟩ | ⟨ts, rfl⟩ | ⟨-, -, -, ts, h⟩ | ⟨ts, h⟩
  · exact State.resetBlock_inv (s.setTurns ts) hs
  · exact hs
  · exact completionStep_inv (s.setTurns ts) t hs h
  · exact (hostTurn_effect _ t h).inv hs

/-! ## Written bytes, DONE and the results in every step -/

/-- Settles O54: whoever moves writes bytes and takes none away; only the reset turn, which is excluded, does. -/
theorem writtenBytesStayWritten : Obligations.WrittenBytesStayWritten := by
  intro s t h hrst a ha
  rcases step_next s t h with ⟨hr, -⟩ | ⟨ts, rfl⟩ | ⟨-, -, -, ts, h⟩ | ⟨ts, h⟩
  · exact absurd hr hrst
  · exact ha
  · rcases completionStep_next _ t h with ⟨i, r, -, rfl⟩ | ⟨c, rfl⟩
    · exact isSome_read_applyWrites r.writes s.buf a ha
    · exact ha
  · rcases (hostTurn_effect _ t h).buf with hb | ⟨-, x, n, v, -, hb⟩ <;> rw [hb]
    · exact ha
    · exact Memory.isSome_read_writeBytes _ _ x a ha

/-- Settles O58: a reset and the host leave DONE low, so the step is a completion. -/
theorem doneRisesOnlyAtCompletion : Obligations.DoneRisesOnlyAtCompletion := by
  intro s t h hs ht
  have hlow : ¬ s.done = true := by simp [hs]
  rcases step_next s t h with ⟨-, ts, rfl⟩ | ⟨ts, rfl⟩ | ⟨hb, hhost, hrst, ts, h⟩ | ⟨ts, h⟩
  · exact absurd ht (by simp)
  · exact absurd ht hlow
  · exact ⟨hb, (completionStep_flags _ t h).1, hhost, hrst⟩
  · exact absurd ((hostTurn_effect _ t h).done ht).1 hlow

/-- Settles O59: the host leaves the results as they are, and a reset is excluded, so the step is a completion. -/
theorem resultsChangeOnlyAtCompletion : Obligations.ResultsChangeOnlyAtCompletion := by
  intro s t h hrst hne
  rcases step_next s t h with ⟨hr, -⟩ | ⟨ts, rfl⟩ | ⟨hb, -, -, ts, h⟩ | ⟨ts, h⟩
  · exact absurd hr hrst
  · exact absurd ⟨rfl, rfl, rfl⟩ hne
  · exact ⟨hb, completionStep_flags _ t h⟩
  · obtain ⟨he, hl, hn⟩ := (hostTurn_effect _ t h).results
    exact absurd ⟨he, hl, hn⟩ hne

/-! ## A running command and the host (spec/10_state.md R22) -/

/-- While a command runs a host turn leaves `BUF` as it is. -/
theorem HostEffect.buf_of_busy {s t : State} (h : HostEffect s t) (hb : s.busy = true) : t.buf = s.buf := by
  rcases h.buf with hbuf | ⟨hidle, -⟩
  · exact hbuf
  · rw [hb] at hidle
    cases hidle

/-- Settles O55: the effect of a host turn, read for a running command. -/
theorem hostCannotDisturbRunningCommand : Obligations.HostCannotDisturbRunningCommand := by
  intro s t hb h
  have he := hostTurn_effect s t h
  obtain ⟨hbusy, hop, hsnap⟩ := he.running hb
  exact ⟨hbusy, hop, hsnap, he.buf_of_busy hb, he.params, he.results⟩

/-- One computation completed in two states with the same `BUF`: the same results and the same `BUF` after it. -/
theorem complete_same_buf (r : Except Halt Output) (s t u : State) (hbuf : t.buf = s.buf)
    (h : complete r s = .next u) :
    ∃ v, complete r t = .next v ∧ v.buf = u.buf ∧ SameResults u v ∧ v.ops = t.ops := by
  rcases (complete_next r s u).1 h with ⟨o, rfl, rfl⟩ | ⟨c, rfl, rfl⟩
  · exact ⟨t.finishOk o, rfl, by rw [State.finishOk_buf, State.finishOk_buf, hbuf], ⟨rfl, rfl, rfl⟩, rfl⟩
  · exact ⟨t.finishError c, rfl, hbuf, ⟨rfl, rfl, rfl⟩, rfl⟩

/-- Settles O56: a host turn leaves all four things that the completion's computation reads. -/
theorem hostWritesDoNotReachRunningCommand : Obligations.HostWritesDoNotReachRunningCommand := by
  intro s t hb h
  obtain ⟨-, hop, hsnap, hbuf, hparams, -⟩ := hostCannotDisturbRunningCommand s t hb h
  rw [completionStep_eq_acceptedCompute s, completionStep_eq_acceptedCompute t, hop, hsnap, hbuf, hparams]
  exact ⟨fun u hu => complete_same_buf _ s t u hbuf hu, fun f hf => complete_fault_same _ s t f hf⟩

end Sys2Proof.Machine
end

section
/-! PROOF. The registers and the bus port: what a register reads after a write to it or to another one
(spec/10_state.md R23 to R50), after reset (R54), and which transactions the port rejects (spec/20_memory.md R64,
R65). -/

namespace Sys2Proof.Machine

/-! ## A written register reads back its bits (spec/10_state.md R23, R50) -/

theorem boolWord_ctrl (v : Word) : boolWord (v.getLsbD 0) = v &&& 0x00000001 := by
  apply BitVec.eq_of_getLsbD_eq
  intro k hk
  rw [boolWord_getLsbD]
  interval_cases k <;> simp

theorem byteWord_extract (v : Word) : byteWord (v.extractLsb' 0 8) = v &&& 0x000000FF := by
  apply BitVec.eq_of_getLsbD_eq
  intro k hk
  interval_cases k <;> simp [byteWord]

theorem gapWord_extract (v : Word) : gapWord (v.extractLsb' 0 15) = v &&& 0x00007FFF := by
  apply BitVec.eq_of_getLsbD_eq
  intro k hk
  interval_cases k <;> simp [gapWord]

theorem pairWord_pairOfWord (v : Word) : pairWord (pairOfWord v) = v &&& 0x7FFF7FFF := by
  apply BitVec.eq_of_getLsbD_eq
  intro k hk
  rw [pairWord_getLsbD]
  interval_cases k <;> simp [pairOfWord]

theorem tmCtrlWord_write (v : Word) (o : OperandRegs) :
    tmCtrlWord (writeOperand .tmCtrl v o) = v &&& 0x00000003 := by
  apply BitVec.eq_of_getLsbD_eq
  intro k hk
  rw [tmCtrlWord_getLsbD]
  interval_cases k <;> simp [writeOperand]

theorem necArgWord_write (v : Word) (o : OperandRegs) :
    necArgWord (writeOperand .necArg v o) = v &&& 0xFFFFFFFF := by
  apply BitVec.eq_of_getLsbD_eq
  intro k hk
  rw [necArgWord_getLsbD]
  interval_cases k <;> simp [writeOperand]

theorem and_allOnes32 (v : Word) : v = v &&& 0xFFFFFFFF := BitVec.and_allOnes.symm

/-- A RW register keeps the bits of its mask and reads every other bit as 0. -/
theorem readReg_writeReg_same (r : Reg) (v : Word) (s : State) (h : r.readWrite = true) :
    readReg r (writeReg r v s) = v &&& r.mask := by
  cases r with
  | id | bufsize | status | cmd | err | resultLen | palSize => exact absurd h (by decide)
  | ctrl => exact boolWord_ctrl v
  | srcAddr | srcLen | dstAddr | dstCap | tmCarrier => exact and_allOnes32 v
  | tmCtrl => exact tmCtrlWord_write v s.ops
  | tmDuty | tmRepeat => exact byteWord_extract v
  | tmHdr | tmBit1 | tmBit0 | tmFtr => exact pairWord_pairOfWord v
  | tmGap => exact gapWord_extract v
  | necArg => exact necArgWord_write v s.ops

/-- No register shows the port's answer. -/
@[simp] theorem readReg_respond (r : Reg) (x : Response) (s : State) : readReg r (s.respond x) = readReg r s := by
  cases r <;> rfl

/-- Settles O15: the write is taken at once, and the read returns the bits of the mask. -/
theorem registersReadBackTheirFields : Obligations.RegistersReadBackTheirFields := by
  intro s r v hr
  refine ⟨_, transact_writeReg r v s, ?_⟩
  rw [transact_readReg, readReg_respond, readReg_writeReg_same r v s hr]
  rfl

/-! ## A write leaves every other register alone (spec/10_state.md R23) -/

/-- A `CMD` write shows in no register but `STATUS`. -/
theorem readReg_writeCmd (q : Reg) (v : Word) (s : State) (hq : q ≠ .status) :
    readReg q (s.writeCmd v) = readReg q s := by
  unfold State.writeCmd
  split <;> cases q with
  | status => exact absurd rfl hq
  | _ => rfl

/-- Two registers hold different fields of the state: each pair of them is by evaluation, but for the pairs of a
register with itself, which are excluded. -/
theorem readReg_writeReg_other (q r : Reg) (v : Word) (s : State) (hq : q ≠ r) (hcmd : r = .cmd → q ≠ .status) :
    readReg q (writeReg r v s) = readReg q s := by
  cases r with
  | cmd => exact readReg_writeCmd q v s (hcmd rfl)
  | _ => cases q <;> first | rfl | exact absurd rfl hq

/-- What no register write touches. -/
structure RegisterFrame (s t : State) : Prop where
  buf : t.buf = s.buf
  params : t.params = s.params
  host : t.host = s.host
  turns : t.turns = s.turns

theorem writeReg_frame (r : Reg) (v : Word) (s : State) : RegisterFrame s (writeReg r v s) := by
  cases r with
  | cmd =>
    simp only [writeReg, State.writeCmd]
    split <;> exact ⟨rfl, rfl, rfl, rfl⟩
  | _ => exact ⟨rfl, rfl, rfl, rfl⟩

/-- The hidden state and BUSY change by a `CMD` write alone. -/
theorem writeReg_hidden (r : Reg) (v : Word) (s : State) (h : r ≠ .cmd) :
    (writeReg r v s).curOp = s.curOp ∧ (writeReg r v s).snap = s.snap ∧ (writeReg r v s).busy = s.busy := by
  cases r with
  | cmd => exact absurd rfl h
  | _ => exact ⟨rfl, rfl, rfl⟩

/-- Settles O16: other registers, `BUF` and the hidden state, in this order. -/
theorem registerWritesTouchOneRegister : Obligations.RegisterWritesTouchOneRegister := by
  intro s r v
  obtain ⟨hbuf, hparams, hhost, hturns⟩ := writeReg_frame r v s
  refine ⟨_, transact_writeReg r v s, fun q hq hcmd => ?_, hbuf, hparams, hhost, hturns, writeReg_hidden r v s⟩
  rw [readReg_respond, readReg_writeReg_other q r v s hq hcmd]

/-! ## Read-only registers and reserved offsets (spec/10_state.md R24, R25, R30 to R32, R48) -/

theorem regReachable_iff (t : Txn) : regReachable t = true ↔ t.width = .four ∧ t.offset % 4 = 0 := by
  simp only [regReachable, Bool.and_eq_true, decide_eq_true_eq]
  cases t.width <;> simp [Width.bytes]

theorem regAt_reserved (off : Nat) (h : 0x058 ≤ off) : regAt off = none := by
  refine List.find?_eq_none.2 fun r _ hr => ?_
  have hlt : r.offset < 0x058 := by cases r <;> decide
  have : r.offset = off := of_decide_eq_true hr
  omega

/-- A 4-byte aligned transaction in the register region is a register access. -/
theorem transact_regAccess (t : Txn) (s : State) (h1 : t.offset < regRegionEnd) (h2 : t.width = .four)
    (h3 : t.offset % 4 = 0) : transact t s = .next (regAccess t s) := by
  rw [transact, if_pos h1, if_pos ((regReachable_iff t).2 ⟨h2, h3⟩)]

/-- Settles O17: no register stands at a reserved offset. -/
theorem readOnlyAndReservedIgnoreWrites : Obligations.ReadOnlyAndReservedIgnoreWrites := by
  refine ⟨fun s r v hr => ?_, fun s off v hlo hhi halign => ?_⟩
  · rw [transact_writeReg]
    rcases hr with rfl | rfl | rfl | rfl | rfl <;> rfl
  · have hlt : off < regRegionEnd := by simp only [regRegionEnd]; omega
    have hnone := regAt_reserved off hlo
    rw [transact_regAccess _ s hlt rfl halign, transact_regAccess _ s hlt rfl halign]
    simp only [regAccess, writeOffset, readOffset, hnone]
    exact ⟨rfl, rfl⟩

/-! ## The status and result registers (spec/10_state.md R27 to R32) -/

/-- Settles O18, bit by bit of `STATUS`. -/
theorem statusAndResultsRead : Obligations.StatusAndResultsRead := by
  intro s
  have hbit (k : Nat) := statusWord_getLsbD s k
  refine ⟨hbit 0, hbit 1, ?_, hbit 3, fun k hk => ?_, ?_, rfl, ?_⟩
  · rw [readReg, hbit 2]
    exact decide_eq_true_iff
  · rw [readReg, hbit k, if_neg (by omega), if_neg (by omega), if_neg (by omega), if_neg (by omega)]
  · exact BitVec.toNat_setWidth_of_le (by decide)
  · exact BitVec.toNat_setWidth_of_le (by decide)

/-- Settles O19: BUSY and DONE never hold together, so a write beside a running command finds DONE 0. -/
theorem statusWriteClearsOnlyDoneAndLost : Obligations.StatusWriteClearsOnlyDoneAndLost := by
  intro s v
  refine ⟨_, transact_writeReg .status v s, rfl, fun hb hf => ?_, fun u hu => (completionStep_flags _ u hu).2⟩
  have hd : s.done = false := Bool.eq_false_iff.2 fun hd => by simp [(State.flagInv_iff s).1 hf hd] at hb
  change (s.done && !(v.getLsbD 1)) = s.done
  rw [hd, Bool.false_and]

/-- Settles O20: the two branches of a `CMD` write. -/
theorem commandWriteAcceptsOrIsLost : Obligations.CommandWriteAcceptsOrIsLost := by
  intro s v
  refine ⟨fun hb => ?_, fun hb => ?_, transact_readReg .cmd s⟩
  · refine (transact_writeReg .cmd v s).trans ?_
    rw [writeReg, State.writeCmd_busy v s hb]
    rfl
  · refine (transact_writeReg .cmd v s).trans ?_
    rw [writeReg, State.writeCmd_idle v s hb]
    rfl

/-! ## The carrier registers (spec/10_state.md R36) -/

/-- The state with other carrier registers. -/
def State.setCarrier (hz : Word) (pct : BitVec 8) (s : State) : State := { s with tmCarrier := hz, tmDuty := pct }

/-- A completion carries the carrier registers along. -/
theorem complete_setCarrier (hz : Word) (pct : BitVec 8) (r : Except Halt Output) (s : State) :
    complete r (s.setCarrier hz pct) =
      match complete r s with
      | .next t => .next (t.setCarrier hz pct)
      | .fault f => .fault f
      | .refused x => .refused x := by
  rcases r with (c | a) | o <;> rfl

theorem writeCmd_snap_setCarrier (hz : Word) (pct : BitVec 8) (v : Word) (s : State) :
    ((s.setCarrier hz pct).writeCmd v).snap = (s.writeCmd v).snap := by
  have hb : (s.setCarrier hz pct).busy = s.busy := rfl
  unfold State.writeCmd
  rw [hb]
  split <;> rfl

/-- Settles O22: a command's computation reads the snapshot, which has no carrier field. -/
theorem carrierHasNoEffect : Obligations.CarrierHasNoEffect := by
  refine fun s hz pct => ⟨fun i => ?_, fun v => writeCmd_snap_setCarrier hz pct v s⟩
  rw [exec_eq_complete i s]
  exact (exec_eq_complete i _).trans (complete_setCarrier hz pct _ s)

/-! ## Bus errors (spec/20_memory.md R64, R65, R74) -/

theorem bufReachable_iff (p : Params) (a n : Nat) :
    bufReachable p a n = true ↔ a % n = 0 ∧ a + n ≤ p.bufBytes := by
  simp only [bufReachable, Bool.and_eq_true, decide_eq_true_eq]

/-- A read of `BUF` may find an unwritten byte, but is no bus error. -/
theorem bufRead_not_busError (a n : Nat) (s : State) (off w : Nat) : bufRead a n s ≠ .fault (.hostBusError off w) := by
  unfold bufRead
  split <;> simp

/-- An access to `BUF` is a bus error exactly where no command runs and it is not aligned and inside `BUF`. -/
theorem bufAccess_busError_iff (t : Txn) (s : State) :
    bufAccess t s = .fault (.hostBusError t.offset t.width.bytes) ↔
      ¬ (s.busy = true ∨ bufReachable s.params (t.offset - bufBase) t.width.bytes = true) := by
  unfold bufAccess
  split
  · rename_i hb
    simp [hb]
  · rename_i hb
    split
    · rename_i hr
      refine iff_of_false ?_ (by simp [hr])
      split
      · exact bufRead_not_busError _ _ s _ _
      · simp
    · rename_i hr
      exact iff_of_true rfl (not_or.2 ⟨hb, hr⟩)

/-- Settles O23, region by region of the window map. -/
theorem busErrorsExactly : Obligations.BusErrorsExactly := by
  intro s t
  unfold transact
  split
  · rename_i hreg
    have hbelow : ¬ 0x1000 ≤ t.offset := by simp only [regRegionEnd] at hreg; omega
    have hregion : t.offset < 0x100 := hreg
    simp only [hregion, hbelow, true_and, false_and, or_false, ← regReachable_iff]
    split
    · rename_i hr
      exact iff_of_false (by simp) (not_not.2 hr)
    · rename_i hr
      exact iff_of_true rfl hr
  · rename_i hreg
    have hregion : ¬ t.offset < 0x100 := hreg
    simp only [hregion, false_and, false_or]
    split
    · rename_i hgap
      exact iff_of_true rfl fun h => absurd h.1 (Nat.not_le.2 hgap)
    · rename_i hgap
      have hbase : 0x1000 ≤ t.offset := Nat.not_lt.1 hgap
      split
      · rename_i hbuf
        have hend : t.offset < 0x1000 + s.params.bufBytes := hbuf
        rw [bufAccess_busError_iff, bufReachable_iff]
        simp only [hbase, hend, true_and]
        rfl
      · rename_i hbuf
        exact iff_of_true rfl fun h => absurd h.2.1 hbuf

/-! ## Reset (spec/10_state.md R54) -/

@[simp] theorem statusWord_resetWith (p : Params) : (State.resetWith p).statusWord = 0 := by
  simp [State.statusWord, State.error, State.resetWith, boolWord]

@[simp] theorem pairWord_zero : pairWord ⟨0, 0⟩ = 0 := by decide

@[simp] theorem tmCtrlWord_zero : tmCtrlWord OperandRegs.zero = 0 := by decide

@[simp] theorem necArgWord_zero : necArgWord OperandRegs.zero = 0 := by decide

/-- After reset `ID` and `BUFSIZE` read their constants and every other register 0. -/
theorem readReg_resetWith (p : Params) (r : Reg) :
    readReg r (State.resetWith p)
      = if r = .id then p.blockId else if r = .bufsize then BitVec.ofNat 32 p.bufBytes else 0 := by
  cases r with
  | status => exact statusWord_resetWith p
  | tmCtrl => exact tmCtrlWord_zero
  | tmHdr | tmBit1 | tmBit0 | tmFtr => exact pairWord_zero
  | necArg => exact necArgWord_zero
  | _ => rfl

/-- A reset block's registers read as those of a block just built with its parameters. -/
theorem readReg_resetBlock (s : State) (r : Reg) :
    readReg r s.resetBlock
      = if r = .id then s.params.blockId else if r = .bufsize then BitVec.ofNat 32 s.params.bufBytes else 0 := by
  have hsame : readReg r s.resetBlock = readReg r (State.resetWith s.params) := by cases r <;> rfl
  rw [hsame, readReg_resetWith]

/-- Settles O4, for the reset port and for the state right after reset. -/
theorem resetLeavesSpecValues : Obligations.ResetLeavesSpecValues :=
  ⟨fun s => ⟨readReg_resetBlock s, rfl, fun _ => rfl, rfl⟩,
    fun p => ⟨readReg_resetWith p, rfl, fun _ => rfl, rfl⟩⟩

theorem step_reset (s : State) (ts : List Turn) (h : s.turns = .rst :: ts) :
    step s = .next (s.setTurns ts).resetBlock := by
  rw [step, h]

/-- Settles O5: BUSY plays no part in a reset turn. -/
theorem resetTurnAbandonsTheCommand : Obligations.ResetTurnAbandonsTheCommand := fun s ts h =>
  ⟨_, step_reset s ts h, readReg_resetBlock (s.setTurns ts), rfl, rfl, rfl, rfl, rfl, rfl, rfl, rfl, rfl, rfl, rfl,
    fun _ => rfl, rfl, rfl, rfl⟩

/-! ## The word placed next (spec/10_state.md R29) -/

/-- A number decodes to a command exactly where it is the command's (spec/30_encoding.md R82). -/
theorem decodeOp_ok_iff (op : BitVec 4) (i : Instr) : decodeOp op = .ok i ↔ op = opcode i := by
  revert op
  cases i <;> decide

/-- The decoder of a table word reads the word's OP field and nothing else (spec/30_encoding.md R81). -/
theorem decodeTableWord_some (nbits w : Nat) (i : Instr) (h : decodeTableWord nbits w = some i) :
    opField (tableWord nbits w) = opcode i := by
  simp only [decodeTableWord, commandBytes, decodeBytes, wordOfBytes_commandBytes, decode] at h
  cases hd : decodeOp (opField (tableWord nbits w)) with
  | ok j =>
    simp only [hd, Option.some.injEq] at h
    exact h ▸ (decodeOp_ok_iff _ j).1 hd
  | error e => simp [hd] at h

/-- A step on a turn of the engine beside a running command is its completion. -/
theorem step_engine (s : State) (ts : List Turn) (h : s.turns = .engine :: ts) (hb : s.busy = true) :
    step s = completionStep (s.setTurns ts) := by
  rw [step, h]
  exact if_pos hb

theorem completionStep_of_opcode (s : State) (i : Instr) (h : s.curOp = opcode i) : completionStep s = exec i s := by
  rw [completionStep_eq, (decodeOp_ok_iff s.curOp i).2 h]

/-- Settles O8: the placed turn is the engine's, and the placed number is the command's. -/
theorem fetchedWordRunsNext : Obligations.FetchedWordRunsNext := by
  intro s nbits w i h
  have hop := decodeTableWord_some nbits w i h
  rw [step_engine (s.withFetchWord nbits w) s.turns rfl rfl, completionStep_of_opcode _ i hop, ← hop]
  rfl

end Sys2Proof.Machine
end

section
/-! PROOF. `BUF` as memory (spec/20_memory.md): what the host stores in it and loads from it (R61, R65 to R67), its
accesses while a command runs (R74), the order of its transactions (R70), and the unwritten byte that a command's
source holds (R68). -/

namespace Sys2Proof.Machine

/-! ## The host's turn (spec/20_memory.md R70) -/

theorem hostTurn_access (s : State) (t : Txn) (rest : List HostOp) (h : s.host = .access t :: rest) :
    hostTurn s = transact t (s.setHost rest) := by
  rw [hostTurn, h]

theorem step_host (s : State) (ts : List Turn) (h : s.turns = .host :: ts) : step s = hostTurn (s.setTurns ts) := by
  rw [step, h]

theorem step_idle_unscheduled (s : State) (h : s.turns = []) (hb : s.busy = false) : step s = hostTurn s := by
  rw [step, h, hb]
  rfl

/-- Settles O11: both steps are turns of the host, whose next operation is the transaction. -/
theorem hostTurnTakesOneTransaction : Obligations.HostTurnTakesOneTransaction := by
  refine fun s t rest h => ⟨fun ts hts => ?_, fun hts hb => ?_⟩
  · rw [step_host s ts hts, hostTurn_access (s.setTurns ts) t rest h]
    rfl
  · rw [step_idle_unscheduled s hts hb, hostTurn_access s t rest h]
    rfl

/-! ## Accesses while a command runs (spec/20_memory.md R65, R74) -/

theorem transact_busy_buf (t : Txn) (s : State) (hb : s.busy = true) (h1 : bufBase ≤ t.offset)
    (h2 : t.offset < bufRegionEnd s.params) : transact t s = .fault (.busyBufAccess (t.offset - bufBase)) := by
  have hreg : ¬ t.offset < regRegionEnd := by
    simp only [bufBase] at h1
    simp only [regRegionEnd]
    omega
  rw [transact, if_neg hreg, if_neg (Nat.not_lt.2 h1), if_pos h2, bufAccess, if_pos hb]

/-- Settles O24: the `BUF` region asks for BUSY first, the register region not at all. -/
theorem bufAccessWhileBusyFaults : Obligations.BufAccessWhileBusyFaults := fun s t hb =>
  ⟨fun h1 h2 => transact_busy_buf t s hb h1 h2, fun h1 h2 h3 => ⟨_, transact_regAccess t s h1 h2 h3⟩⟩

/-! ## Reads have no side effect (spec/20_memory.md R67) -/

/-- Settles O28: a read that completes is one of a register or of `BUF`, and either only answers. -/
theorem readsHaveNoSideEffect : Obligations.ReadsHaveNoSideEffect := by
  intro s u off w h
  rcases transact_next _ s u h with ⟨-, -, rfl⟩ | ⟨-, -, -, ⟨-, v, -, rfl⟩ | ⟨v, hv, -⟩⟩
  · exact ⟨_, rfl⟩
  · exact ⟨_, rfl⟩
  · cases hv

/-! ## Bytes of a number (spec/20_memory.md R61) -/

theorem leBytes_getElem (n v k : Nat) (h : k < (leBytes n v).length) :
    (leBytes n v)[k] = BitVec.ofNat 8 (v / 256 ^ k) := by
  induction n generalizing v k with
  | zero => simp at h
  | succ n ih =>
    cases k with
    | zero => simp [leBytes]
    | succ k =>
      simp only [leBytes, List.getElem_cons_succ, ih]
      rw [Nat.div_div_eq_div_mul, Nat.pow_succ']

/-- Byte `k` of a number that bytes make up is the byte at place `k`. -/
theorem leNat_div_pow (bs : List Byte) (k : Nat) (h : k < bs.length) :
    BitVec.ofNat 8 (leNat bs / 256 ^ k) = bs[k] := by
  induction bs generalizing k with
  | nil => simp at h
  | cons b bs ih =>
    have hb := b.isLt
    cases k with
    | zero =>
      apply BitVec.eq_of_toNat_eq
      simp only [leNat, List.getElem_cons_zero, BitVec.toNat_ofNat, pow_zero]
      omega
    | succ k =>
      have hdiv : leNat (b :: bs) / 256 = leNat bs := by
        rw [leNat]
        omega
      rw [Nat.pow_succ', ← Nat.div_div_eq_div_mul, hdiv, ih k (by simpa using h), List.getElem_cons_succ]

/-- Byte `k` of a word as a part of its number. -/
theorem extract_byte (v : Word) (k : Nat) : v.extractLsb' (8 * k) 8 = BitVec.ofNat 8 (v.toNat / 256 ^ k) := by
  rw [← BitVec.toNat_inj, BitVec.extractLsb'_toNat, BitVec.toNat_ofNat, Nat.shiftRight_eq_div_pow, Nat.pow_mul]

/-! ## Stores and loads (spec/20_memory.md R61, R65, R66) -/

theorem read_memWrite_same (m : Memory) (a n v k : Nat) (h : k < n) :
    Memory.read (memWrite m a n v) (a + k) = some (BitVec.ofNat 8 (v / 256 ^ k)) := by
  have hk : k < (leBytes n v).length := by rwa [leBytes_length]
  rw [memWrite, Memory.read_writeBytes_same _ _ _ _ hk, leBytes_getElem]

theorem read_memWrite_other (m : Memory) (a n v c : Nat) (h : c < a ∨ a + n ≤ c) :
    Memory.read (memWrite m a n v) c = Memory.read m c :=
  Memory.read_writeBytes_other _ _ _ _ (by rwa [leBytes_length])

/-- Settles O25: the store is one write of the data's low bytes. -/
theorem hostWriteStoresLittleEndian : Obligations.HostWriteStoresLittleEndian := by
  intro s w a v hb halign hin
  refine ⟨_, transact_idle_buf a w (.write v) s hb halign hin, fun k hk => ?_, fun c hc => ?_, rfl⟩
  · rw [extract_byte]
    exact read_memWrite_same s.buf a w.bytes v.toNat k hk
  · exact read_memWrite_other s.buf a w.bytes v.toNat c hc

/-- A part of a stored number, loaded. -/
theorem load_memWrite (m : Memory) (a n v k j : Nat) (h : k + j ≤ n) :
    Memory.load (memWrite m a n v) (a + k) j = .ok (v / 256 ^ k % 256 ^ j) := by
  have hbytes : Memory.bytesAt (memWrite m a n v) (a + k) j = .ok (leBytes j (v / 256 ^ k)) := by
    refine (Memory.bytesAt_ok _ _ _ _).2 ⟨leBytes_length _ _, fun i hi => ?_⟩
    rw [leBytes_length] at hi
    rw [Nat.add_assoc, read_memWrite_same _ _ _ _ _ (by omega), leBytes_getElem, Nat.div_div_eq_div_mul, Nat.pow_add]
  rw [Memory.load, hbytes, ← leNat_leBytes]
  rfl

/-- A host read of `BUF` that finds its bytes written answers with their number. -/
theorem bufRead_of_load (a n x : Nat) (s : State) (h : Memory.load s.buf a n = .ok x) :
    bufRead a n s = .next (s.respond (.readData (BitVec.ofNat 32 x))) := by
  rw [bufRead, h]

theorem bufRead_of_unwritten (a n b : Nat) (s : State) (h : Memory.load s.buf a n = .error b) :
    bufRead a n s = .fault (.unwrittenRead b) := by
  rw [bufRead, h]

/-- An idle block's read of a part of the four bytes just stored. -/
theorem transact_read_bufStore (s : State) (a : Nat) (v : Word) (k : Nat) (w : Width) (x : Word)
    (hb : s.busy = false) (hin : a + 4 ≤ s.params.bufBytes) (hk : k + w.bytes ≤ 4) (halign : (a + k) % w.bytes = 0)
    (hx : v.toNat / 256 ^ k % 256 ^ w.bytes = x.toNat) :
    transact ⟨bufBase + (a + k), w, .read⟩ (bufStore a 4 v s) = .next ((bufStore a 4 v s).respond (.readData x)) := by
  have hfit : a + k + w.bytes ≤ s.params.bufBytes := by omega
  have hload := bufRead_of_load _ _ _ (bufStore a 4 v s) (load_memWrite s.buf a 4 v.toNat k w.bytes hk)
  rw [hx, BitVec.ofNat_toNat, BitVec.setWidth_eq] at hload
  exact (transact_idle_buf (a + k) w .read (bufStore a 4 v s) hb halign hfit).trans hload

theorem low_half_toNat (v : Word) : v.toNat / 256 ^ 0 % 256 ^ 2 = (v &&& 0xFFFF).toNat := by
  rw [pow_zero, Nat.div_one, BitVec.toNat_and]
  exact (Nat.and_two_pow_sub_one_eq_mod _ 16).symm

theorem high_half_toNat (v : Word) : v.toNat / 256 ^ 2 % 256 ^ 2 = (v >>> 16).toNat := by
  have hlt : v.toNat / 256 ^ 2 < 256 ^ 2 := Nat.div_lt_of_lt_mul v.isLt
  rw [Nat.mod_eq_of_lt hlt, BitVec.toNat_ushiftRight, Nat.shiftRight_eq_div_pow]
  rfl

theorem byte_toNat (v : Word) (k : Nat) : v.toNat / 256 ^ k % 256 ^ 1 = (v >>> (8 * k) &&& 0xFF).toNat := by
  rw [BitVec.toNat_and, BitVec.toNat_ushiftRight, Nat.shiftRight_eq_div_pow, Nat.pow_mul]
  exact (Nat.and_two_pow_sub_one_eq_mod _ 8).symm

/-- Settles O27: each narrower read is one of a part of the stored number. -/
theorem mixedWidthReadsSeeOneWrite : Obligations.MixedWidthReadsSeeOneWrite := by
  intro s a v hb halign hin
  refine ⟨bufStore a 4 v s, transact_idle_buf a .four (.write v) s hb halign hin, ?_, ?_, fun k hk => ?_⟩
  · have heven : (a + 0) % 2 = 0 := by omega
    exact transact_read_bufStore s a v 0 .two _ hb hin (by decide) heven (low_half_toNat v)
  · have heven : (a + 2) % 2 = 0 := by omega
    exact transact_read_bufStore s a v 2 .two _ hb hin (by decide) heven (high_half_toNat v)
  · exact transact_read_bufStore s a v k .one _ hb hin hk (Nat.mod_one _) (byte_toNat v k)

/-! ## The first unwritten byte (spec/20_memory.md R68) -/

/-- `b` is the lowest unwritten offset of the `n` bytes from `a` up. -/
def Memory.FirstUnwritten (m : Memory) (a n b : Nat) : Prop :=
  ∃ j < n, b = a + j ∧ Memory.written m a j = true ∧ Memory.read m b = none

theorem Memory.FirstUnwritten.mono {m : Memory} {a n b k : Nat} (h : Memory.FirstUnwritten m a n b) (hk : n ≤ k) :
    Memory.FirstUnwritten m a k b := by
  obtain ⟨j, hj, h⟩ := h
  exact ⟨j, hj.trans_le hk, h⟩

/-- A region is written where both its parts are. -/
theorem Memory.written_add (m : Memory) (a n k : Nat) :
    Memory.written m a (n + k) = true ↔ Memory.written m a n = true ∧ Memory.written m (a + n) k = true := by
  simp only [Memory.written_iff]
  refine ⟨fun h => ⟨fun j hj => h j (by omega), fun j hj => ?_⟩, fun ⟨hn, hk⟩ j hj => ?_⟩
  · rw [Nat.add_assoc]
    exact h (n + j) (by omega)
  · by_cases hjn : j < n
    · exact hn j hjn
    · obtain ⟨i, rfl⟩ := Nat.exists_eq_add_of_le (Nat.not_lt.1 hjn)
      rw [← Nat.add_assoc]
      exact hk i (by omega)

/-- The first unwritten byte of `n + k` bytes is that of the first `n`, or that of the rest after `n` written ones. -/
theorem Memory.firstUnwritten_add (m : Memory) (a n k b : Nat) :
    Memory.FirstUnwritten m a (n + k) b ↔
      Memory.FirstUnwritten m a n b ∨ Memory.written m a n = true ∧ Memory.FirstUnwritten m (a + n) k b := by
  constructor
  · rintro ⟨j, hj, rfl, hw, hr⟩
    by_cases hjn : j < n
    · exact .inl ⟨j, hjn, rfl, hw, hr⟩
    · obtain ⟨i, rfl⟩ := Nat.exists_eq_add_of_le (Nat.not_lt.1 hjn)
      obtain ⟨hwn, hwi⟩ := (Memory.written_add m a n i).1 hw
      exact .inr ⟨hwn, i, by omega, (Nat.add_assoc _ _ _).symm, hwi, hr⟩
  · rintro (h | ⟨hwn, i, hi, rfl, hwi, hr⟩)
    · exact h.mono (Nat.le_add_right n k)
    · exact ⟨n + i, by omega, Nat.add_assoc _ _ _, (Memory.written_add m a n i).2 ⟨hwn, hwi⟩, hr⟩

theorem Memory.firstUnwritten_one (m : Memory) (a b : Nat) :
    Memory.FirstUnwritten m a 1 b ↔ b = a ∧ Memory.read m a = none := by
  constructor
  · rintro ⟨j, hj, rfl, -, hr⟩
    obtain rfl : j = 0 := by omega
    exact ⟨rfl, hr⟩
  · rintro ⟨rfl, hr⟩
    exact ⟨0, Nat.one_pos, rfl, rfl, hr⟩

theorem Memory.byteAt_error (m : Memory) (a b : Nat) :
    Memory.byteAt m a = .error b ↔ Memory.FirstUnwritten m a 1 b := by
  rw [Memory.firstUnwritten_one, Memory.byteAt]
  cases Memory.read m a <;> simp [eq_comm]

/-- A read of several bytes fails with the first unwritten one. -/
theorem Memory.bytesAt_error (m : Memory) (a n b : Nat) :
    Memory.bytesAt m a n = .error b ↔ Memory.FirstUnwritten m a n b := by
  induction n generalizing a with
  | zero => exact iff_of_false (by simp [Memory.bytesAt]) fun ⟨j, hj, _⟩ => absurd hj (Nat.not_lt_zero j)
  | succ n ih =>
    have hfirst : Memory.written m a 1 = true ↔ ∃ x, Memory.byteAt m a = .ok x := by
      simp [Memory.written, Memory.byteAt_ok, Option.isSome_iff_exists]
    rw [Memory.bytesAt, Nat.add_comm n 1, Memory.firstUnwritten_add, bind_error_iff, Memory.byteAt_error, hfirst, ← ih]
    simp [bind_error_iff]

theorem Memory.load_error (m : Memory) (a n b : Nat) :
    Memory.load m a n = .error b ↔ Memory.FirstUnwritten m a n b := by
  rw [Memory.load, bind_error_iff, Memory.bytesAt_error]
  simp

/-- Settles O26: a load takes the bytes of written offsets, or stops at the first unwritten one. -/
theorem hostReadReturnsLittleEndian : Obligations.HostReadReturnsLittleEndian := by
  intro s w a hb halign hin
  have htransact := transact_idle_buf a w .read s hb halign hin
  refine ⟨fun hw => ?_, fun j hj hw hr => ?_⟩
  · obtain ⟨bs, hbs⟩ := Memory.bytesAt_of_written s.buf w.bytes a hw
    obtain ⟨hlen, hread⟩ := (Memory.bytesAt_ok s.buf w.bytes a bs).1 hbs
    have hload : Memory.load s.buf a w.bytes = .ok (leNat bs) := by rw [Memory.load, hbs]; rfl
    have hlt : leNat bs < 256 ^ w.bytes := hlen ▸ leNat_lt bs
    have hword : (BitVec.ofNat 32 (leNat bs)).toNat = leNat bs := by
      have hle : 256 ^ w.bytes ≤ 2 ^ 32 := by cases w <;> decide
      rw [BitVec.toNat_ofNat, Nat.mod_eq_of_lt (hlt.trans_le hle)]
    refine ⟨_, htransact.trans (bufRead_of_load a w.bytes _ s hload), hword.symm ▸ hlt, fun k hk => ?_⟩
    rw [extract_byte, hword, leNat_div_pow bs k (hlen ▸ hk)]
    exact hread k _
  · exact htransact.trans (bufRead_of_unwritten a w.bytes _ s ((Memory.load_error _ _ _ _).2 ⟨j, hj, rfl, hw, hr⟩))

/-! ## Where a reader stops (spec/20_memory.md R68) -/

/-- The first unwritten byte of a part of a region is an unwritten byte of the region. -/
theorem Memory.FirstUnwritten.inside {m : Memory} {a n b lo k : Nat} (h : Memory.FirstUnwritten m a n b) (hlo : lo ≤ a)
    (hhi : a + n ≤ lo + k) : Memory.read m b = none ∧ lo ≤ b ∧ b < lo + k := by
  obtain ⟨j, hj, rfl, -, hr⟩ := h
  exact ⟨hr, by omega, by omega⟩

theorem orUnwritten_unwritten {α : Type} (r : Except Nat α) (b : Nat) :
    orUnwritten r = .error (.unwritten b) ↔ r = .error b := by
  simp

theorem readByte_unwritten (m : Memory) (a b : Nat) :
    readByte m a = .error (.unwritten b) ↔ Memory.FirstUnwritten m a 1 b := by
  rw [readByte, orUnwritten_unwritten, Memory.byteAt_error]

theorem readBytes_unwritten (m : Memory) (a n b : Nat) :
    readBytes m a n = .error (.unwritten b) ↔ Memory.FirstUnwritten m a n b := by
  rw [readBytes, orUnwritten_unwritten, Memory.bytesAt_error]

theorem memRead_unwritten (m : Memory) (a n b : Nat) :
    memRead m a n = .error (.unwritten b) ↔ Memory.FirstUnwritten m a n b := by
  rw [memRead, orUnwritten_unwritten, Memory.load_error]

theorem readSymbol_unwritten (m : Memory) (a b : Nat) :
    readSymbol m a = .error (.unwritten b) ↔ Memory.FirstUnwritten m a 2 b := by
  rw [readSymbol, bind_error_iff, memRead_unwritten]
  simp

/-- A number can be read exactly where all its bytes are written. -/
theorem written_iff_memRead (m : Memory) (a n : Nat) : Memory.written m a n = true ↔ ∃ x, memRead m a n = .ok x := by
  simp only [memRead_ok]
  refine ⟨fun h => ?_, fun ⟨_, bs, hbs, _⟩ => (Memory.written_iff _ _ _).2 fun k hk => ?_⟩
  · obtain ⟨bs, hbs⟩ := Memory.bytesAt_of_written m n a h
    exact ⟨_, bs, hbs, rfl⟩
  · obtain ⟨hlen, hread⟩ := (Memory.bytesAt_ok m n a bs).1 hbs
    rw [hread k (hlen ▸ hk), Option.isSome_some]

theorem written_iff_readSymbol (m : Memory) (a : Nat) : Memory.written m a 2 = true ↔ ∃ w, readSymbol m a = .ok w := by
  simp [written_iff_memRead, readSymbol, bind_ok_iff]

/-- A palette's entries are read one after the other, so the first unwritten byte of the region stops the reader. -/
theorem readPalette_unwritten (m : Memory) (n a b : Nat) :
    readPalette m n a = .error (.unwritten b) ↔ Memory.FirstUnwritten m a (2 * n) b := by
  induction n generalizing a with
  | zero => exact iff_of_false (by simp [readPalette]) fun ⟨j, hj, _⟩ => absurd hj (Nat.not_lt_zero j)
  | succ n ih =>
    rw [show 2 * (n + 1) = 2 + 2 * n by omega, Memory.firstUnwritten_add, written_iff_memRead, ← ih, readPalette,
      bind_error_iff, memRead_unwritten]
    simp [bind_error_iff]

/-- The decoder stops at the first symbol whose packed byte is unwritten. -/
theorem decodeSyms_unwritten (m : Memory) (base : Nat) (pal : List Dur) (n i b : Nat) :
    decodeSyms m base pal n i = .error (.unwritten b) ↔
      ∃ k < n, (∀ l < k, (Memory.read m (base + (i + l) / 2)).isSome = true) ∧
        b = base + (i + k) / 2 ∧ Memory.read m (base + (i + k) / 2) = none := by
  induction n generalizing i with
  | zero => simp [decodeSyms]
  | succ n ih =>
    rw [decodeSyms, bind_error_iff, Nat.exists_lt_succ_left, readByte_unwritten, Memory.firstUnwritten_one]
    simp only [bind_error_iff, ih, readByte_ok, Nat.forall_lt_succ_left, Nat.add_assoc i 1, Nat.add_comm 1]
    cases Memory.read m (base + i / 2) with
    | none => simp
    | some x => simp

/-- Two symbols share a packed byte, so the decoder of a whole signal stops at the first unwritten packed byte. -/
theorem decodeSyms_zero_unwritten (m : Memory) (base : Nat) (pal : List Dur) (n b : Nat) :
    decodeSyms m base pal n 0 = .error (.unwritten b) ↔ Memory.FirstUnwritten m base (ceilHalf n) b := by
  rw [decodeSyms_unwritten]
  simp only [Nat.zero_add, ceilHalf]
  constructor
  · rintro ⟨k, hk, hw, rfl, hr⟩
    refine ⟨k / 2, by omega, rfl, (Memory.written_iff _ _ _).2 fun l hl => ?_, hr⟩
    have := hw (2 * l) (by omega)
    rwa [Nat.mul_div_cancel_left l Nat.two_pos] at this
  · rintro ⟨j, hj, rfl, hw, hr⟩
    have hj2 : 2 * j / 2 = j := Nat.mul_div_cancel_left j Nat.two_pos
    refine ⟨2 * j, by omega, fun l hl => ?_, by rw [hj2], by rwa [hj2]⟩
    exact (Memory.written_iff _ _ _).1 hw (l / 2) (by omega)

/-- The scan stops at the first symbol with an unwritten byte, where the symbols before it need at most 16 buckets. -/
theorem scanTrain_unwritten (m : Memory) (tol n a i b : Nat) (pal : List Dur) (hl : pal.length ≤ paletteMax) :
    scanTrain m tol n a i pal = .error (.unwritten b) ↔
      ∃ k < n, Memory.FirstUnwritten m (a + 2 * k) 2 b ∧ Memory.written m a (2 * k) = true ∧
        ((dursAt m a k).foldl (openBucket tol) pal).length ≤ paletteMax := by
  induction n generalizing a i pal with
  | zero => simp [scanTrain]
  | succ n ih =>
    have hnext (k : Nat) : a + 2 * (k + 1) = a + 2 + 2 * k := by omega
    have hwritten (k : Nat) : Memory.written m a (2 * (k + 1)) = true ↔
        (∃ w, readSymbol m a = .ok w) ∧ Memory.written m (a + 2) (2 * k) = true := by
      rw [← written_iff_readSymbol, ← Memory.written_add, Nat.add_comm 2, Nat.mul_succ]
    rw [scanTrain, bind_error_iff, Nat.exists_lt_succ_left, readSymbol_unwritten]
    refine or_congr (by simp [Memory.written, dursAt, hl]) ?_
    simp only [hnext, hwritten, dursAt_succ, List.foldl_cons]
    cases hw : readSymbol m a with
    | error e => simp
    | ok w =>
      have hd : durAt m a 0 = durOf w := by rw [durAt, readSymbol_ok m a 0 w hw]
      rw [hd]
      cases hp : placeDur tol (durOf w) pal with
      | none =>
        obtain ⟨hfull, hopen⟩ := (placeDur_eq_none _ _ _).1 hp
        have hover (ds : List Dur) :
            ¬ (ds.foldl (openBucket tol) (openBucket tol pal (durOf w))).length ≤ paletteMax := by
          have := foldl_openBucket_length tol ds (openBucket tol pal (durOf w))
          rw [hopen, List.length_append, List.length_singleton] at this
          rw [hopen]
          omega
        simp [hp, hover]
      | some q =>
        obtain ⟨j, pal'⟩ := q
        simp [hp, bind_error_iff, ih _ _ _ (placeDur_length _ _ _ _ _ hp hl), ← placeDur_openBucket _ _ _ _ _ hp]

/-! ## Where a command stops -/

theorem checkSrcBytes_not_unwritten (p : Params) (a n b : Nat) : checkSrcBytes p a n ≠ .error (.unwritten b) := by
  simp [checkSrcBytes]

theorem checkSrcSymbols_not_unwritten (p : Params) (a n b : Nat) : checkSrcSymbols p a n ≠ .error (.unwritten b) := by
  simp [checkSrcSymbols, bind_error_iff]

theorem checkDstBytes_not_unwritten (p : Params) (a n b : Nat) : checkDstBytes p a n ≠ .error (.unwritten b) := by
  simp [checkDstBytes]

theorem checkDstSymbols_not_unwritten (p : Params) (a n b : Nat) : checkDstSymbols p a n ≠ .error (.unwritten b) := by
  simp [checkDstSymbols, bind_error_iff]

theorem checkNoOverlap_not_unwritten (s0 s1 d0 d1 b : Nat) : checkNoOverlap s0 s1 d0 d1 ≠ .error (.unwritten b) := by
  simp [checkNoOverlap]

/-- `ENC_UNIV` stops at the first unwritten byte of a payload that no check turns away. -/
theorem computeEncUniv_unwritten (p : Params) (o : OperandRegs) (m : Memory) (b : Nat) :
    computeEncUniv p o m = .error (.unwritten b) ↔
      o.tmValid = true ∧ o.len ≠ 0 ∧ o.src + o.len ≤ p.bufBytes ∧ (o.dst % 2 = 0 ∧ o.dst + 2 * o.cap ≤ p.bufBytes) ∧
      regionsOverlap o.src (o.src + o.len) o.dst (o.dst + 2 * o.cap) = false ∧ univLen o ≤ o.cap ∧
      Memory.FirstUnwritten m o.src o.len b := by
  simp only [computeEncUniv, bind_error_iff, raiseIf_error, raiseIf_ok, checkSrcBytes_not_unwritten, checkSrcBytes_ok,
    checkDstSymbols_not_unwritten, checkDstSymbols_ok, checkNoOverlap_not_unwritten, checkNoOverlap_ok,
    readBytes_unwritten, reduceCtorEq, and_false, exists_false, or_false, false_or, exists_const,
    decide_eq_false_iff_not, Bool.not_eq_false', not_lt, gt_iff_lt, ne_eq]

theorem computeEncNec_not_unwritten (p : Params) (o : OperandRegs) (b : Nat) :
    computeEncNec p o ≠ .error (.unwritten b) := by
  simp [computeEncNec, bind_error_iff, checkDstSymbols_not_unwritten]

/-- `COMPRESS` stops at the first symbol that is not wholly written, where those before it have room
(spec/42_compress.md R143, R148). -/
theorem computeCompress_unwritten (p : Params) (o : OperandRegs) (m : Memory) (b : Nat) :
    computeCompress p o m = .error (.unwritten b) ↔
      (o.src % 2 = 0 ∧ o.src + 2 * o.len ≤ p.bufBytes) ∧ o.dst + o.cap ≤ p.bufBytes ∧
      regionsOverlap o.src (o.src + 2 * o.len) o.dst (o.dst + o.cap) = false ∧
      ∃ k < o.len, Memory.FirstUnwritten m (o.src + 2 * k) 2 b ∧ Memory.written m o.src (2 * k) = true ∧
        (buckets p.paletteTol (dursAt m o.src k)).length ≤ paletteMax := by
  simp only [computeCompress, bind_error_iff, raiseIf_error, checkSrcSymbols_not_unwritten, checkSrcSymbols_ok,
    checkDstBytes_not_unwritten, checkDstBytes_ok, checkNoOverlap_not_unwritten, checkNoOverlap_ok,
    scanTrain_unwritten _ _ _ _ _ _ [] (Nat.zero_le _), buckets, reduceCtorEq, and_false, exists_false, or_false,
    false_or, exists_const]

/-- `DECOMPRESS` stops at the first unwritten byte of the header, of the palette or of the packed indices, each reached
only past the checks before it (spec/43_decompress.md R161, R167). -/
theorem computeDecompress_unwritten (p : Params) (o : OperandRegs) (m : Memory) (b : Nat) :
    computeDecompress p o m = .error (.unwritten b) ↔
      o.src + o.len ≤ p.bufBytes ∧ (o.dst % 2 = 0 ∧ o.dst + 2 * o.cap ≤ p.bufBytes) ∧
      regionsOverlap o.src (o.src + o.len) o.dst (o.dst + 2 * o.cap) = false ∧ 6 ≤ o.len ∧
      (Memory.FirstUnwritten m o.src 1 b ∨ ∃ magic, readByte m o.src = .ok magic ∧ magic = p.magic ∧
      (Memory.FirstUnwritten m (o.src + 1) 4 b ∨ ∃ count, memRead m (o.src + 1) 4 = .ok count ∧
      (Memory.FirstUnwritten m (o.src + 5) 1 b ∨ ∃ n, memRead m (o.src + 5) 1 = .ok n ∧ n ≤ paletteMax ∧
        6 + 2 * n ≤ o.len ∧
      (Memory.FirstUnwritten m (o.src + 6) (2 * n) b ∨ ∃ entries, readPalette m n (o.src + 6) = .ok entries ∧
        entries.any badEntry = false ∧ ¬(0 < count ∧ n = 0) ∧ signalLen count n ≤ o.len ∧ count ≤ o.cap ∧
      Memory.FirstUnwritten m (o.src + 6 + 2 * n) (ceilHalf count) b)))) := by
  simp only [computeDecompress, bind_error_iff, raiseIf_error, raiseIf_ok, checkSrcBytes_not_unwritten,
    checkSrcBytes_ok, checkDstSymbols_not_unwritten, checkDstSymbols_ok, checkNoOverlap_not_unwritten,
    checkNoOverlap_ok, readByte_unwritten, memRead_unwritten, readPalette_unwritten, decodeSyms_zero_unwritten,
    reduceCtorEq, and_false, exists_false, or_false, false_or, exists_const,
    decide_eq_false_iff_not, not_lt, gt_iff_lt, ne_eq, not_not]

/-- A computation reads nothing but its source region. -/
theorem computeOf_unwritten (i : Instr) (p : Params) (o : OperandRegs) (m : Memory) (b : Nat)
    (h : computeOf i p o m = .error (.unwritten b)) :
    Memory.read m b = none ∧ o.src ≤ b ∧ b < o.src + sourceBytes i o := by
  cases i with
  | encUniv =>
    obtain ⟨-, -, -, -, -, -, hfirst⟩ := (computeEncUniv_unwritten p o m b).1 h
    exact hfirst.inside le_rfl le_rfl
  | encNec => exact absurd h (computeEncNec_not_unwritten p o b)
  | compress =>
    obtain ⟨-, -, -, k, hk, hfirst, -, -⟩ := (computeCompress_unwritten p o m b).1 h
    exact hfirst.inside (Nat.le_add_right _ _) (by simp only [sourceBytes]; omega)
  | decompress =>
    obtain ⟨-, -, -, hheader, h⟩ := (computeDecompress_unwritten p o m b).1 h
    simp only [sourceBytes]
    rcases h with h | ⟨magic, -, -, h | ⟨count, -, h | ⟨n, -, -, hpal, h | ⟨entries, -, -, -, hsignal, -, h⟩⟩⟩⟩
    · exact h.inside le_rfl (by omega)
    · exact h.inside (by omega) (by omega)
    · exact h.inside (by omega) (by omega)
    · exact h.inside (by omega) (by omega)
    · rw [signalLen] at hsignal
      exact h.inside (by omega) (by omega)

/-- Settles O49: a completion faults only where its computation stops at an unwritten byte. -/
theorem commandsFaultOnlyOnUnwrittenSource : Obligations.CommandsFaultOnlyOnUnwrittenSource := by
  intro i s f h
  rw [exec_eq_complete, complete_fault] at h
  obtain ⟨b, hb, rfl⟩ := h
  exact ⟨b, rfl, computeOf_unwritten i _ _ _ b hb⟩

/-! ## The first unwritten byte a command reaches (spec/20_memory.md R68, spec/43_decompress.md R161, R167) -/

theorem bytesFit_iff (p : Params) (a n : Nat) : bytesFit p a n = true ↔ a + n ≤ p.bufBytes := decide_eq_true_iff

theorem symbolsFit_iff (p : Params) (a n : Nat) :
    symbolsFit p a n = true ↔ a % 2 = 0 ∧ a + 2 * n ≤ p.bufBytes := by
  simp only [symbolsFit, Bool.and_eq_true, decide_eq_true_eq]

theorem regionsApart_iff (a n b k : Nat) :
    regionsApart a n b k = true ↔ regionsOverlap a (a + n) b (b + k) = false := by
  simp only [regionsOverlap_false, regionsApart, Bool.or_eq_true, decide_eq_true_eq]
  omega

/-- The regions of `ENC_UNIV`, which are those of `DECOMPRESS` too: source bytes and destination symbols. -/
theorem regionsOk_encUniv_iff (s : State) :
    s.regionsOk .encUniv = true ↔
      s.snap.src + s.snap.len ≤ s.params.bufBytes ∧
      (s.snap.dst % 2 = 0 ∧ s.snap.dst + 2 * s.snap.cap ≤ s.params.bufBytes) ∧
      regionsOverlap s.snap.src (s.snap.src + s.snap.len) s.snap.dst (s.snap.dst + 2 * s.snap.cap) = false := by
  simp only [State.regionsOk, Bool.and_eq_true, bytesFit_iff, symbolsFit_iff, regionsApart_iff, and_assoc]

theorem regionsOk_compress_iff (s : State) :
    s.regionsOk .compress = true ↔
      (s.snap.src % 2 = 0 ∧ s.snap.src + 2 * s.snap.len ≤ s.params.bufBytes) ∧
      s.snap.dst + s.snap.cap ≤ s.params.bufBytes ∧
      regionsOverlap s.snap.src (s.snap.src + 2 * s.snap.len) s.snap.dst (s.snap.dst + s.snap.cap) = false := by
  simp only [State.regionsOk, Bool.and_eq_true, bytesFit_iff, symbolsFit_iff, regionsApart_iff, and_assoc]

theorem headerLen_eq (o : OperandRegs) : headerLen o = if o.tmHdr.mark = 0 then 0 else 2 := by
  have hmark : o.tmHdr.mark.toNat = 0 ↔ o.tmHdr.mark = 0 := BitVec.toNat_inj (y := 0)
  simp [headerLen, OperandRegs.hasHeader, Nat.pos_iff_ne_zero, hmark]

theorem Memory.holds_iff (m : Memory) (a n v : Nat) : Memory.holds m a n v = true ↔ memRead m a n = .ok v := by
  rw [memRead, orUnwritten_ok, Memory.holds]
  cases Memory.load m a n <;> simp

/-- A number of one byte is that byte. -/
theorem readByte_of_memRead (m : Memory) (a : Nat) (b : Byte) (h : memRead m a 1 = .ok b.toNat) :
    readByte m a = .ok b := by
  obtain ⟨bs, hbs, hnum⟩ := (memRead_ok m a 1 _).1 h
  obtain ⟨c, cs, rfl, hread, hcs⟩ := (Memory.bytesAt_succ_ok m 0 a bs).1 hbs
  obtain rfl : [] = cs := by injection hcs
  have hb : c = b := by simpa [leNat, BitVec.toNat_inj] using hnum
  rw [readByte_ok, hread, hb]

/-- A palette of 15-bit durations can be read and has no bad entry. -/
theorem readPalette_of_durs (m : Memory) (n a : Nat)
    (h : ∀ j < n, ∃ d : Dur, memRead m (a + 2 * j) 2 = .ok d.toNat) :
    ∃ entries, readPalette m n a = .ok entries ∧ entries.any badEntry = false := by
  induction n generalizing a with
  | zero => exact ⟨[], rfl, rfl⟩
  | succ n ih =>
    obtain ⟨d, hd⟩ := h 0 (Nat.succ_pos n)
    rw [Nat.mul_zero, Nat.add_zero] at hd
    obtain ⟨es, hes, hgood⟩ := ih (a + 2) fun j hj => by
      have := h (j + 1) (Nat.succ_lt_succ hj)
      rwa [show a + 2 * (j + 1) = a + 2 + 2 * j by omega] at this
    refine ⟨BitVec.ofNat 16 d.toNat :: es, ?_, ?_⟩
    · rw [readPalette, hd, hes]
      rfl
    · have hdur : badEntry (BitVec.ofNat 16 d.toNat) = false := by
        have := d.isLt
        simp only [badEntry, BitVec.toNat_ofNat, decide_eq_false_iff_not]
        omega
      rw [List.any_cons, hdur, hgood, Bool.or_self]

/-- A completion whose computation stops at an unwritten byte faults there. -/
theorem exec_unwritten (i : Instr) (s : State) (b : Nat)
    (h : computeOf i s.params s.snap s.buf = .error (.unwritten b)) : exec i s = .fault (.unwrittenRead b) := by
  rw [exec_eq_complete, h]
  rfl

theorem encUniv_unwritten_faults (s : State) (b : Nat) (htm : s.snap.tmValid = true)
    (hreg : s.regionsOk .encUniv = true) (hcap : univLen s.snap ≤ s.snap.cap)
    (h : Memory.FirstUnwritten s.buf s.snap.src s.snap.len b) : exec .encUniv s = .fault (.unwrittenRead b) := by
  obtain ⟨hsrc, hdst, hapart⟩ := (regionsOk_encUniv_iff s).1 hreg
  have hlen : s.snap.len ≠ 0 := by
    obtain ⟨j, hj, -⟩ := h
    omega
  exact exec_unwritten _ s b
    ((computeEncUniv_unwritten _ _ _ _).2 ⟨htm, hlen, hsrc, hdst, hapart, hcap, h⟩)

theorem compress_unwritten_faults (s : State) (k b : Nat) (hreg : s.regionsOk .compress = true) (hk : k < s.snap.len)
    (hw : Memory.written s.buf s.snap.src (2 * k) = true) (hroom : (s.bucketsOf k).length ≤ paletteMax)
    (h : Memory.FirstUnwritten s.buf (s.snap.src + 2 * k) 2 b) : exec .compress s = .fault (.unwrittenRead b) := by
  obtain ⟨hsrc, hdst, hapart⟩ := (regionsOk_compress_iff s).1 hreg
  exact exec_unwritten _ s b ((computeCompress_unwritten _ _ _ _).2 ⟨hsrc, hdst, hapart, k, hk, h, hw, hroom⟩)

/-- What the readers of a whole header return. -/
theorem headerHolds_reads (s : State) (count n : Nat) (h : s.headerHolds count n = true) :
    6 ≤ s.snap.len ∧ readByte s.buf s.snap.src = .ok s.params.magic ∧
      memRead s.buf (s.snap.src + 1) 4 = .ok count ∧ memRead s.buf (s.snap.src + 5) 1 = .ok n := by
  simp only [State.headerHolds, Bool.and_eq_true, decide_eq_true_eq, Memory.holds_iff, and_assoc] at h
  obtain ⟨hlen, hmagic, hcount, hn⟩ := h
  exact ⟨hlen, readByte_of_memRead _ _ _ hmagic, hcount, hn⟩

theorem paletteHolds_reads (s : State) (n : Nat) (h : s.paletteHolds n = true) :
    n ≤ paletteMax ∧ 6 + 2 * n ≤ s.snap.len ∧
      ∃ entries, readPalette s.buf n (s.snap.src + 6) = .ok entries ∧ entries.any badEntry = false := by
  simp only [State.paletteHolds, Bool.and_eq_true, decide_eq_true_eq, List.all_eq_true, List.mem_range,
    Memory.holds_iff, and_assoc] at h
  obtain ⟨hn, hlen, hdurs⟩ := h
  exact ⟨hn, hlen, readPalette_of_durs _ _ _ fun j hj => ⟨_, hdurs j hj⟩⟩

/-- The six bytes of the header: `MAGIC` and its check, the symbol count, the palette size. -/
theorem decompress_header_unwritten_faults (s : State) (b : Nat) (hreg : s.regionsOk .decompress = true)
    (hlen : 6 ≤ s.snap.len) (hmagic : s.snap.src < b → Memory.read s.buf s.snap.src = some s.params.magic)
    (h : Memory.FirstUnwritten s.buf s.snap.src (1 + (4 + 1)) b) : exec .decompress s = .fault (.unwrittenRead b) := by
  obtain ⟨hsrc, hdst, hapart⟩ := (regionsOk_encUniv_iff s).1 hreg
  refine exec_unwritten _ s b ((computeDecompress_unwritten _ _ _ _).2 ⟨hsrc, hdst, hapart, hlen, ?_⟩)
  rcases (Memory.firstUnwritten_add _ _ _ _ _).1 h with h | ⟨-, h⟩
  · exact .inl h
  · obtain ⟨-, hlo, -⟩ := h.inside le_rfl le_rfl
    refine .inr ⟨_, (readByte_ok _ _ _).2 (hmagic hlo), rfl, ?_⟩
    rcases (Memory.firstUnwritten_add _ _ _ _ _).1 h with h | ⟨hcount, h⟩
    · exact .inl h
    · obtain ⟨count, hcount⟩ := (written_iff_memRead _ _ _).1 hcount
      exact .inr ⟨count, hcount, .inl h⟩

theorem decompress_palette_unwritten_faults (s : State) (count n b : Nat) (hreg : s.regionsOk .decompress = true)
    (hheader : s.headerHolds count n = true) (hn : n ≤ paletteMax) (hlen : 6 + 2 * n ≤ s.snap.len)
    (h : Memory.FirstUnwritten s.buf (s.snap.src + 6) (2 * n) b) : exec .decompress s = .fault (.unwrittenRead b) := by
  obtain ⟨hsrc, hdst, hapart⟩ := (regionsOk_encUniv_iff s).1 hreg
  obtain ⟨h6, hmagic, hcount, hsize⟩ := headerHolds_reads s count n hheader
  exact exec_unwritten _ s b ((computeDecompress_unwritten _ _ _ _).2 ⟨hsrc, hdst, hapart, h6,
    .inr ⟨_, hmagic, rfl, .inr ⟨count, hcount, .inr ⟨n, hsize, hn, hlen, .inl h⟩⟩⟩⟩)

theorem decompress_packed_unwritten_faults (s : State) (count n b : Nat) (hreg : s.regionsOk .decompress = true)
    (hheader : s.headerHolds count n = true) (hpal : s.paletteHolds n = true) (hne : count = 0 ∨ 0 < n)
    (hlen : signalLen count n ≤ s.snap.len) (hcap : count ≤ s.snap.cap)
    (h : Memory.FirstUnwritten s.buf (s.snap.src + 6 + 2 * n) (ceilHalf count) b) :
    exec .decompress s = .fault (.unwrittenRead b) := by
  obtain ⟨hsrc, hdst, hapart⟩ := (regionsOk_encUniv_iff s).1 hreg
  obtain ⟨h6, hmagic, hcount, hsize⟩ := headerHolds_reads s count n hheader
  obtain ⟨hn, hpalLen, entries, hentries, hgood⟩ := paletteHolds_reads s n hpal
  have hpalette : ¬(0 < count ∧ n = 0) := by omega
  exact exec_unwritten _ s b ((computeDecompress_unwritten _ _ _ _).2 ⟨hsrc, hdst, hapart, h6,
    .inr ⟨_, hmagic, rfl, .inr ⟨count, hcount, .inr ⟨n, hsize, hn, hpalLen,
      .inr ⟨entries, hentries, hgood, hpalette, hlen, hcap, h⟩⟩⟩⟩⟩)

/-- Settles O50, part by part of the sources: the byte is the first unwritten one of the part that the command reads
next. -/
theorem unwrittenSourceFaults : Obligations.UnwrittenSourceFaults := by
  refine ⟨fun s j htm hreg hcap hj hw hr => ?_, fun s k j hreg hk hj hw hroom hr => ?_,
    fun s hreg hlen => ⟨fun j hj hmagic hw hr => ?_, fun count n j hheader hn hpal hj hw hr => ?_,
      fun count n j hheader hpal hne hsignal hcap hj hw hr => ?_⟩⟩
  · rw [← headerLen_eq] at hcap
    exact encUniv_unwritten_faults s _ htm hreg hcap ⟨j, hj, rfl, hw, hr⟩
  · obtain ⟨hwk, hwj⟩ := (Memory.written_add _ _ _ _).1 hw
    exact compress_unwritten_faults s k _ hreg hk hwk hroom ⟨j, hj, (Nat.add_assoc _ _ _).symm, hwj, hr⟩
  · exact decompress_header_unwritten_faults s _ hreg hlen (fun h => hmagic (by omega)) ⟨j, hj, rfl, hw, hr⟩
  · exact decompress_palette_unwritten_faults s count n _ hreg hheader hn hpal ⟨j, hj, rfl, hw, hr⟩
  · exact decompress_packed_unwritten_faults s count n _ hreg hheader hpal hne hsignal hcap ⟨j, hj, rfl, hw, hr⟩

end Sys2Proof.Machine
end

section
/-! PROOF. The encodings (spec/30_encoding.md): command words (R81 to R83), symbol words (R84, R85), host
programs (R92), and the meaning that every command has. -/

namespace Sys2Proof.Machine

/-! ## Command words (spec/30_encoding.md R81 to R83) -/

/-- Settles O1: each word's low four bits are looked up in the opcode map. -/
theorem commandWordsDecode : Obligations.CommandWordsDecode := ⟨rfl, rfl, rfl, rfl, rfl, rfl, rfl⟩

theorem opField_encode (i : Instr) : opField (encode i) = opcode i := by
  cases i <;> rfl

theorem decode_encode (i : Instr) : decode (encode i) = .ok i :=
  (decodeOp_ok_iff _ i).2 (opField_encode i)

/-- A word decodes to a command exactly where its low four bits are the command's number. -/
theorem decode_ok_iff (w : Word) (i : Instr) : decode w = .ok i ↔ w.toNat % 16 = (opcode i).toNat := by
  rw [decode, decodeOp_ok_iff, ← BitVec.toNat_inj, opField_toNat]

/-- The numbers that the opcode map gives no command (spec/30_encoding.md R83). -/
theorem decodeOp_illegalOp_iff (op : BitVec 4) :
    decodeOp op = .error (.illegalOp op) ↔ op.toNat = 0 ∨ 5 ≤ op.toNat := by
  revert op
  decide

/-- Settles O2: the decoder is a function of the OP field, which is the word modulo 16. -/
theorem decoderReadsOnlyTheOpField : Obligations.DecoderReadsOnlyTheOpField := by
  refine ⟨decode_encode, fun v w h => ?_, fun i w => decode_ok_iff w i, fun w => ?_⟩
  · rw [← opField_toNat, ← opField_toNat, BitVec.toNat_inj] at h
    rw [decode, decode, h]
  · rw [← opField_toNat]
    exact decodeOp_illegalOp_iff (opField w)

/-! ## Symbol words (spec/30_encoding.md R84, R85) -/

/-- A word is put together again from its level bit and its duration. -/
@[simp] theorem word_symbolOf (w : Half) : (symbolOf w).word = w := by
  have hw : w.toNat < 65536 := w.isLt
  apply BitVec.eq_of_toNat_eq
  rw [Symbol.word_toNat, symbolOf, levelOf_toNat, durOf_toNat]
  by_cases h : w.toNat < 32768
  · simp only [if_pos h]
    omega
  · simp only [if_neg h]
    omega

/-- Settles O3: encoding and decoding undo each other, so the words and the symbols match one to one. -/
theorem everyWordIsOneSymbol : Obligations.EveryWordIsOneSymbol := by
  refine ⟨fun d => ⟨rfl, BitVec.zero_or⟩, fun w => ⟨word_symbolOf w, fun x hx => ?_⟩⟩
  rw [← hx, symbolOf_word]

/-! ## Host programs (spec/30_encoding.md R92) -/

/-- A host turn whose next operation is a 4-byte write to a register writes it. -/
theorem hostTurn_w32Op (s : State) (r : Reg) (v : Word) (rest : List HostOp) (h : s.host = w32Op r.offset v :: rest) :
    hostTurn s = .next ((writeReg r v (s.setHost rest)).respond .writeDone) := by
  rw [hostTurn_access s _ rest h, transact_writeReg]

theorem pairWord_mark (p : Pair) : (pairWord p).extractLsb' 0 15 = p.mark := by
  apply BitVec.eq_of_getLsbD_eq
  intro k hk
  simp [pairWord_getLsbD, hk]

theorem pairWord_space (p : Pair) : (pairWord p).extractLsb' 16 15 = p.space := by
  apply BitVec.eq_of_getLsbD_eq
  intro k hk
  simp [pairWord_getLsbD, hk, show ¬ 16 + k < 15 by omega]

/-- The word of a `TMPAIR` line: its mark does not reach the bits of its space. -/
theorem pairOfWord_tmPair (m d : Word) (hm : m.toNat < 2 ^ 15) :
    pairOfWord (d <<< 16 ||| m) = ⟨m.extractLsb' 0 15, d.extractLsb' 0 15⟩ := by
  have hmark : (d <<< 16 ||| m).extractLsb' 0 15 = m.extractLsb' 0 15 := by
    apply BitVec.eq_of_getLsbD_eq
    intro k hk
    simp [hk, show k < 16 by omega]
  have hspace : (d <<< 16 ||| m).extractLsb' 16 15 = d.extractLsb' 0 15 := by
    apply BitVec.eq_of_getLsbD_eq
    intro k hk
    have hhigh : m.getLsbD (16 + k) = false :=
      Nat.testBit_lt_two_pow (hm.trans_le (Nat.pow_le_pow_right Nat.two_pos (by omega)))
    simp only [BitVec.getLsbD_extractLsb', BitVec.getLsbD_or, BitVec.getLsbD_shiftLeft, hhigh]
    simp [hk, show 16 + k < 32 by omega]
  rw [pairOfWord, hmark, hspace]

/-- A (mark, space) register reads the fields just written. -/
theorem readReg_writeReg_pair (r : Reg) (v : Word) (s : State)
    (hr : r = .tmHdr ∨ r = .tmBit1 ∨ r = .tmBit0 ∨ r = .tmFtr) :
    readReg r (writeReg r v s) = pairWord (pairOfWord v) := by
  rcases hr with rfl | rfl | rfl | rfl <;> rfl

/-- Settles O13: each line is one or two register writes. -/
theorem pseudoInstructionsActAsNamed : Obligations.PseudoInstructionsActAsNamed := by
  refine ⟨fun s r m d hr hm _ => ?_, fun s a n => ?_, fun s a c => ?_, fun s i hb => ?_, fun s => ?_⟩
  · refine ⟨_, hostTurn_w32Op _ r _ [] rfl, (writeReg_frame r _ _).host, ?_⟩
    rw [readReg_respond, readReg_writeReg_pair r _ _ hr, pairOfWord_tmPair m d hm]
    exact ⟨pairWord_mark _, pairWord_space _⟩
  · exact ⟨_, _, hostTurn_w32Op _ .srcAddr a _ rfl, hostTurn_w32Op _ .srcLen n [] rfl, rfl, rfl⟩
  · exact ⟨_, _, hostTurn_w32Op _ .dstAddr a _ rfl, hostTurn_w32Op _ .dstCap c [] rfl, rfl, rfl⟩
  · refine ⟨_, hostTurn_w32Op _ .cmd (encode i) [] rfl, ?_⟩
    rw [writeReg, State.writeCmd_idle]
    · exact ⟨opField_encode i, rfl, rfl, rfl⟩
    · exact hb
  · exact ⟨_, hostTurn_w32Op _ .status 2 [] rfl, Bool.and_false _, Bool.and_true _⟩

/-- `WAIT` is over on a value of `STATUS` exactly where no command runs and one is done. -/
theorem waitOver_statusWord (s : State) : waitOver s.statusWord = true ↔ s.busy = false ∧ s.done = true := by
  simp only [waitOver, statusWord_getLsbD]
  simp

/-- Settles O12: the pass is a read of `STATUS`, in the state with `WAIT` taken off or not. -/
theorem waitPassReadsStatus : Obligations.WaitPassReadsStatus := by
  intro s rest h
  have hturn : hostTurn s = transact statusRead (if s.busy = false ∧ s.done = true then s.setHost rest else s) := by
    rw [hostTurn, h]
    simp only [statusRead, readOffset_offset, readReg, waitOver_statusWord]
  rw [hturn, statusRead, transact_readReg, ← h]
  split <;> rfl

/-! ## Every command has its meaning (spec/30_encoding.md R82, R83) -/

theorem completionStep_not_refused (s : State) (x : Refusal) : completionStep s ≠ .refused x := by
  rw [completionStep_eq_acceptedCompute]
  exact complete_not_refused _ s x

theorem engineTurn_not_refused (s : State) (x : Refusal) : engineTurn s ≠ .refused x := by
  unfold engineTurn
  split
  · exact completionStep_not_refused s x
  · simp

theorem hostTurn_not_refused (s : State) (x : Refusal) : hostTurn s ≠ .refused x := by
  rcases hostTurn_cases s with ⟨-, hs⟩ | ⟨t, rest, -, hs⟩ | ⟨rest, -, hs⟩ <;> rw [hs]
  · simp
  · exact transact_not_refused t _ x
  · exact transact_not_refused statusRead _ x

/-- Settles O14, turn by turn. -/
theorem stepIsNeverRefused : Obligations.StepIsNeverRefused := by
  intro s x
  rcases step_cases s with ⟨ts, -, hs⟩ | ⟨ts, -, hs⟩ | ⟨ts, -, hs⟩ | ⟨-, -, hs⟩ | ⟨-, -, hs⟩ <;> rw [hs]
  · simp
  · exact engineTurn_not_refused _ x
  · exact hostTurn_not_refused _ x
  · exact completionStep_not_refused s x
  · exact hostTurn_not_refused s x

end Sys2Proof.Machine
end

section
/-! PROOF. `COMPRESS` of a train that fits (spec/42_compress.md): the buckets and the indices of its symbols (R142,
R143), what a Persisted Signal's writes leave in `BUF` (spec/30_encoding.md R86 to R88), and the command's result. -/

namespace Sys2Proof.Machine

/-! ## Buckets (spec/42_compress.md R142) -/

@[simp] theorem durDist_self (d : Dur) : durDist d d = 0 := by simp [durDist]

/-- The bucket found is the lowest entry within the tolerance. -/
theorem findBucket_eq_some (tol : Nat) (d : Dur) (pal : List Dur) (j : Nat) :
    findBucket tol d pal = some j ↔
      ∃ h : j < pal.length, durDist d pal[j] ≤ tol ∧ ∀ i (hi : i < j), tol < durDist d pal[i] := by
  simp [findBucket, List.findIdx?_eq_some_iff_getElem]

/-- A bucket once found stays the one found, whatever entries come after it. -/
theorem findBucket_of_extends (tol : Nat) (d : Dur) (pal pal' : List Dur) (j : Nat) (hp : pal <+: pal')
    (h : findBucket tol d pal = some j) : findBucket tol d pal' = some j := by
  obtain ⟨es, rfl⟩ := hp
  unfold findBucket at h ⊢
  rw [List.findIdx?_append, h, Option.some_or]

/-- A duration without a bucket finds the one it opens. -/
theorem findBucket_opened (tol : Nat) (d : Dur) (pal : List Dur) (h : findBucket tol d pal = none) :
    findBucket tol d (pal ++ [d]) = some pal.length := by
  unfold findBucket at h ⊢
  simp [List.findIdx?_append, h]

/-- A duration finds a bucket, and the palette stays, or it opens the next one. -/
theorem openBucket_cases (tol : Nat) (pal : List Dur) (d : Dur) :
    (∃ j, findBucket tol d pal = some j ∧ openBucket tol pal d = pal) ∨
      (findBucket tol d pal = none ∧ openBucket tol pal d = pal ++ [d]) := by
  cases h : findBucket tol d pal with
  | some j =>
    have hany : pal.any (fun e => decide (durDist d e ≤ tol)) = true := by
      rw [← Bool.not_eq_false, ← findBucket_eq_none, h]
      simp
    exact .inl ⟨j, rfl, if_pos hany⟩
  | none =>
    rw [findBucket_eq_none] at h
    exact .inr ⟨rfl, by simp [openBucket, h]⟩

/-- A duration has a bucket once it is placed. -/
theorem findBucket_openBucket (tol : Nat) (pal : List Dur) (d : Dur) :
    ∃ j < (openBucket tol pal d).length, findBucket tol d (openBucket tol pal d) = some j := by
  rcases openBucket_cases tol pal d with ⟨j, hj, h⟩ | ⟨hnone, h⟩ <;> rw [h]
  · exact ⟨j, ((findBucket_eq_some tol d pal j).1 hj).1, hj⟩
  · exact ⟨pal.length, by simp, findBucket_opened tol d pal hnone⟩

theorem openBucket_extends (tol : Nat) (pal : List Dur) (d : Dur) : pal <+: openBucket tol pal d := by
  rcases openBucket_cases tol pal d with ⟨-, -, h⟩ | ⟨-, h⟩ <;> rw [h]
  exact ⟨[d], rfl⟩

theorem foldl_openBucket_extends (tol : Nat) (ds pal : List Dur) : pal <+: ds.foldl (openBucket tol) pal := by
  induction ds generalizing pal with
  | nil => exact ⟨[], List.append_nil pal⟩
  | cons d ds ih => exact (openBucket_extends tol pal d).trans (ih _)

/-- A bucket opened by durations after the palette `pal` is opened by a duration of its own, which finds it, and every
duration before that one finds a lower bucket. -/
theorem foldl_openBucket_opener (tol : Nat) (ds pal : List Dur) (j : Nat) (d : Dur) (hnew : pal.length ≤ j)
    (hj : (ds.foldl (openBucket tol) pal)[j]? = some d) :
    ∃ i : Nat, ds[i]? = some d ∧ findBucket tol d (ds.foldl (openBucket tol) pal) = some j ∧
      ∀ k < i, ∀ e, ds[k]? = some e → ∃ l < j, findBucket tol e (ds.foldl (openBucket tol) pal) = some l := by
  induction ds generalizing pal with
  | nil => simp [List.getElem?_eq_none hnew] at hj
  | cons d₀ ds ih =>
    rw [List.foldl_cons] at hj ⊢
    have hext := foldl_openBucket_extends tol ds (openBucket tol pal d₀)
    by_cases hlt : j < (openBucket tol pal d₀).length
    · -- `d₀` itself opens the bucket
      rcases openBucket_cases tol pal d₀ with ⟨-, -, h⟩ | ⟨hnone, h⟩
      · rw [h] at hlt
        omega
      · have hlast : j = pal.length := by
          rw [h, List.length_append, List.length_singleton] at hlt
          omega
        have hd : d = d₀ := by
          obtain ⟨es, hes⟩ := hext
          rw [← hes, List.getElem?_append_left hlt, h, hlast] at hj
          simpa using hj.symm
        subst hd hlast
        refine ⟨0, rfl, findBucket_of_extends tol d _ _ _ hext ?_, fun k hk => absurd hk (Nat.not_lt_zero k)⟩
        rw [h]
        exact findBucket_opened tol d pal hnone
    · obtain ⟨i, hi, hfind, hbefore⟩ := ih _ (Nat.not_lt.1 hlt) hj
      refine ⟨i + 1, hi, hfind, fun k hk e he => ?_⟩
      cases k with
      | zero =>
        obtain rfl : d₀ = e := by simpa using he
        obtain ⟨l, hl, hfound⟩ := findBucket_openBucket tol pal d₀
        exact ⟨l, by omega, findBucket_of_extends tol d₀ _ _ _ hext hfound⟩
      | succ k => exact hbefore k (by omega) e he

/-- Every bucket is opened by a duration of its own, which finds it, after durations that find lower ones. -/
theorem buckets_opener (tol : Nat) (ds : List Dur) (j : Nat) (d : Dur) (hj : (buckets tol ds)[j]? = some d) :
    ∃ i : Nat, ds[i]? = some d ∧ findBucket tol d (buckets tol ds) = some j ∧
      ∀ k < i, ∀ e, ds[k]? = some e → ∃ l < j, findBucket tol e (buckets tol ds) = some l :=
  foldl_openBucket_opener tol ds [] j d (Nat.zero_le j) hj

/-- No duration opens two buckets, since it finds only one. -/
theorem buckets_nodup (tol : Nat) (ds : List Dur) : (buckets tol ds).Nodup := by
  refine List.nodup_iff_getElem?_ne_getElem?.2 fun i j hij hj heq => ?_
  have hd := List.getElem?_eq_getElem hj
  obtain ⟨-, -, hfindj, -⟩ := buckets_opener tol ds j _ hd
  obtain ⟨-, -, hfindi, -⟩ := buckets_opener tol ds i _ (heq.trans hd)
  rw [hfindi, Option.some.injEq] at hfindj
  omega

/-- A train needs no more buckets than it has distinct durations. -/
theorem buckets_length_le_dedup (tol : Nat) (ds : List Dur) : (buckets tol ds).length ≤ ds.dedup.length := by
  refine (List.Nodup.subperm (buckets_nodup tol ds) fun d hd => List.mem_dedup.2 ?_).length_le
  obtain ⟨j, hj⟩ := List.mem_iff_getElem?.1 hd
  obtain ⟨i, hi, -, -⟩ := buckets_opener tol ds j d hj
  exact List.mem_of_getElem? hi

/-! ## The scan (spec/42_compress.md R140 to R143) -/

theorem dursAt_getElem?_eq_some (m : Memory) (a n i : Nat) (d : Dur) :
    (dursAt m a n)[i]? = some d ↔ i < n ∧ durAt m a i = d := by
  by_cases hi : i < n
  · simp [dursAt, hi]
  · simp [dursAt, hi]

/-- The index of a placed duration is that of its bucket. -/
theorem placeDur_findBucket (tol : Nat) (d : Dur) (pal pal' : List Dur) (j : Nat)
    (h : placeDur tol d pal = some (j, pal')) : findBucket tol d pal' = some j := by
  rcases placeDur_some tol d pal pal' j h with ⟨hfind, rfl⟩ | ⟨hnone, -, rfl, rfl⟩
  · exact hfind
  · exact findBucket_opened tol d pal hnone

/-- A scan of one symbol more: the symbol is written and has a place, then the rest. -/
theorem scanTrain_succ_ok (m : Memory) (tol n a i : Nat) (pal : List Dur) (r : List Dur × List (BitVec 4)) :
    scanTrain m tol (n + 1) a i pal = .ok r ↔
      Memory.written m a 2 = true ∧ ∃ j pal', placeDur tol (durAt m a 0) pal = some (j, pal') ∧
        ∃ q, scanTrain m tol n (a + 2) (i + 1) pal' = .ok q ∧ (q.1, BitVec.ofNat 4 j :: q.2) = r := by
  rw [written_iff_readSymbol, scanTrain, bind_ok_iff]
  cases hw : readSymbol m a with
  | error e => simp
  | ok w =>
    have hd : durAt m a 0 = durOf w := by rw [durAt, readSymbol_ok m a 0 w hw]
    rw [hd]
    cases hp : placeDur tol (durOf w) pal with
    | none => simp [hp]
    | some q =>
      obtain ⟨j, pal'⟩ := q
      simp [hp, bind_ok_iff]

/-- A written train of at most 16 buckets is scanned to its end. -/
theorem scanTrain_succeeds (m : Memory) (tol n a i : Nat) (pal : List Dur) (hw : Memory.written m a (2 * n) = true)
    (hroom : ((dursAt m a n).foldl (openBucket tol) pal).length ≤ paletteMax) :
    ∃ r, scanTrain m tol n a i pal = .ok r := by
  induction n generalizing a i pal with
  | zero => exact ⟨_, rfl⟩
  | succ n ih =>
    rw [show 2 * (n + 1) = 2 + 2 * n by omega, Memory.written_add] at hw
    obtain ⟨hw₀, hw⟩ := hw
    rw [dursAt_succ, List.foldl_cons] at hroom
    have hopen := (foldl_openBucket_length tol (dursAt m (a + 2) n) _).trans hroom
    cases hp : placeDur tol (durAt m a 0) pal with
    | none =>
      obtain ⟨hfull, happend⟩ := (placeDur_eq_none _ _ _).1 hp
      rw [happend, List.length_append, List.length_singleton] at hopen
      omega
    | some q =>
      obtain ⟨j, pal'⟩ := q
      rw [← placeDur_openBucket _ _ _ _ _ hp] at hroom
      obtain ⟨r, hr⟩ := ih (a + 2) (i + 1) pal' hw hroom
      exact ⟨_, (scanTrain_succ_ok _ _ _ _ _ _ _).2 ⟨hw₀, j, pal', hp, r, hr, rfl⟩⟩

/-- A scan gives each duration the index of the bucket it finds in the final palette. -/
theorem scanTrain_index (m : Memory) (tol n a i : Nat) (pal : List Dur) (r : List Dur × List (BitVec 4))
    (h : scanTrain m tol n a i pal = .ok r) (hl : pal.length ≤ paletteMax) (k : Nat) (d : Dur)
    (hd : (dursAt m a n)[k]? = some d) : ∃ x, r.2[k]? = some x ∧ findBucket tol d r.1 = some x.toNat := by
  induction n generalizing a i pal r k with
  | zero => simp [dursAt] at hd
  | succ n ih =>
    obtain ⟨-, j, pal', hp, q, hq, rfl⟩ := (scanTrain_succ_ok _ _ _ _ _ _ _).1 h
    have hl' := placeDur_length _ _ _ _ _ hp hl
    rw [dursAt_succ] at hd
    cases k with
    | zero =>
      obtain rfl : durAt m a 0 = d := by simpa using hd
      have hfind := placeDur_findBucket _ _ _ _ _ hp
      have hj : j < 16 := ((findBucket_eq_some _ _ _ _).1 hfind).1.trans_le hl'
      refine ⟨BitVec.ofNat 4 j, rfl, ?_⟩
      rw [BitVec.toNat_ofNat, Nat.mod_eq_of_lt hj, scanTrain_palette _ _ _ _ _ _ _ hq]
      exact findBucket_of_extends _ _ _ _ _ (foldl_openBucket_extends _ _ _) hfind
    | succ k => exact ih _ _ _ q hq hl' k hd

/-! ## What contiguous writes leave (spec/20_memory.md R61) -/

/-- Each of a list of contiguous writes stands in `BUF` after all of them. -/
theorem bytesAt_applyWrites (ws : List BufWrite) (m : Memory) (a : Nat) (w : BufWrite) (h : contiguous a ws)
    (hw : w ∈ ws) : Memory.bytesAt (applyWrites m ws) w.offset w.bytes.length = .ok w.bytes := by
  induction ws generalizing m a with
  | nil => simp at hw
  | cons x ws ih =>
    obtain ⟨rfl, h⟩ := h
    rcases List.mem_cons.1 hw with rfl | hw
    · refine (Memory.bytesAt_ok _ _ _ _).2 ⟨rfl, fun k hk => ?_⟩
      rw [applyWrites, read_applyWrites_other _ _ _ _ _ (contiguous_within ws _ h) (.inl (by omega)),
        Memory.read_writeBytes_same _ _ _ _ hk]
    · exact ih _ _ h hw

/-- A number written by one of a list of contiguous writes reads back. -/
theorem memRead_applyWrites (ws : List BufWrite) (m : Memory) (a b n v : Nat) (h : contiguous a ws)
    (hw : bufWrite b n v ∈ ws) (hv : v < 256 ^ n) : memRead (applyWrites m ws) b n = .ok v := by
  refine (memRead_ok _ _ _ _).2 ⟨leBytes n v, ?_, by rw [leNat_leBytes, Nat.mod_eq_of_lt hv]⟩
  simpa using bytesAt_applyWrites ws m a _ h hw

theorem bufWrite_mem_paletteWrites (pal : List Dur) (a j : Nat) (d : Dur) (h : pal[j]? = some d) :
    bufWrite (a + 2 * j) 2 d.toNat ∈ paletteWrites a pal := by
  induction pal generalizing a j with
  | nil => simp at h
  | cons e pal ih =>
    rw [paletteWrites, List.mem_cons]
    cases j with
    | zero =>
      obtain rfl : e = d := by simpa using h
      exact .inl rfl
    | succ j =>
      rw [show a + 2 * (j + 1) = a + 2 + 2 * j by omega]
      exact .inr (ih _ _ h)

theorem bufWrite_mem_byteWrites (bs : List Byte) (a k : Nat) (b : Byte) (h : bs[k]? = some b) :
    bufWrite (a + k) 1 b.toNat ∈ byteWrites a bs := by
  induction bs generalizing a k with
  | nil => simp at h
  | cons c bs ih =>
    rw [byteWrites, List.mem_cons]
    cases k with
    | zero =>
      obtain rfl : c = b := by simpa using h
      exact .inl rfl
    | succ k =>
      rw [show a + (k + 1) = a + 1 + k by omega]
      exact .inr (ih _ _ h)

/-! ## A Persisted Signal in `BUF` (spec/30_encoding.md R86 to R88) -/

/-- Index `i` stands in packed byte `i / 2`, and so does the 0 that fills up an odd count. -/
theorem nibbleOf_packIndices (idx : List (BitVec 4)) (i : Nat) (b : Byte) (h : (packIndices idx)[i / 2]? = some b) :
    nibbleOf i b = (idx[i]?).getD 0 := by
  induction idx using packIndices.induct generalizing i with
  | case1 => simp [packIndices] at h
  | case2 x =>
    match i with
    | 0 | 1 =>
      obtain rfl : packPair x 0 = b := by simpa [packIndices] using h
      simp [nibbleOf, packPair_high, packPair_low]
    | i + 2 => simp [packIndices] at h
  | case3 x y rest ih =>
    match i with
    | 0 | 1 =>
      obtain rfl : packPair x y = b := by simpa [packIndices] using h
      simp [nibbleOf, packPair_high, packPair_low]
    | i + 2 =>
      rw [packIndices, Nat.add_div_right i Nat.two_pos, List.getElem?_cons_succ] at h
      have hparity : nibbleOf (i + 2) b = nibbleOf i b := by simp [nibbleOf]
      rw [hparity, ih i h]
      rfl

/-- A Persisted Signal stands at `a`: its header, its palette and its packed indices. -/
structure SignalAt (m : Memory) (a : Nat) (magic : Byte) (count : Nat) (pal : List Dur) (idx : List (BitVec 4)) :
    Prop where
  magic : memRead m a 1 = .ok magic.toNat
  count : memRead m (a + 1) 4 = .ok count
  size : memRead m (a + 5) 1 = .ok pal.length
  entry : ∀ j d, pal[j]? = some d → memRead m (a + 6 + 2 * j) 2 = .ok d.toNat
  packed : ∀ k b, (packIndices idx)[k]? = some b → Memory.read m (a + 6 + 2 * pal.length + k) = some b

theorem signalAt_signalWrites (m : Memory) (p : Params) (a count : Nat) (pal : List Dur) (idx : List (BitVec 4))
    (hcount : count < 2 ^ 32) (hpal : pal.length ≤ paletteMax) :
    SignalAt (applyWrites m (signalWrites p a count pal idx)) a p.magic count pal idx := by
  have hread (b n v : Nat) := memRead_applyWrites _ m a b n v (signalWrites_contiguous p a count pal idx)
  refine ⟨hread _ _ _ ?_ p.magic.isLt, hread _ _ _ ?_ hcount, hread _ _ _ ?_ (hpal.trans_lt (by decide)),
    fun j d hj => ?_, fun k b hk => ?_⟩
  · simp [signalWrites]
  · simp [signalWrites]
  · simp [signalWrites]
  · refine hread _ _ _ ?_ (d.isLt.trans (by decide))
    simp [signalWrites, bufWrite_mem_paletteWrites pal (a + 6) j d hj]
  · rw [← readByte_ok]
    refine readByte_of_memRead _ _ _ (hread _ _ _ ?_ b.isLt)
    simp [signalWrites, bufWrite_mem_byteWrites _ (a + 6 + 2 * pal.length) k b hk]

section
variable {m : Memory} {a count : Nat} {magic : Byte} {pal : List Dur} {idx : List (BitVec 4)}

theorem SignalAt.durAt_eq (h : SignalAt m a magic count pal idx) (j : Nat) (d : Dur) (hj : pal[j]? = some d) :
    durAt m (a + 6) j = d := by
  have hsym : readSymbol m (a + 6 + 2 * j) = .ok (BitVec.ofNat 16 d.toNat) := by rw [readSymbol, h.entry j d hj]; rfl
  apply BitVec.eq_of_toNat_eq
  have := d.isLt
  rw [durAt, readSymbol_ok _ _ _ _ hsym, durOf_toNat, BitVec.toNat_ofNat]
  omega

theorem SignalAt.indexAt_eq (h : SignalAt m a magic count pal idx) (i : Nat) (hi : i / 2 < ceilHalf idx.length) :
    indexAt m (a + 6 + 2 * pal.length) i = ((idx[i]?).getD 0).toNat := by
  rw [← packIndices_length] at hi
  have hb := List.getElem?_eq_getElem hi
  rw [indexAt, h.packed _ _ hb, ← nibbleOf_packIndices idx i _ hb]

theorem SignalAt.written_packed (h : SignalAt m a magic count pal idx) :
    Memory.written m (a + 6 + 2 * pal.length) (ceilHalf idx.length) = true := by
  refine (Memory.written_iff _ _ _).2 fun k hk => ?_
  rw [← packIndices_length] at hk
  rw [h.packed k _ (List.getElem?_eq_getElem hk), Option.isSome_some]

end

/-! ## The result of `COMPRESS` (spec/42_compress.md R140, R144, R145) -/

/-- What a successful `COMPRESS` of the source train reports and writes, where the scan gives the indices `idx`. -/
def State.compressOutput (s : State) (idx : List (BitVec 4)) : Output where
  writes := signalWrites s.params s.snap.dst s.snap.len (s.bucketsOf s.snap.len) idx
  len := signalLen s.snap.len (s.bucketsOf s.snap.len).length
  pal := (s.bucketsOf s.snap.len).length

/-- A written train of at most 16 buckets whose signal fits is scanned to its end, and the command succeeds. -/
theorem exec_compress_ok (s : State) (hreg : s.regionsOk .compress = true) (hw : s.sourceWritten .compress = true)
    (hn : (s.bucketsOf s.snap.len).length ≤ paletteMax)
    (hcap : signalLen s.snap.len (s.bucketsOf s.snap.len).length ≤ s.snap.cap) :
    ∃ idx, scanTrain s.buf s.params.paletteTol s.snap.len s.snap.src 0 [] = .ok (s.bucketsOf s.snap.len, idx) ∧
      exec .compress s = .next (s.finishOk (s.compressOutput idx)) := by
  obtain ⟨hsrc, hdst, hapart⟩ := (regionsOk_compress_iff s).1 hreg
  obtain ⟨⟨pal, idx⟩, hscan⟩ := scanTrain_succeeds s.buf s.params.paletteTol s.snap.len s.snap.src 0 [] hw hn
  obtain rfl : pal = s.bucketsOf s.snap.len := scanTrain_palette _ _ _ _ _ _ _ hscan
  refine ⟨idx, hscan, ?_⟩
  rw [exec_eq_complete]
  refine (complete_next _ _ _).2 (.inl ⟨_, ?_, rfl⟩)
  exact (computeCompress_ok _ _ _ _).2 ⟨hsrc, hdst, hapart, _, hscan, hcap, rfl⟩

section
variable {s : State} {m : Memory} {idx : List (BitVec 4)}
  (hscan : scanTrain s.buf s.params.paletteTol s.snap.len s.snap.src 0 [] = .ok (s.bucketsOf s.snap.len, idx))
  (hsig : SignalAt m s.snap.dst s.params.magic s.snap.len (s.bucketsOf s.snap.len) idx)

include hscan in
theorem indices_length : idx.length = s.snap.len := (scanTrain_ok _ _ _ _ _ _ _ hscan (Nat.zero_le _)).1

include hscan hsig

/-- The packed index of a symbol is that of the bucket it finds. -/
theorem findBucket_indexAt (i : Nat) (hi : i < s.snap.len) :
    findBucket s.params.paletteTol (durAt s.buf s.snap.src i) (s.bucketsOf s.snap.len)
      = some (indexAt m (s.snap.dst + 6 + 2 * (s.bucketsOf s.snap.len).length) i) := by
  have hlen := indices_length hscan
  obtain ⟨x, hx, hfind⟩ := scanTrain_index _ _ _ _ _ _ _ hscan (Nat.zero_le _) i _
    ((dursAt_getElem?_eq_some _ _ _ _ _).2 ⟨hi, rfl⟩)
  rw [hfind, hsig.indexAt_eq i (by simp only [ceilHalf, hlen]; omega), hx, Option.getD_some]

/-- The index of a symbol is the lowest entry within the tolerance. -/
theorem indexAt_lowest (i : Nat) (hi : i < s.snap.len) (k : Nat)
    (hk : k = indexAt m (s.snap.dst + 6 + 2 * (s.bucketsOf s.snap.len).length) i) :
    k < (s.bucketsOf s.snap.len).length ∧
      durDist (durAt s.buf s.snap.src i) (durAt m (s.snap.dst + 6) k) ≤ s.params.paletteTol ∧
      ∀ j, j < k → s.params.paletteTol < durDist (durAt s.buf s.snap.src i) (durAt m (s.snap.dst + 6) j) := by
  obtain ⟨hlt, hnear, hfar⟩ := (findBucket_eq_some _ _ _ _).1 (hk ▸ findBucket_indexAt hscan hsig i hi)
  refine ⟨hlt, ?_, fun j hj => ?_⟩
  · rw [hsig.durAt_eq k _ (List.getElem?_eq_getElem hlt)]
    exact hnear
  · rw [hsig.durAt_eq j _ (List.getElem?_eq_getElem (hj.trans hlt))]
    exact hfar j hj

/-- An entry is the duration of the symbol that opened it, the first one with its index. -/
theorem entry_opener (j : Nat) (hj : j < (s.bucketsOf s.snap.len).length) :
    ∃ i, i < s.snap.len ∧ indexAt m (s.snap.dst + 6 + 2 * (s.bucketsOf s.snap.len).length) i = j ∧
      durAt s.buf s.snap.src i = durAt m (s.snap.dst + 6) j ∧
      ∀ k, k < i → indexAt m (s.snap.dst + 6 + 2 * (s.bucketsOf s.snap.len).length) k < j := by
  have hentry := List.getElem?_eq_getElem hj
  obtain ⟨i, hopen, hfind, hbefore⟩ := buckets_opener _ _ j _ hentry
  obtain ⟨hi, hdur⟩ := (dursAt_getElem?_eq_some _ _ _ _ _).1 hopen
  refine ⟨i, hi, ?_, hdur.trans (hsig.durAt_eq j _ hentry).symm, fun k hk => ?_⟩
  · rw [← hdur] at hfind
    exact Option.some.inj ((findBucket_indexAt hscan hsig i hi).symm.trans hfind)
  · have hk' := hk.trans hi
    obtain ⟨l, hl, hfound⟩ := hbefore k hk _ ((dursAt_getElem?_eq_some _ _ _ _ _).2 ⟨hk', rfl⟩)
    rwa [Option.some.inj ((findBucket_indexAt hscan hsig k hk').symm.trans hfound)]

/-- The nibble after an odd count of indices is 0. -/
theorem indexAt_fill (hodd : s.snap.len % 2 = 1) :
    indexAt m (s.snap.dst + 6 + 2 * (s.bucketsOf s.snap.len).length) s.snap.len = 0 := by
  have hlen := indices_length hscan
  rw [hsig.indexAt_eq _ (by simp only [ceilHalf, hlen]; omega), List.getElem?_eq_none (by omega)]
  rfl

end

theorem toNat_ofNat_of_lt (w n : Nat) (h : n < 2 ^ w) : (BitVec.ofNat w n).toNat = n := by
  rw [BitVec.toNat_ofNat, Nat.mod_eq_of_lt h]

/-- Settles O37: the scan's palette is the buckets and its indices are those found in it, the writes leave both in
`BUF`, and distinct durations bound the buckets. -/
theorem compressWritesTheSignal : Obligations.CompressWritesTheSignal := by
  intro s hreg hw
  refine ⟨?_, fun c hc h16 hcap => ?_⟩
  · rintro n base rfl rfl h16 hcap
    obtain ⟨idx, hscan, hexec⟩ := exec_compress_ok s hreg hw h16 hcap
    have hsig : SignalAt (s.finishOk (s.compressOutput idx)).buf s.snap.dst s.params.magic s.snap.len
        (s.bucketsOf s.snap.len) idx := signalAt_signalWrites _ _ _ _ _ _ s.snap.srcLen.isLt h16
    have hlen := indices_length hscan
    refine ⟨_, hexec, rfl, rfl, rfl, toNat_ofNat_of_lt 5 _ (h16.trans_lt (by decide)),
      toNat_ofNat_of_lt 32 _ (hcap.trans_lt s.snap.dstCap.isLt), (Memory.holds_iff _ _ _ _).2 hsig.magic,
      (Memory.holds_iff _ _ _ _).2 hsig.count, (Memory.holds_iff _ _ _ _).2 hsig.size, hlen ▸ hsig.written_packed,
      fun j hj => ⟨?_, entry_opener hscan hsig j hj⟩, fun i hi => indexAt_lowest hscan hsig i hi _ rfl,
      indexAt_fill hscan hsig⟩
    have hentry := List.getElem?_eq_getElem hj
    rw [hsig.durAt_eq j _ hentry]
    exact (Memory.holds_iff _ _ _ _).2 (hsig.entry j _ hentry)
  · have hle : (s.bucketsOf s.snap.len).length ≤ c := hc ▸ buckets_length_le_dedup _ _
    obtain ⟨idx, -, hexec⟩ := exec_compress_ok s hreg hw (hle.trans h16) (by rw [signalLen, ceilHalf]; omega)
    exact ⟨_, hexec, rfl, (toNat_ofNat_le 5 _).trans hle⟩

end Sys2Proof.Machine
end

section
/-! PROOF. The error codes that a computation can stop with (spec/60_exceptions.md R200, R204, R205), and the capacity
that an output needs (spec/40_encode_universal.md R105, spec/42_compress.md R145, spec/43_decompress.md R164). -/

namespace Sys2Proof.Machine

/-! ## Error codes (spec/60_exceptions.md R200) -/

/-- A computation is stopped for a cause with error code `e`. -/
def FailsWith {α : Type} (x : Except Halt α) (e : BitVec 4) : Prop :=
  ∃ c : Cause, x = .error (.raise c) ∧ c.code = e

@[simp] theorem failsWith_ok {α : Type} (a : α) (e : BitVec 4) : ¬ FailsWith (.ok a : Except Halt α) e := by
  simp [FailsWith]

/-- A computation in two parts fails where the first does, or the second does after it. -/
theorem failsWith_bind {α β : Type} (x : Except Halt α) (f : α → Except Halt β) (e : BitVec 4) :
    FailsWith (x >>= f) e ↔ FailsWith x e ∨ ∃ a, x = .ok a ∧ FailsWith (f a) e := by
  cases x with
  | error h => simp [FailsWith, bind, Except.bind]
  | ok a => simp [bind, Except.bind]

@[simp] theorem failsWith_raiseIf (b : Bool) (c : Cause) (e : BitVec 4) :
    FailsWith (raiseIf b c) e ↔ b = true ∧ c.code = e := by
  cases b <;> simp [FailsWith, raiseIf]

/-- A read of an unwritten byte is a fault, not an error. -/
@[simp] theorem failsWith_orUnwritten {α : Type} (r : Except Nat α) (e : BitVec 4) :
    ¬ FailsWith (orUnwritten r) e := by
  cases r <;> simp [FailsWith, orUnwritten]

/-! ## Readers report no error (spec/20_memory.md R68) -/

theorem readByte_not_failsWith (m : Memory) (a : Nat) (e : BitVec 4) : ¬ FailsWith (readByte m a) e :=
  failsWith_orUnwritten _ e

theorem readBytes_not_failsWith (m : Memory) (a n : Nat) (e : BitVec 4) : ¬ FailsWith (readBytes m a n) e :=
  failsWith_orUnwritten _ e

theorem memRead_not_failsWith (m : Memory) (a n : Nat) (e : BitVec 4) : ¬ FailsWith (memRead m a n) e :=
  failsWith_orUnwritten _ e

theorem readSymbol_not_failsWith (m : Memory) (a : Nat) (e : BitVec 4) : ¬ FailsWith (readSymbol m a) e := by
  simp [readSymbol, failsWith_bind, memRead_not_failsWith]

theorem readPalette_not_failsWith (m : Memory) (n a : Nat) (e : BitVec 4) : ¬ FailsWith (readPalette m n a) e := by
  induction n generalizing a with
  | zero => exact failsWith_ok _ e
  | succ n ih => simp [readPalette, failsWith_bind, memRead_not_failsWith, ih]

theorem decodeSyms_not_failsWith (m : Memory) (base : Nat) (pal : List Dur) (n i : Nat) (e : BitVec 4) :
    ¬ FailsWith (decodeSyms m base pal n i) e := by
  induction n generalizing i with
  | zero => exact failsWith_ok _ e
  | succ n ih => simp [decodeSyms, failsWith_bind, readByte_not_failsWith, ih]

/-- The scan of `COMPRESS` fails only for want of a bucket (spec/42_compress.md R143). -/
theorem scanTrain_not_failsWith (m : Memory) (tol n a i : Nat) (pal : List Dur) (e : BitVec 4) (he : e ≠ 2) :
    ¬ FailsWith (scanTrain m tol n a i pal) e := by
  intro h
  induction n generalizing a i pal with
  | zero => exact absurd h (failsWith_ok _ e)
  | succ n ih =>
    rw [scanTrain, failsWith_bind] at h
    obtain h | ⟨w, -, h⟩ := h
    · exact absurd h (readSymbol_not_failsWith m a e)
    · split at h
      · obtain ⟨c, hc, rfl⟩ := h
        cases hc
        exact he rfl
      · obtain h | ⟨q, -, h⟩ := (failsWith_bind _ _ _).1 h
        · exact ih _ _ _ h
        · exact absurd h (failsWith_ok _ e)

/-! ## The checks' codes (spec/60_exceptions.md R204) -/

theorem checkSrcBytes_failsWith (p : Params) (a n : Nat) (e : BitVec 4) :
    FailsWith (checkSrcBytes p a n) e ↔ ¬ a + n ≤ p.bufBytes ∧ 1 = e := by
  simp [checkSrcBytes, Cause.code]

theorem checkSrcSymbols_failsWith (p : Params) (a n : Nat) (e : BitVec 4) :
    FailsWith (checkSrcSymbols p a n) e ↔ ¬ (a % 2 = 0 ∧ a + 2 * n ≤ p.bufBytes) ∧ 1 = e := by
  by_cases ha : a % 2 = 0 <;> simp [checkSrcSymbols, failsWith_bind, Cause.code, ha]

theorem checkDstBytes_failsWith (p : Params) (a c : Nat) (e : BitVec 4) :
    FailsWith (checkDstBytes p a c) e ↔ ¬ a + c ≤ p.bufBytes ∧ 1 = e := by
  simp [checkDstBytes, Cause.code]

theorem checkDstSymbols_failsWith (p : Params) (a c : Nat) (e : BitVec 4) :
    FailsWith (checkDstSymbols p a c) e ↔ ¬ (a % 2 = 0 ∧ a + 2 * c ≤ p.bufBytes) ∧ 1 = e := by
  by_cases ha : a % 2 = 0 <;> simp [checkDstSymbols, failsWith_bind, Cause.code, ha]

theorem checkNoOverlap_failsWith (s0 s1 d0 d1 : Nat) (e : BitVec 4) :
    FailsWith (checkNoOverlap s0 s1 d0 d1) e ↔ regionsOverlap s0 s1 d0 d1 = true ∧ 1 = e := by
  simp [checkNoOverlap, Cause.code]

/-! ## Where a command fails with codes 1 and 5 (spec/60_exceptions.md R205) -/

/-- A command whose computation fails leaves the state of the failure (spec/60_exceptions.md R202). -/
theorem exec_of_failsWith (i : Instr) (s : State) (e : BitVec 4)
    (h : FailsWith (computeOf i s.params s.snap s.buf) e) : exec i s = .next (s.failed e) := by
  obtain ⟨c, hc, rfl⟩ := h
  rw [exec_eq_complete, hc]
  rfl

/-- `ENC_UNIV` answers code 1 exactly without a model, with an empty payload or with a bad region: each of these checks
has code 1, and is reached only past the ones before it (spec/40_encode_universal.md R101). -/
theorem computeEncUniv_invalidArgument_iff (p : Params) (o : OperandRegs) (m : Memory) :
    FailsWith (computeEncUniv p o m) 1 ↔ o.tmValid = false ∨ o.len = 0 ∨
      ¬ (o.src + o.len ≤ p.bufBytes ∧ (o.dst % 2 = 0 ∧ o.dst + 2 * o.cap ≤ p.bufBytes) ∧
        regionsOverlap o.src (o.src + o.len) o.dst (o.dst + 2 * o.cap) = false) := by
  simp only [computeEncUniv, failsWith_bind, failsWith_raiseIf, raiseIf_ok, checkSrcBytes_failsWith, checkSrcBytes_ok,
    checkDstSymbols_failsWith, checkDstSymbols_ok, checkNoOverlap_failsWith, checkNoOverlap_ok, Cause.code,
    readBytes_not_failsWith, failsWith_ok, BitVec.ofNat_eq_ofNat, BitVec.reduceEq, exists_const, and_true, and_false,
    or_false, Bool.not_eq_true', decide_eq_true_eq, ← Bool.not_eq_true]
  tauto

/-- `ENC_UNIV` answers code 5 exactly where no earlier check applies and the train is longer than `DST_CAP`: the payload
need not be written (spec/40_encode_universal.md R105). -/
theorem computeEncUniv_allocationFailure_iff (p : Params) (o : OperandRegs) (m : Memory) :
    FailsWith (computeEncUniv p o m) 5 ↔ o.tmValid = true ∧ o.len ≠ 0 ∧ o.src + o.len ≤ p.bufBytes ∧
      (o.dst % 2 = 0 ∧ o.dst + 2 * o.cap ≤ p.bufBytes) ∧
      regionsOverlap o.src (o.src + o.len) o.dst (o.dst + 2 * o.cap) = false ∧ o.cap < univLen o := by
  simp only [computeEncUniv, failsWith_bind, failsWith_raiseIf, raiseIf_ok, checkSrcBytes_failsWith, checkSrcBytes_ok,
    checkDstSymbols_failsWith, checkDstSymbols_ok, checkNoOverlap_failsWith, checkNoOverlap_ok, Cause.code,
    readBytes_not_failsWith, failsWith_ok, BitVec.ofNat_eq_ofNat, BitVec.reduceEq, exists_const, and_true, and_false,
    false_or, or_false, Bool.not_eq_false', decide_eq_true_eq, decide_eq_false_iff_not, gt_iff_lt, ne_eq]

/-- `ENC_NEC` answers code 5 exactly with a good destination too short for its train (spec/41_encode_nec.md R124). -/
theorem computeEncNec_allocationFailure_iff (p : Params) (o : OperandRegs) :
    FailsWith (computeEncNec p o) 5 ↔ (o.dst % 2 = 0 ∧ o.dst + 2 * o.cap ≤ p.bufBytes) ∧ o.cap < necLen := by
  simp only [computeEncNec, failsWith_bind, failsWith_raiseIf, checkDstSymbols_failsWith, checkDstSymbols_ok,
    Cause.code, failsWith_ok, BitVec.ofNat_eq_ofNat, BitVec.reduceEq, exists_const, and_true, and_false, false_or,
    or_false, decide_eq_true_eq, gt_iff_lt]

/-- `COMPRESS` answers code 5 exactly where the scan ends and its signal is longer than `DST_CAP` (spec/42_compress.md
R145). -/
theorem computeCompress_allocationFailure_iff (p : Params) (o : OperandRegs) (m : Memory) :
    FailsWith (computeCompress p o m) 5 ↔
      (o.src % 2 = 0 ∧ o.src + 2 * o.len ≤ p.bufBytes) ∧ o.dst + o.cap ≤ p.bufBytes ∧
      regionsOverlap o.src (o.src + 2 * o.len) o.dst (o.dst + o.cap) = false ∧
      ∃ q, scanTrain m p.paletteTol o.len o.src 0 [] = .ok q ∧ o.cap < signalLen o.len q.1.length := by
  simp only [computeCompress, failsWith_bind, failsWith_raiseIf, checkSrcSymbols_failsWith, checkSrcSymbols_ok,
    checkDstBytes_failsWith, checkDstBytes_ok, checkNoOverlap_failsWith, checkNoOverlap_ok, Cause.code,
    scanTrain_not_failsWith _ _ _ _ _ _ 5#4 (by decide), failsWith_ok, BitVec.ofNat_eq_ofNat, BitVec.reduceEq,
    exists_const, and_true, and_false, false_or, or_false, decide_eq_true_eq, gt_iff_lt]

/-- `DECOMPRESS` answers code 5 exactly where the signal passes every format check and its count is above `DST_CAP`: the
packed indices need not be written (spec/43_decompress.md R161, R164). -/
theorem computeDecompress_allocationFailure_iff (p : Params) (o : OperandRegs) (m : Memory) :
    FailsWith (computeDecompress p o m) 5 ↔
      o.src + o.len ≤ p.bufBytes ∧ (o.dst % 2 = 0 ∧ o.dst + 2 * o.cap ≤ p.bufBytes) ∧
      regionsOverlap o.src (o.src + o.len) o.dst (o.dst + 2 * o.cap) = false ∧ 6 ≤ o.len ∧
      ∃ magic, readByte m o.src = .ok magic ∧ magic = p.magic ∧
      ∃ count, memRead m (o.src + 1) 4 = .ok count ∧
      ∃ n, memRead m (o.src + 5) 1 = .ok n ∧ n ≤ paletteMax ∧ 6 + 2 * n ≤ o.len ∧
      ∃ entries, readPalette m n (o.src + 6) = .ok entries ∧ entries.any badEntry = false ∧
      ¬(0 < count ∧ n = 0) ∧ signalLen count n ≤ o.len ∧ o.cap < count := by
  simp only [computeDecompress, failsWith_bind, failsWith_raiseIf, raiseIf_ok, checkSrcBytes_failsWith,
    checkSrcBytes_ok, checkDstSymbols_failsWith, checkDstSymbols_ok, checkNoOverlap_failsWith, checkNoOverlap_ok,
    Cause.code, readByte_not_failsWith, memRead_not_failsWith, readPalette_not_failsWith, decodeSyms_not_failsWith,
    failsWith_ok, BitVec.ofNat_eq_ofNat, BitVec.reduceEq, exists_const, and_true, and_false, false_or, or_false,
    decide_eq_true_eq, decide_eq_false_iff_not, not_lt, gt_iff_lt, ne_eq, not_not]

/-! ## The capacity an output needs (spec/60_exceptions.md R204) -/

/-- The operands with another `DST_CAP`. -/
def OperandRegs.withCap (c : Word) (o : OperandRegs) : OperandRegs := { o with dstCap := c }

/-- With another `DST_CAP` a command completes the computation on those operands. -/
theorem exec_withCap (i : Instr) (s : State) (c : Word) :
    exec i (s.withCap c) = complete (computeOf i s.params (s.snap.withCap c) s.buf) (s.withCap c) :=
  exec_eq_complete i (s.withCap c)

/-- A smaller destination region still overlaps nothing. -/
theorem regionsOverlap_shrink {s0 s1 d0 d1 d1' : Nat} (h : regionsOverlap s0 s1 d0 d1 = false) (hd : d1' ≤ d1) :
    regionsOverlap s0 s1 d0 d1' = false := by
  rw [regionsOverlap_false] at h ⊢
  omega

/-- A success with another `DST_CAP` up to the old one: the same result where it has room for the output, and
`AllocationFailure` where it has not. -/
theorem computeOf_withCap (i : Instr) (p : Params) (o : OperandRegs) (m : Memory) (r : Output) (c : Word)
    (h : computeOf i p o m = .ok r) (hc : c.toNat ≤ o.cap) :
    (r.len ≤ c.toNat → computeOf i p (o.withCap c) m = .ok r) ∧
    (c.toNat < r.len → FailsWith (computeOf i p (o.withCap c) m) 5) := by
  have hbytes : o.dst + c.toNat ≤ o.dst + o.cap := by omega
  have hsyms : o.dst + 2 * c.toNat ≤ o.dst + 2 * o.cap := by omega
  cases i with
  | encUniv =>
    obtain ⟨hvalid, hlen, hsrc, ⟨heven, hdst⟩, hapart, -, payload, hread, rfl⟩ := (computeEncUniv_ok p o m r).1 h
    have hdst := hsyms.trans hdst
    have hapart := regionsOverlap_shrink hapart hsyms
    exact ⟨fun hr => (computeEncUniv_ok _ _ _ _).2
        ⟨hvalid, hlen, hsrc, ⟨heven, hdst⟩, hapart, hr, payload, hread, rfl⟩,
      fun hr => (computeEncUniv_allocationFailure_iff _ _ _).2 ⟨hvalid, hlen, hsrc, ⟨heven, hdst⟩, hapart, hr⟩⟩
  | encNec =>
    obtain ⟨⟨heven, hdst⟩, -, rfl⟩ := (computeEncNec_ok p o r).1 h
    have hdst := hsyms.trans hdst
    exact ⟨fun hr => (computeEncNec_ok _ _ _).2 ⟨⟨heven, hdst⟩, hr, rfl⟩,
      fun hr => (computeEncNec_allocationFailure_iff _ _).2 ⟨⟨heven, hdst⟩, hr⟩⟩
  | compress =>
    obtain ⟨hsrc, hdst, hapart, q, hscan, -, rfl⟩ := (computeCompress_ok p o m r).1 h
    have hdst := hbytes.trans hdst
    have hapart := regionsOverlap_shrink hapart hbytes
    exact ⟨fun hr => (computeCompress_ok _ _ _ _).2 ⟨hsrc, hdst, hapart, q, hscan, hr, rfl⟩,
      fun hr => (computeCompress_allocationFailure_iff _ _ _).2 ⟨hsrc, hdst, hapart, q, hscan, hr⟩⟩
  | decompress =>
    obtain ⟨hsrc, ⟨heven, hdst⟩, hapart, h6, magic, hm, hmagic, count, hcount, n, hn, hn16, hpal, entries, hentries,
      hgood, hne, hsignal, -, t, ht, rfl⟩ := (computeDecompress_ok p o m r).1 h
    have hdst := hsyms.trans hdst
    have hapart := regionsOverlap_shrink hapart hsyms
    exact ⟨fun hr => (computeDecompress_ok _ _ _ _).2
        ⟨hsrc, ⟨heven, hdst⟩, hapart, h6, magic, hm, hmagic, count, hcount, n, hn, hn16, hpal, entries, hentries, hgood,
          hne, hsignal, hr, t, ht, rfl⟩,
      fun hr => (computeDecompress_allocationFailure_iff _ _ _).2
        ⟨hsrc, ⟨heven, hdst⟩, hapart, h6, magic, hm, hmagic, count, hcount, n, hn, hn16, hpal, entries, hentries, hgood,
          hne, hsignal, hr⟩⟩

/-- A completion without an error code is that of a successful computation, whose length it reports. -/
theorem exec_next_without_error (i : Instr) (s t : State) (h : exec i s = .next t) (herr : t.err = 0) :
    ∃ r, computeOf i s.params s.snap s.buf = .ok r ∧ t = s.finishOk r ∧ t.resultLen.toNat = r.len := by
  rw [exec_eq_complete] at h
  rcases (complete_next _ s t).1 h with ⟨r, hr, rfl⟩ | ⟨c, -, rfl⟩
  · have hlen : r.len < 2 ^ 32 := (computeOf_fits i _ _ _ r hr).fitsCap.trans_lt s.snap.dstCap.isLt
    exact ⟨r, hr, rfl, toNat_ofNat_of_lt 32 r.len hlen⟩
  · exact absurd herr c.code_reported.2

/-- Settles O47: the capacity is compared with the output's length, and a smaller destination region passes every check
that the old one passed. -/
theorem outputCapacityIsExact : Obligations.OutputCapacityIsExact := by
  intro i s t c h herr
  obtain ⟨r, hr, rfl, hlen⟩ := exec_next_without_error i s t h herr
  have hcap := (computeOf_fits i _ _ _ r hr).fitsCap
  rw [hlen]
  refine ⟨fun hlo hhi => ?_, fun hlt => ?_⟩
  · rw [exec_withCap, (computeOf_withCap i _ _ _ r c hr hhi).1 hlo]
    rfl
  · exact exec_of_failsWith i _ 5 ((computeOf_withCap i _ _ _ r c hr (hlt.le.trans hcap)).2 hlt)

end Sys2Proof.Machine
end

section
/-! PROOF. `ENC_UNIV` (spec/40_encode_universal.md): its failures (R101, R105), and the train it writes, pair by pair
(R102 to R104). -/

namespace Sys2Proof.Machine

/-! ## Failures (spec/40_encode_universal.md R101, R105) -/

/-- Settles O30: every check of `ENC_UNIV` comes before its first read, the one of the capacity last. -/
theorem encUnivFailuresInOrder : Obligations.EncUnivFailuresInOrder := by
  refine fun s => ⟨fun h => ?_, fun hvalid hlen hreg hcap => ?_⟩
  · rw [← Bool.not_eq_true (State.regionsOk _ _), regionsOk_encUniv_iff] at h
    exact exec_of_failsWith .encUniv s 1 ((computeEncUniv_invalidArgument_iff _ _ _).2 h)
  · obtain ⟨hsrc, hdst, hapart⟩ := (regionsOk_encUniv_iff s).1 hreg
    rw [← headerLen_eq] at hcap
    exact exec_of_failsWith .encUniv s 5
      ((computeEncUniv_allocationFailure_iff _ _ _).2 ⟨hvalid, hlen.ne', hsrc, hdst, hapart, hcap⟩)

/-! ## Pairs of a train (spec/40_encode_universal.md R103) -/

/-- The Mark and Space of `p` are the symbols `k` and `k + 1` of a train. -/
def PairAt (t : List Symbol) (k : Nat) (p : Pair) : Prop := ∃ as bs, t = as ++ pairSyms p ++ bs ∧ as.length = k

theorem PairAt.self (p : Pair) : PairAt (pairSyms p) 0 p := ⟨[], [], (List.append_nil _).symm, rfl⟩

theorem PairAt.append_left {t : List Symbol} {k : Nat} {p : Pair} (h : PairAt t k p) (u : List Symbol) :
    PairAt (u ++ t) (u.length + k) p := by
  obtain ⟨as, bs, rfl, rfl⟩ := h
  exact ⟨u ++ as, bs, by simp only [List.append_assoc], List.length_append⟩

theorem PairAt.append_right {t : List Symbol} {k : Nat} {p : Pair} (h : PairAt t k p) (u : List Symbol) :
    PairAt (t ++ u) k p := by
  obtain ⟨as, bs, rfl, rfl⟩ := h
  exact ⟨as, bs ++ u, by simp only [List.append_assoc], rfl⟩

/-- A pair of the `i`-th of equally long parts of a train. -/
theorem PairAt.flatMap {α : Type} {f : α → List Symbol} {n : Nat} (hf : ∀ y, (f y).length = n) {xs : List α}
    {i : Nat} {x : α} (hx : xs[i]? = some x) {k : Nat} {p : Pair} (h : PairAt (f x) k p) :
    PairAt (xs.flatMap f) (n * i + k) p := by
  induction xs generalizing i with
  | nil => simp at hx
  | cons y xs ih =>
    rw [List.flatMap_cons]
    cases i with
    | zero =>
      obtain rfl : y = x := by simpa using hx
      rw [Nat.mul_zero, Nat.zero_add]
      exact h.append_right _
    | succ i =>
      have hpos : n * (i + 1) + k = (f y).length + (n * i + k) := by rw [hf, Nat.mul_succ]; omega
      rw [hpos]
      exact (ih hx).append_left _

/-- After a train's writes the two words of a pair stand in `BUF` (spec/30_encoding.md R84). -/
theorem PairAt.holds {t : List Symbol} {k : Nat} {p : Pair} (h : PairAt t k p) (m : Memory) (a : Nat) :
    Memory.holdsMark (applyWrites m (trainWrites a t)) (a + 2 * k) p.mark = true ∧
    Memory.holdsSpace (applyWrites m (trainWrites a t)) (a + 2 * (k + 1)) p.space = true := by
  obtain ⟨as, bs, rfl, rfl⟩ := h
  have hword (i : Nat) (x : Symbol) (hx : (as ++ pairSyms p ++ bs)[i]? = some x) :
      Memory.holds (applyWrites m (trainWrites a (as ++ pairSyms p ++ bs))) (a + 2 * i) 2 x.word.toNat = true := by
    obtain ⟨hi, rfl⟩ := List.getElem?_eq_some_iff.1 hx
    exact holds_of_readSymbol _ _ _ (readSymbol_trainWrites _ m a i hi)
  have hmark := hword as.length (markSym p.mark) (by simp [pairSyms])
  have hspace := hword (as.length + 1) (spaceSym p.space) (by simp [pairSyms])
  rw [Symbol.word_toNat] at hmark hspace
  exact ⟨hmark, by simpa [Memory.holdsSpace, spaceSym] using hspace⟩

/-! ## The train of `ENC_UNIV` (spec/40_encode_universal.md R100, R102 to R105) -/

theorem byteBits_getElem? (lsbFirst : Bool) (b : Byte) (q : Nat) (hq : q < 8) :
    (byteBits lsbFirst b)[q]? = some (b.getLsbD (if lsbFirst then q else 7 - q)) := by
  simp [byteBits, hq]

/-- Bit `q` of payload byte `j`, in the order the bits are sent. -/
theorem pairAt_payloadSyms (lsbFirst : Bool) (bit1 bit0 : Pair) (payload : List Byte) (j q : Nat) (b : Byte)
    (hb : payload[j]? = some b) (hq : q < 8) :
    PairAt (payloadSyms lsbFirst bit1 bit0 payload) (16 * j + 2 * q)
      (if b.getLsbD (if lsbFirst then q else 7 - q) then bit1 else bit0) := by
  have hbyte (y : Byte) : ((byteBits lsbFirst y).flatMap (bitSyms bit1 bit0)).length = 16 := by
    rw [byteSyms_length, byteBits_length]
  exact .flatMap hbyte hb (.flatMap (bitSyms_length bit1 bit0) (byteBits_getElem? lsbFirst b q hq) (.self _))

section
variable (o : OperandRegs) (payload : List Byte)

theorem headerSyms_of_headerLen (h : headerLen o = 2) : headerSyms o = pairSyms o.tmHdr := by
  unfold headerLen at h
  unfold headerSyms
  split at h
  · rw [if_pos ‹_›]
  · cases h

theorem pairAt_frame_header (last : Bool) (h : headerLen o = 2) : PairAt (frameSyms o payload last) 0 o.tmHdr := by
  rw [frameSyms, headerSyms_of_headerLen o h]
  exact ((PairAt.self o.tmHdr).append_right _).append_right _

theorem pairAt_frame_bit (last : Bool) (j q : Nat) (b : Byte) (hb : payload[j]? = some b) (hq : q < 8) :
    PairAt (frameSyms o payload last) (headerLen o + (16 * j + 2 * q))
      (if b.getLsbD (if o.tmLsbFirst then q else 7 - q) then o.tmBit1 else o.tmBit0) := by
  rw [← headerSyms_length]
  exact ((pairAt_payloadSyms _ _ _ payload j q b hb hq).append_left _).append_right _

theorem pairAt_frame_footer (last : Bool) :
    PairAt (frameSyms o payload last) (headerLen o + 16 * payload.length)
      ⟨o.tmFtr.mark, if last then o.tmFtr.space else o.tmGap⟩ := by
  have h := (PairAt.self ⟨o.tmFtr.mark, if last then o.tmFtr.space else o.tmGap⟩).append_left
    (headerSyms o ++ payloadSyms o.tmLsbFirst o.tmBit1 o.tmBit0 payload)
  rwa [List.length_append, headerSyms_length, payloadSyms_length, Nat.add_zero] at h

/-- A pair of frame `r` (spec/40_encode_universal.md R104). -/
theorem PairAt.univTrain {r k : Nat} {p : Pair} (hr : r ≤ o.repeats)
    (h : PairAt (frameSyms o payload (decide (r = o.repeats))) k p) :
    PairAt (univTrain o payload) ((headerLen o + 16 * payload.length + 2) * r + k) p :=
  .flatMap (fun _ => frameSyms_length o payload _) (List.getElem?_range (Nat.lt_succ_of_le hr)) h

end

/-- `ENC_UNIV` with no check that applies and a written payload succeeds with the train of that payload. -/
theorem exec_encUniv_ok (s : State) (hvalid : s.snap.tmValid = true) (hlen : 0 < s.snap.len)
    (hreg : s.regionsOk .encUniv = true) (hw : s.sourceWritten .encUniv = true) (hcap : univLen s.snap ≤ s.snap.cap) :
    ∃ payload, Memory.bytesAt s.buf s.snap.src s.snap.len = .ok payload ∧
      exec .encUniv s = .next (s.finishOk
        { writes := trainWrites s.snap.dst (univTrain s.snap payload), len := univLen s.snap, pal := 0 }) := by
  obtain ⟨hsrc, hdst, hapart⟩ := (regionsOk_encUniv_iff s).1 hreg
  obtain ⟨payload, hread⟩ := Memory.bytesAt_of_written s.buf s.snap.len s.snap.src hw
  refine ⟨payload, hread, ?_⟩
  rw [exec_eq_complete]
  refine (complete_next _ _ _).2 (.inl ⟨_, ?_, rfl⟩)
  exact (computeEncUniv_ok _ _ _ _).2 ⟨hvalid, hlen.ne', hsrc, hdst, hapart, hcap, payload, hread, rfl⟩

/-- Settles O29: the payload read is the written one, and each pair of each frame stands in `BUF`. -/
theorem encUnivWritesTheTrain : Obligations.EncUnivWritesTheTrain := by
  rintro s hvalid hlen hreg hw h f hh rfl hcap
  obtain rfl : h = headerLen s.snap := hh.trans (headerLen_eq s.snap).symm
  obtain ⟨payload, hread, hexec⟩ := exec_encUniv_ok s hvalid hlen hreg hw hcap
  obtain ⟨hpay, hbytes⟩ := (Memory.bytesAt_ok _ _ _ _).1 hread
  have hresult : (BitVec.ofNat 32 (univLen s.snap)).toNat = univLen s.snap :=
    toNat_ofNat_of_lt 32 _ (lt_of_le_of_lt hcap s.snap.dstCap.isLt)
  refine ⟨_, hexec, rfl, hresult, rfl, rfl, rfl, fun r hr => ?_⟩
  have hpair {k : Nat} {p : Pair} (h : PairAt (frameSyms s.snap payload (decide (r = s.snap.repeats))) k p) :=
    (h.univTrain s.snap payload hr).holds s.buf s.snap.dst
  simp only [hpay, Nat.mul_comm _ r] at hpair
  refine ⟨fun hhdr => ?_, fun j hj b hb q hq p hp => ?_, ?_⟩
  · simpa only [State.finishOk_buf, Nat.add_zero] using hpair (pairAt_frame_header _ _ _ hhdr)
  · have hbit : payload[j]? = some b := by
      rw [← hpay] at hj
      rw [List.getElem?_eq_getElem hj, ← hbytes j hj, hb]
    subst hp
    simpa only [State.finishOk_buf, Nat.add_assoc] using hpair (pairAt_frame_bit _ _ _ j q b hbit hq)
  · have hlast : r = s.snap.repeats ↔ ¬ r < s.snap.repeats := by omega
    simpa only [State.finishOk_buf, Nat.add_assoc, hpay, decide_eq_true_eq, hlast, ite_not] using
      hpair (pairAt_frame_footer _ _ _)

end Sys2Proof.Machine
end

section
/-! PROOF. `ENC_NEC` (spec/41_encode_nec.md): the train it writes, bit by bit (R120 to R123), the operands it depends on
(R125), its 1 bits (R126), and the universal encoder's train for the NEC timing model (R124). -/

namespace Sys2Proof.Machine

/-! ## The bits of a NEC train (spec/41_encode_nec.md R121) -/

/-- Bit `k` of the 32 bits of a NEC train, in the order they are sent: bit `k % 8` of payload byte `k / 8`. -/
def necBit (o : OperandRegs) (k : Nat) : Bool := (((necPayload o)[k / 8]?).getD 0).getLsbD (k % 8)

/-- The pair that stands for a NEC bit (spec/41_encode_nec.md R122). -/
def necBitPair (b : Bool) : Pair := if b then necBit1 else necBit0

section
variable (o : OperandRegs) (k : Nat)

/-- The address, low byte first. -/
theorem necBit_address (h : k < 16) : necBit o k = o.necAddress.getLsbD k := by
  obtain hlow | hhigh : k < 8 ∨ k / 8 = 1 := by omega
  · simp [necBit, necPayload, Nat.div_eq_of_lt hlow, Nat.mod_eq_of_lt hlow, hlow]
  · have hmod : 8 + k % 8 = k := by omega
    simp [necBit, necPayload, hhigh, hmod, Nat.mod_lt]

theorem necBit_command (h : k < 8) : necBit o (16 + k) = o.necCommand.getLsbD k := by
  have hdiv : (16 + k) / 8 = 2 := by omega
  have hmod : (16 + k) % 8 = k := by omega
  simp [necBit, necPayload, hdiv, hmod, h]

theorem necBit_complement (h : k < 8) : necBit o (24 + k) = !o.necCommand.getLsbD k := by
  have hdiv : (24 + k) / 8 = 3 := by omega
  have hmod : (24 + k) % 8 = k := by omega
  simp [necBit, necPayload, hdiv, hmod, h]

end

@[simp] theorem necBitPair_mark (b : Bool) : (necBitPair b).mark = 560 := by cases b <;> rfl

@[simp] theorem necBitPair_space (b : Bool) : (necBitPair b).space = if b then 1690 else 560 := by cases b <;> rfl

/-! ## Pairs of a NEC train (spec/41_encode_nec.md R122, R123) -/

section
variable (p : Params) (o : OperandRegs)

theorem pairAt_nec_header : PairAt (necTrain p o) 0 necHeader :=
  ((PairAt.self necHeader).append_right _).append_right _

theorem pairAt_nec_bit (k : Nat) (hk : k < 32) : PairAt (necTrain p o) (2 + 2 * k) (necBitPair (necBit o k)) := by
  have hbyte : (necPayload o)[k / 8]? = some (((necPayload o)[k / 8]?).getD 0) := by
    have hlt : k / 8 < (necPayload o).length := by simp [necPayload]; omega
    rw [List.getElem?_eq_getElem hlt, Option.getD_some]
  have h := pairAt_payloadSyms true necBit1 necBit0 _ (k / 8) (k % 8) _ hbyte (by omega)
  rw [show 16 * (k / 8) + 2 * (k % 8) = 2 * k by omega] at h
  exact (h.append_left (pairSyms necHeader)).append_right _

theorem pairAt_nec_stop : PairAt (necTrain p o) 66 ⟨necStopMark, p.necStopSpace⟩ := by
  have h := (PairAt.self ⟨necStopMark, p.necStopSpace⟩).append_left
    (pairSyms necHeader ++ payloadSyms true necBit1 necBit0 (necPayload o))
  rwa [List.length_append, payloadSyms_length] at h

/-- After a NEC train's writes bit `k` stands in `BUF` as a Mark of 560 and a Space of the bit's length. -/
theorem nec_bit_holds (m : Memory) (a k : Nat) (hk : k < 32) :
    Memory.holdsMark (applyWrites m (trainWrites a (necTrain p o))) (a + 2 * (2 + 2 * k)) 560 = true ∧
    Memory.holdsSpace (applyWrites m (trainWrites a (necTrain p o))) (a + 2 * (3 + 2 * k))
      (if necBit o k then 1690 else 560) = true := by
  have h := (pairAt_nec_bit p o k hk).holds m a
  rwa [necBitPair_mark, necBitPair_space, show 2 + 2 * k + 1 = 3 + 2 * k by omega] at h

end

/-! ## The result of `ENC_NEC` (spec/41_encode_nec.md R120) -/

/-- The result of a successful `ENC_NEC`. -/
def necOutput (p : Params) (o : OperandRegs) : Output where
  writes := trainWrites o.dst (necTrain p o)
  len := necLen
  pal := 0

@[simp] theorem necOutput_writes (p : Params) (o : OperandRegs) :
    (necOutput p o).writes = trainWrites o.dst (necTrain p o) := rfl

/-- `ENC_NEC` with a good destination and room for its train succeeds in every other state of the block
(spec/41_encode_nec.md R125). -/
theorem exec_encNec_ok (s : State) (hreg : s.regionsOk .encNec = true) (hcap : necLen ≤ s.snap.cap) :
    exec .encNec s = .next (s.finishOk (necOutput s.params s.snap)) := by
  rw [exec_eq_complete]
  exact (complete_next _ _ _).2 (.inl ⟨_, (computeEncNec_ok _ _ _).2 ⟨(symbolsFit_iff _ _ _).1 hreg, hcap, rfl⟩, rfl⟩)

/-- Settles O31: each pair of the train stands in `BUF`, and each bit of the operands is one of the train's. -/
theorem encNecWritesTheTrain : Obligations.EncNecWritesTheTrain := by
  intro s hreg hcap
  refine ⟨_, exec_encNec_ok s hreg hcap, rfl, rfl, rfl, rfl, rfl, ?_⟩
  rw [State.finishOk_buf, necOutput_writes]
  have hbit (k : Nat) (hk : k < 32) := nec_bit_holds s.params s.snap s.buf s.snap.dst k hk
  obtain ⟨hhdrMark, hhdrSpace⟩ := (pairAt_nec_header s.params s.snap).holds s.buf s.snap.dst
  obtain ⟨hstopMark, hstopSpace⟩ := (pairAt_nec_stop s.params s.snap).holds s.buf s.snap.dst
  refine ⟨hhdrMark, hhdrSpace, fun k hk => (hbit k hk).1, fun k hk => ?_, fun k hk => ?_, fun k hk => ?_,
    hstopMark, hstopSpace⟩
  · rw [← necBit_address _ _ hk]
    exact (hbit k (by omega)).2
  · rw [← necBit_command _ _ hk]
    exact (hbit (16 + k) (by omega)).2
  · have h := (hbit (24 + k) (by omega)).2
    rw [necBit_complement _ _ hk] at h
    simpa only [Bool.not_eq_true', ← Bool.not_eq_true, ite_not] using h

/-! ## What `ENC_NEC` depends on (spec/41_encode_nec.md R121, R125) -/

/-- `COMMAND[15:8]` does not reach the payload. -/
theorem necPayload_congr {o o' : OperandRegs} (haddr : o'.necAddress = o.necAddress)
    (hcmd : o'.necCommand.toNat % 256 = o.necCommand.toNat % 256) : necPayload o' = necPayload o := by
  have hlow : o'.necCommand.extractLsb' 0 8 = o.necCommand.extractLsb' 0 8 := by
    apply BitVec.eq_of_toNat_eq
    simpa using hcmd
  rw [necPayload, haddr, hlow, necPayload]

theorem computeEncNec_congr (p : Params) {o o' : OperandRegs} (hdst : o'.dstAddr = o.dstAddr)
    (hcap : o'.dstCap = o.dstCap) (hpay : necPayload o' = necPayload o) :
    computeEncNec p o' = computeEncNec p o := by
  have htrain : necTrain p o' = necTrain p o := by rw [necTrain, hpay, necTrain]
  rw [computeEncNec, OperandRegs.dst, OperandRegs.cap, hdst, hcap, htrain]
  rfl

/-- `ENC_NEC` completes in every state: it reads no byte of `BUF` that could be unwritten. -/
theorem exec_encNec_next (s : State) : ∃ t, exec .encNec s = .next t := by
  rw [exec_eq_complete]
  cases h : complete (computeOf .encNec s.params s.snap s.buf) s with
  | next t => exact ⟨t, rfl⟩
  | fault f =>
    obtain ⟨b, hb, -⟩ := (complete_fault _ _ _).1 h
    exact absurd hb (computeEncNec_not_unwritten _ _ b)
  | refused x => exact absurd h (complete_not_refused _ _ x)

/-- Settles O33: both states run one computation, and it completes. -/
theorem encNecReadsOnlyItsOperands : Obligations.EncNecReadsOnlyItsOperands := by
  intro s u hp hdst hcap haddr hcmd hbuf
  obtain ⟨t, ht⟩ := exec_encNec_next s
  have hcompute : computeEncNec u.params u.snap = computeEncNec s.params s.snap := by
    rw [hp, computeEncNec_congr _ hdst hcap (necPayload_congr haddr hcmd)]
  obtain ⟨v, hv, hvbuf, hresults, -⟩ := complete_same_buf (computeEncNec s.params s.snap) s u t hbuf ht
  rw [← hcompute] at hv
  exact ⟨t, v, ht, hv, hvbuf, hresults⟩

/-! ## One bits (spec/41_encode_nec.md R126) -/

/-- The first `a` and the next `b` of a range, counted apart. -/
theorem countP_range_add (f : Nat → Bool) (a b : Nat) :
    (List.range (a + b)).countP f = (List.range a).countP f + (List.range b).countP (fun k => f (a + k)) := by
  rw [List.range_add, List.countP_append, List.countP_map]
  rfl

/-- The command byte and its complement carry eight 1 bits between them. -/
theorem necBit_countP (o : OperandRegs) :
    (List.range 32).countP (necBit o) = (List.range 16).countP (fun k => o.necAddress.getLsbD k) + 8 := by
  have haddr : (List.range 16).countP (necBit o) = (List.range 16).countP (fun k => o.necAddress.getLsbD k) :=
    List.countP_congr fun k hk => by rw [necBit_address o k (List.mem_range.1 hk)]
  have hcmd : (List.range 8).countP (fun k => necBit o (16 + k))
      = (List.range 8).countP (fun k => o.necCommand.getLsbD k) :=
    List.countP_congr fun k hk => by rw [necBit_command o k (List.mem_range.1 hk)]
  have hcompl : (List.range 8).countP (fun k => necBit o (24 + k))
      = (List.range 8).countP (fun k => ¬ o.necCommand.getLsbD k) :=
    List.countP_congr fun k hk => by simp [necBit_complement o k (List.mem_range.1 hk)]
  have height := List.length_eq_countP_add_countP (fun k => o.necCommand.getLsbD k) (l := List.range 8)
  rw [List.length_range] at height
  rw [countP_range_add _ 24 8, countP_range_add _ 16 8, haddr, hcmd, hcompl, Nat.add_assoc, ← height]

/-- `BUF` holds one Space at a place. -/
theorem Memory.holdsSpace_unique {m : Memory} {a : Nat} {d : Dur} (h : Memory.holdsSpace m a d = true) (e : Dur) :
    Memory.holdsSpace m a e = true ↔ d = e := by
  rw [Memory.holdsSpace, Memory.holds_iff] at h ⊢
  rw [h, Except.ok.injEq, BitVec.toNat_inj]

/-- Settles O34: the spaces of a 1 bit's length stand at the 1 bits. -/
theorem necTrainCountsOneBits : Obligations.NecTrainCountsOneBits := by
  intro s hreg hcap
  refine ⟨_, exec_encNec_ok s hreg hcap, ?_⟩
  rw [State.finishOk_buf, necOutput_writes, ← necBit_countP]
  refine List.countP_congr fun k hk => ?_
  have hspace := (nec_bit_holds s.params s.snap s.buf s.snap.dst k (List.mem_range.1 hk)).2
  refine (Memory.holdsSpace_unique hspace 1690).trans ?_
  cases necBit s.snap k <;> decide

/-! ## The universal encoder with the NEC timing model (spec/41_encode_nec.md R124) -/

/-- One frame is the whole train. -/
theorem univTrain_of_no_repeat (o : OperandRegs) (payload : List Byte) (h : o.repeats = 0) :
    univTrain o payload = frameSyms o payload true := by
  simp [univTrain, h]

/-- The operands hold the NEC timing model. -/
structure NecModel (p : Params) (o : OperandRegs) : Prop where
  valid : o.tmValid = true
  lsbFirst : o.tmLsbFirst = true
  hdr : o.tmHdr = necHeader
  bit1 : o.tmBit1 = necBit1
  bit0 : o.tmBit0 = necBit0
  ftr : o.tmFtr = ⟨necStopMark, p.necStopSpace⟩
  noRepeat : o.tmRepeat = 0

section
variable {p : Params} {o : OperandRegs} (h : NecModel p o)
include h

theorem NecModel.headerLen_eq_two : headerLen o = 2 := by
  rw [headerLen_eq, h.hdr]
  rfl

theorem NecModel.repeats_eq_zero : o.repeats = 0 := by
  rw [OperandRegs.repeats, h.noRepeat]
  rfl

/-- Four payload bytes make a train as long as the NEC train. -/
theorem NecModel.univLen_eq (hlen : o.len = 4) : univLen o = necLen := by
  rw [univLen, h.headerLen_eq_two, h.repeats_eq_zero, hlen]
  rfl

theorem NecModel.univTrain_eq : univTrain o (necPayload o) = necTrain p o := by
  rw [univTrain_of_no_repeat _ _ h.repeats_eq_zero, frameSyms, headerSyms_of_headerLen _ h.headerLen_eq_two, footerSyms,
    h.lsbFirst, h.hdr, h.bit1, h.bit0, h.ftr, if_pos rfl, necTrain]

end

/-- Settles O35: with the model and the payload of R124 both encoders complete with the same result. -/
theorem necEqualsUniversalEncoder : Obligations.NecEqualsUniversalEncoder := by
  intro s hvalid hlsb hhdr hbit1 hbit0 hftr hrep hlen hreg hcap h0 h1 h2 h3
  have hmodel : NecModel s.params s.snap := ⟨hvalid, hlsb, hhdr, hbit1, hbit0, hftr, hrep⟩
  have hlen : s.snap.len = 4 := congrArg BitVec.toNat hlen
  obtain ⟨hsrc, hdst, hapart⟩ := (regionsOk_encUniv_iff s).1 hreg
  have hpay : Memory.bytesAt s.buf s.snap.src s.snap.len = .ok (necPayload s.snap) := by
    rw [hlen, Memory.bytesAt_ok]
    exact ⟨rfl, fun
      | 0, _ => h0
      | 1, _ => h1
      | 2, _ => h2
      | 3, _ => h3⟩
  have huniv : exec .encUniv s = .next (s.finishOk (necOutput s.params s.snap)) := by
    rw [exec_eq_complete]
    refine (complete_next _ _ _).2 (.inl ⟨_, (computeEncUniv_ok _ _ _ _).2
      ⟨hmodel.valid, by omega, hsrc, hdst, hapart, ?_, necPayload s.snap, hpay, ?_⟩, rfl⟩)
    · rwa [hmodel.univLen_eq hlen]
    · rw [hmodel.univLen_eq hlen, hmodel.univTrain_eq, necOutput]
  have hnec := exec_encNec_ok s ((symbolsFit_iff _ _ _).2 hdst) hcap
  exact ⟨huniv.trans hnec.symm, _, hnec, rfl, rfl⟩

end Sys2Proof.Machine
end

section
/-! PROOF. `COMPRESS` where it writes no palette: a train with a 17th bucket (spec/42_compress.md R143), a signal longer
than `DST_CAP` (R145), and the empty train (R147). -/

namespace Sys2Proof.Machine

/-! ## A 17th bucket (spec/42_compress.md R143) -/

/-- The scan fails exactly where the first symbols, as many as it takes, are written and need more than 16 buckets. -/
theorem scanTrain_capacityExceeded_iff (m : Memory) (tol n a i : Nat) (pal : List Dur)
    (hl : pal.length ≤ paletteMax) :
    FailsWith (scanTrain m tol n a i pal) 2#4 ↔
      ∃ k ≤ n, Memory.written m a (2 * k) = true ∧
        paletteMax < ((dursAt m a k).foldl (openBucket tol) pal).length := by
  induction n generalizing a i pal with
  | zero =>
    refine iff_of_false (failsWith_ok _ _) fun ⟨k, hk, _, hover⟩ => ?_
    obtain rfl := Nat.le_zero.1 hk
    exact absurd hl (Nat.not_le.2 hover)
  | succ n ih =>
    have hnone : ¬ paletteMax < ((dursAt m a 0).foldl (openBucket tol) pal).length := Nat.not_lt.2 hl
    have hwritten (k : Nat) : Memory.written m a (2 * (k + 1)) = true ↔
        (∃ w, readSymbol m a = .ok w) ∧ Memory.written m (a + 2) (2 * k) = true := by
      rw [← written_iff_readSymbol, ← Memory.written_add, Nat.add_comm 2, Nat.mul_succ]
    simp only [← Nat.lt_succ_iff (n := n), ← Nat.lt_succ_iff (n := n + 1)] at ih ⊢
    rw [scanTrain, failsWith_bind, Nat.exists_lt_succ_left]
    simp only [readSymbol_not_failsWith, hnone, hwritten, dursAt_succ, List.foldl_cons, false_or, and_false]
    cases hw : readSymbol m a with
    | error e => simp
    | ok w =>
      have hd : durAt m a 0 = durOf w := by rw [durAt, readSymbol_ok m a 0 w hw]
      rw [hd]
      cases hp : placeDur tol (durOf w) pal with
      | none =>
        obtain ⟨hfull, hopen⟩ := (placeDur_eq_none _ _ _).1 hp
        have hover : paletteMax < (openBucket tol pal (durOf w)).length := by
          rw [hopen, List.length_append, List.length_singleton]
          omega
        simp only [Except.ok.injEq, exists_eq_left', hp]
        exact iff_of_true ⟨_, rfl, rfl⟩ ⟨0, Nat.succ_pos n, ⟨⟨w, rfl⟩, rfl⟩, hover⟩
      | some q =>
        obtain ⟨j, pal'⟩ := q
        simp [hp, failsWith_bind, ih _ _ _ (placeDur_length _ _ _ _ _ hp hl), ← placeDur_openBucket _ _ _ _ _ hp]

/-- `COMPRESS` answers code 2 exactly with good regions and a written part of the train that needs more than 16 buckets:
`DST_CAP` and the symbols after that part play no role (spec/42_compress.md R143, R145). -/
theorem computeCompress_capacityExceeded_iff (p : Params) (o : OperandRegs) (m : Memory) :
    FailsWith (computeCompress p o m) 2 ↔
      (o.src % 2 = 0 ∧ o.src + 2 * o.len ≤ p.bufBytes) ∧ o.dst + o.cap ≤ p.bufBytes ∧
      regionsOverlap o.src (o.src + 2 * o.len) o.dst (o.dst + o.cap) = false ∧
      ∃ k ≤ o.len, Memory.written m o.src (2 * k) = true ∧
        paletteMax < (buckets p.paletteTol (dursAt m o.src k)).length := by
  have hscan := scanTrain_capacityExceeded_iff m p.paletteTol o.len o.src 0 [] (Nat.zero_le _)
  simp only [computeCompress, failsWith_bind, failsWith_raiseIf, checkSrcSymbols_failsWith, checkSrcSymbols_ok,
    checkDstBytes_failsWith, checkDstBytes_ok, checkNoOverlap_failsWith, checkNoOverlap_ok, Cause.code, hscan, buckets,
    failsWith_ok, BitVec.ofNat_eq_ofNat, BitVec.reduceEq, exists_const, and_false, false_or, or_false]

/-- A train whose first `k` symbols, all written, need more than 16 buckets is CapacityExceeded. -/
theorem exec_compress_capacityExceeded (s : State) (k : Nat) (hreg : s.regionsOk .compress = true)
    (hk : k ≤ s.snap.len) (hw : Memory.written s.buf s.snap.src (2 * k) = true)
    (hover : paletteMax < (s.bucketsOf k).length) : exec .compress s = .next (s.failed 2) := by
  obtain ⟨hsrc, hdst, hapart⟩ := (regionsOk_compress_iff s).1 hreg
  exact exec_of_failsWith .compress s 2
    ((computeCompress_capacityExceeded_iff _ _ _).2 ⟨hsrc, hdst, hapart, k, hk, hw, hover⟩)

/-! ## Durations far apart need buckets of their own (spec/42_compress.md R142) -/

/-- Durations within the tolerance of one entry are at most twice the tolerance apart. -/
theorem durDist_le_of_near {tol : Nat} {d d' e : Dur} (h : durDist d e ≤ tol) (h' : durDist d' e ≤ tol) :
    durDist d d' ≤ 2 * tol := by
  simp only [durDist] at *
  omega

/-- Every duration of a train is within the tolerance of one of its buckets. -/
theorem exists_near_bucket (tol : Nat) (ds : List Dur) (d : Dur) (hd : d ∈ ds) :
    ∃ e ∈ buckets tol ds, durDist d e ≤ tol := by
  obtain ⟨before, after, rfl⟩ := List.append_of_mem hd
  obtain ⟨j, -, hfind⟩ := findBucket_openBucket tol (buckets tol before) d
  have hext := foldl_openBucket_extends tol after (openBucket tol (buckets tol before) d)
  obtain ⟨hj, hnear, -⟩ := (findBucket_eq_some _ _ _ _).1 (findBucket_of_extends _ _ _ _ _ hext hfind)
  rw [buckets_append, List.foldl_cons]
  exact ⟨_, List.getElem_mem hj, hnear⟩

/-- Durations of a train, each two further apart than twice the tolerance, need as many buckets as they are. -/
theorem length_le_buckets_of_apart (tol : Nat) (ds es : List Dur) (hsub : es ⊆ ds)
    (hapart : es.Pairwise fun d e => 2 * tol < durDist d e) : es.length ≤ (buckets tol ds).length := by
  choose! bucket hmem hnear using fun d (hd : d ∈ es) => exists_near_bucket tol ds d (hsub hd)
  have hnodup : (es.map bucket).Nodup := by
    refine List.pairwise_map.2 (hapart.imp_of_mem fun {d e} hd he hde heq => ?_)
    exact absurd (durDist_le_of_near (hnear d hd) (heq ▸ hnear e he)) (Nat.not_le.2 hde)
  have hsubset : es.map bucket ⊆ buckets tol ds := fun _ => List.forall_mem_map.2 hmem _
  simpa using (hnodup.subperm hsubset).length_le

/-- Settles O38: the scan stops within the first m symbols, and 17 durations far apart open 17 buckets. -/
theorem seventeenthBucketFails : Obligations.SeventeenthBucketFails := by
  intro s m hreg hm hw
  refine ⟨exec_compress_capacityExceeded s m hreg hm hw, fun l hl hlt hapart => ?_⟩
  have hsub : l.map (durAt s.buf s.snap.src) ⊆ dursAt s.buf s.snap.src m :=
    List.map_subset _ fun i hi => List.mem_range.2 (hlt i hi)
  have hle := length_le_buckets_of_apart _ _ _ hsub (List.pairwise_map.2 hapart)
  rw [List.length_map, hl] at hle
  exact exec_compress_capacityExceeded s m hreg hm hw hle

/-! ## A signal longer than `DST_CAP` (spec/42_compress.md R145) -/

/-- Settles O39: the scan of a train of at most 16 buckets ends, and the signal's length is compared after it. -/
theorem compressWithoutRoomFails : Obligations.CompressWithoutRoomFails := by
  rintro s n hreg hw rfl h16 hcap
  obtain ⟨hsrc, hdst, hapart⟩ := (regionsOk_compress_iff s).1 hreg
  obtain ⟨⟨pal, idx⟩, hscan⟩ := scanTrain_succeeds s.buf s.params.paletteTol s.snap.len s.snap.src 0 [] hw h16
  obtain rfl : pal = s.bucketsOf s.snap.len := scanTrain_palette _ _ _ _ _ _ _ hscan
  exact exec_of_failsWith .compress s 5
    ((computeCompress_allocationFailure_iff _ _ _).2 ⟨hsrc, hdst, hapart, _, hscan, hcap⟩)

/-! ## The empty train (spec/42_compress.md R147) -/

/-- Each byte of a number that `BUF` holds. -/
theorem read_of_memRead (m : Memory) (a n v k : Nat) (h : memRead m a n = .ok v) (hk : k < n) :
    Memory.read m (a + k) = some (BitVec.ofNat 8 (v / 256 ^ k)) := by
  obtain ⟨bs, hbs, rfl⟩ := (memRead_ok _ _ _ _).1 h
  obtain ⟨rfl, hread⟩ := (Memory.bytesAt_ok _ _ _ _).1 hbs
  rw [hread k hk, leNat_div_pow bs k hk]

/-- The header of a signal without symbols: `MAGIC` and five bytes 0. -/
theorem SignalAt.empty_header {m : Memory} {a : Nat} {magic : Byte} {idx : List (BitVec 4)}
    (h : SignalAt m a magic 0 [] idx) :
    Memory.read m a = some magic ∧ ∀ k, 1 ≤ k → k < 6 → Memory.read m (a + k) = some 0 := by
  refine ⟨(readByte_ok _ _ _).1 (readByte_of_memRead _ _ _ h.magic), fun k hk hk6 => ?_⟩
  obtain ⟨j, rfl⟩ := Nat.exists_eq_add_of_le hk
  rw [← Nat.add_assoc]
  obtain hj | rfl : j < 4 ∨ j = 4 := by omega
  · simpa using read_of_memRead _ _ _ _ j h.count hj
  · simpa using read_of_memRead _ _ _ _ 0 h.size Nat.one_pos

/-- Settles O40: no source byte is read, and the signal is its header, whose count and palette size are 0. -/
theorem compressOfEmptyTrain : Obligations.CompressOfEmptyTrain := by
  intro s hempty hreg hcap
  have hlen : s.snap.len = 0 := congrArg BitVec.toNat hempty
  have hbuckets : s.bucketsOf s.snap.len = [] := by rw [hlen]; rfl
  have hw : s.sourceWritten .compress = true := by rw [State.sourceWritten, sourceBytes, hlen]; rfl
  obtain ⟨idx, -, hexec⟩ := exec_compress_ok s hreg hw (by rw [hbuckets]; decide) (by rwa [hbuckets, hlen])
  have hout : s.compressOutput idx = ⟨signalWrites s.params s.snap.dst 0 [] idx, 6, 0⟩ := by
    rw [State.compressOutput, hbuckets, hlen]
    rfl
  rw [hout] at hexec
  exact ⟨_, hexec, rfl, rfl, rfl, (signalAt_signalWrites _ _ _ 0 [] idx (by decide) (by decide)).empty_header⟩

end Sys2Proof.Machine
end

section
/-! PROOF. `DECOMPRESS` (spec/43_decompress.md): what it reads (R160, R162), its failures in order (R161, R164), the
train it writes (R163), and the round trip with `COMPRESS` (R166). -/

namespace Sys2Proof.Machine

/-! ## The palette (spec/43_decompress.md R160, R161 case 5) -/

theorem durAt_succ (m : Memory) (a i : Nat) : durAt m a (i + 1) = durAt m (a + 2) i := by
  rw [durAt, durAt, symbolWordAt, symbolWordAt, show a + 2 * (i + 1) = a + 2 + 2 * i by omega]

@[simp] theorem dursAt_length (m : Memory) (a n : Nat) : (dursAt m a n).length = n := by simp [dursAt]

/-- A palette of one entry more: its first entry is a symbol word, then the rest. -/
theorem readPalette_succ_ok (m : Memory) (n a : Nat) (entries : List Half) :
    readPalette m (n + 1) a = .ok entries ↔
      ∃ e, readSymbol m a = .ok e ∧ ∃ es, readPalette m n (a + 2) = .ok es ∧ e :: es = entries := by
  simp [readPalette, readSymbol, bind_ok_iff]

/-- A written palette can be read. -/
theorem readPalette_of_written (m : Memory) (n a : Nat) (hw : Memory.written m a (2 * n) = true) :
    ∃ entries, readPalette m n a = .ok entries := by
  induction n generalizing a with
  | zero => exact ⟨[], rfl⟩
  | succ n ih =>
    rw [show 2 * (n + 1) = 2 + 2 * n by omega, Memory.written_add, written_iff_readSymbol] at hw
    obtain ⟨⟨e, he⟩, hw⟩ := hw
    obtain ⟨es, hes⟩ := ih (a + 2) hw
    exact ⟨_, (readPalette_succ_ok _ _ _ _).2 ⟨e, he, es, hes, rfl⟩⟩

/-- The durations of the entries read are those that stand there. -/
theorem readPalette_durs (m : Memory) (n a : Nat) (entries : List Half) (h : readPalette m n a = .ok entries) :
    entries.map durOf = dursAt m a n := by
  induction n generalizing a entries with
  | zero =>
    injection h with h
    subst h
    rfl
  | succ n ih =>
    obtain ⟨e, he, es, hes, rfl⟩ := (readPalette_succ_ok _ _ _ _).1 h
    rw [List.map_cons, ih _ _ hes, dursAt_succ, durAt, readSymbol_ok m a 0 e he]

/-- An entry that is not too wide is its duration. -/
theorem memRead_of_goodEntry (m : Memory) (a : Nat) (e : Half) (he : readSymbol m a = .ok e)
    (hgood : badEntry e = false) : memRead m a 2 = .ok (durAt m a 0).toNat := by
  have hread := (Memory.holds_iff _ _ _ _).1 (holds_of_readSymbol m a e he)
  have hle : e.toNat ≤ 0x7FFF := by simpa [badEntry] using hgood
  rw [hread, durAt, readSymbol_ok m a 0 e he, durOf_toNat, Nat.mod_eq_of_lt (Nat.lt_succ_of_le hle)]

theorem memRead_of_goodPalette (m : Memory) (n a : Nat) (entries : List Half) (h : readPalette m n a = .ok entries)
    (hgood : entries.any badEntry = false) (j : Nat) (hj : j < n) :
    memRead m (a + 2 * j) 2 = .ok (durAt m a j).toNat := by
  induction n generalizing a entries j with
  | zero => exact absurd hj (Nat.not_lt_zero j)
  | succ n ih =>
    obtain ⟨e, he, es, hes, rfl⟩ := (readPalette_succ_ok _ _ _ _).1 h
    rw [List.any_cons, Bool.or_eq_false_iff] at hgood
    obtain ⟨hgood₀, hgood⟩ := hgood
    cases j with
    | zero => exact memRead_of_goodEntry m a e he hgood₀
    | succ j =>
      rw [durAt_succ, show a + 2 * (j + 1) = a + 2 + 2 * j by omega]
      exact ih _ es hes hgood j (Nat.lt_of_succ_lt_succ hj)

theorem headerHolds_iff (s : State) (count n : Nat) :
    s.headerHolds count n = true ↔
      6 ≤ s.snap.len ∧ memRead s.buf s.snap.src 1 = .ok s.params.magic.toNat ∧
        memRead s.buf (s.snap.src + 1) 4 = .ok count ∧ memRead s.buf (s.snap.src + 5) 1 = .ok n := by
  simp only [State.headerHolds, Bool.and_eq_true, decide_eq_true_eq, Memory.holds_iff, and_assoc]

theorem paletteHolds_iff (s : State) (n : Nat) :
    s.paletteHolds n = true ↔ n ≤ paletteMax ∧ 6 + 2 * n ≤ s.snap.len ∧
      ∀ j < n, memRead s.buf (s.snap.src + 6 + 2 * j) 2 = .ok (durAt s.buf (s.snap.src + 6) j).toNat := by
  simp only [State.paletteHolds, Bool.and_eq_true, decide_eq_true_eq, List.all_eq_true, List.mem_range,
    Memory.holds_iff, and_assoc]

/-- A palette of a declared size that can be read does not hold exactly because an entry is too wide. -/
theorem badEntry_of_not_paletteHolds (s : State) (n : Nat) (entries : List Half) (hn : n ≤ paletteMax)
    (hlen : 6 + 2 * n ≤ s.snap.len) (hread : readPalette s.buf n (s.snap.src + 6) = .ok entries)
    (hpal : s.paletteHolds n = false) : entries.any badEntry = true := by
  by_contra hgood
  rw [Bool.not_eq_true] at hgood
  exact Bool.eq_false_iff.1 hpal ((paletteHolds_iff s n).2 ⟨hn, hlen, memRead_of_goodPalette _ _ _ _ hread hgood⟩)

/-- An index of N or more is corrected to 0 (spec/43_decompress.md R162). -/
theorem paletteDur_dursAt (m : Memory) (a n ix : Nat) (hn : 0 < n) :
    paletteDur (dursAt m a n) ix = durAt m a (if ix < n then ix else 0) := by
  have hlt : (if ix < n then ix else 0) < n := by split <;> assumption
  rw [paletteDur, dursAt_length, (dursAt_getElem?_eq_some _ _ _ _ _).2 ⟨hlt, rfl⟩, Option.getD_some]

/-! ## The symbols (spec/43_decompress.md R162, R163) -/

/-- The symbol that position `i` decodes to, where the packed indices start at `base` and the palette is `pal`. -/
def decodedSym (m : Memory) (base : Nat) (pal : List Dur) (i : Nat) : Symbol :=
  ⟨altLevel i, paletteDur pal (indexAt m base i)⟩

theorem indexAt_of_read (m : Memory) (base i : Nat) (b : Byte) (h : Memory.read m (base + i / 2) = some b) :
    indexAt m base i = (nibbleOf i b).toNat := by
  rw [indexAt, h]

theorem decodeSyms_of_written (m : Memory) (base : Nat) (pal : List Dur) (n i : Nat)
    (hw : ∀ k, i ≤ k → k < i + n → (Memory.read m (base + k / 2)).isSome = true) :
    decodeSyms m base pal n i = .ok ((List.range' i n).map (decodedSym m base pal)) := by
  induction n generalizing i with
  | zero => rfl
  | succ n ih =>
    obtain ⟨b, hb⟩ := Option.isSome_iff_exists.1 (hw i le_rfl (by omega))
    have hrest := ih (i + 1) fun k h1 h2 => hw k (by omega) (by omega)
    rw [decodeSyms, (readByte_ok _ _ _).2 hb, hrest, List.range'_succ, List.map_cons, decodedSym,
      indexAt_of_read _ _ _ _ hb]
    rfl

/-- A signal of `count` symbols whose packed bytes are written is decoded to its end. -/
theorem decodeSyms_zero_of_written (m : Memory) (base : Nat) (pal : List Dur) (count : Nat)
    (hw : Memory.written m base (ceilHalf count) = true) :
    decodeSyms m base pal count 0 = .ok ((List.range count).map (decodedSym m base pal)) := by
  rw [List.range_eq_range']
  refine decodeSyms_of_written m base pal count 0 fun k _ hk => (Memory.written_iff _ _ _).1 hw _ ?_
  rw [ceilHalf]
  omega

theorem decodedSym_alternates (m : Memory) (base : Nat) (pal : List Dur) (count : Nat) :
    alternatesFrom 0 ((List.range count).map (decodedSym m base pal)) := by
  intro k hk
  simp [decodedSym]

/-! ## The result of `DECOMPRESS` (spec/43_decompress.md R160, R163, R165) -/

/-- The train of a signal with `count` symbols and `n` palette entries at the source of `DECOMPRESS`. -/
def State.decodedTrain (s : State) (count n : Nat) : List Symbol :=
  (List.range count).map (decodedSym s.buf (s.snap.src + 6 + 2 * n) (dursAt s.buf (s.snap.src + 6) n))

@[simp] theorem State.decodedTrain_length (s : State) (count n : Nat) : (s.decodedTrain count n).length = count := by
  simp [State.decodedTrain]

/-- What `DECOMPRESS` of that signal reports and writes. -/
def State.decompressOutput (s : State) (count n : Nat) : Output where
  writes := trainWrites s.snap.dst (s.decodedTrain count n)
  len := count
  pal := n

@[simp] theorem State.decompressOutput_writes (s : State) (count n : Nat) :
    (s.decompressOutput count n).writes = trainWrites s.snap.dst (s.decodedTrain count n) := rfl

/-- A well-formed signal with room for its symbols is decoded to its end, and the command succeeds. -/
theorem exec_decompress_ok (s : State) (count n : Nat) (hreg : s.regionsOk .decompress = true)
    (hheader : s.headerHolds count n = true) (hpal : s.paletteHolds n = true) (hne : count = 0 ∨ 0 < n)
    (hlen : signalLen count n ≤ s.snap.len)
    (hw : Memory.written s.buf (s.snap.src + 6 + 2 * n) (ceilHalf count) = true) (hcap : count ≤ s.snap.cap) :
    exec .decompress s = .next (s.finishOk (s.decompressOutput count n)) := by
  obtain ⟨hsrc, hdst, hapart⟩ := (regionsOk_encUniv_iff s).1 hreg
  obtain ⟨h6, hmagic, hcount, hsize⟩ := headerHolds_reads s count n hheader
  obtain ⟨hn, hpalLen, entries, hentries, hgood⟩ := paletteHolds_reads s n hpal
  have hpalette : ¬(0 < count ∧ n = 0) := by omega
  rw [exec_eq_complete]
  refine (complete_next _ _ _).2 (.inl ⟨_, (computeDecompress_ok _ _ _ _).2 ⟨hsrc, hdst, hapart, h6, _, hmagic, rfl,
    count, hcount, n, hsize, hn, hpalLen, entries, hentries, hgood, hpalette, hlen, hcap, s.decodedTrain count n, ?_,
    rfl⟩, rfl⟩)
  rw [readPalette_durs _ _ _ _ hentries]
  exact decodeSyms_zero_of_written _ _ _ _ hw

/-- The duration of a decoded symbol is the entry of its index, or entry 0 where there is no such entry. -/
theorem State.decodedTrain_dur (s : State) (count n i : Nat) (hn : 0 < n) (hi : i < (s.decodedTrain count n).length) :
    (s.decodedTrain count n)[i].dur = durAt s.buf (s.snap.src + 6)
      (if indexAt s.buf (s.snap.src + 6 + 2 * n) i < n then indexAt s.buf (s.snap.src + 6 + 2 * n) i else 0) := by
  rw [← paletteDur_dursAt _ _ _ _ hn]
  simp [State.decodedTrain, decodedSym]

/-- Settles O43: the symbols decoded are those at their positions, and an alternating train is written. -/
theorem decompressWritesTheTrain : Obligations.DecompressWritesTheTrain := by
  intro s count n hreg hheader hpal hne hlen hw hcap
  obtain ⟨hn, -, -⟩ := paletteHolds_reads s n hpal
  refine ⟨_, exec_decompress_ok s count n hreg hheader hpal hne hlen hw hcap, rfl,
    toNat_ofNat_of_lt 32 _ (hcap.trans_lt s.snap.dstCap.isLt), toNat_ofNat_of_lt 5 _ (hn.trans_lt (by decide)), rfl,
    rfl, ?_⟩
  rintro i hi ix rfl d rfl
  have hlt : i < (s.decodedTrain count n).length := by rwa [State.decodedTrain_length]
  rw [← s.decodedTrain_dur count n i (by omega) hlt]
  exact holds_trainWrites _ _ _ i hlt (decodedSym_alternates _ _ _ _)

/-! ## Failures in order (spec/43_decompress.md R161, R164) -/

/-- `DECOMPRESS` answers code 1 exactly with a bad region. -/
theorem computeDecompress_invalidArgument_iff (p : Params) (o : OperandRegs) (m : Memory) :
    FailsWith (computeDecompress p o m) 1 ↔
      ¬ (o.src + o.len ≤ p.bufBytes ∧ (o.dst % 2 = 0 ∧ o.dst + 2 * o.cap ≤ p.bufBytes) ∧
        regionsOverlap o.src (o.src + o.len) o.dst (o.dst + 2 * o.cap) = false) := by
  simp only [computeDecompress, failsWith_bind, failsWith_raiseIf, checkSrcBytes_failsWith, checkSrcBytes_ok,
    checkDstSymbols_failsWith, checkDstSymbols_ok, checkNoOverlap_failsWith, checkNoOverlap_ok, Cause.code,
    readByte_not_failsWith, memRead_not_failsWith, readPalette_not_failsWith, decodeSyms_not_failsWith, failsWith_ok,
    BitVec.ofNat_eq_ofNat, BitVec.reduceEq, exists_const, and_true, and_false, or_false, ← Bool.not_eq_true]
  tauto

/-- One of the checks 3 to 7 fails, which follow the header: too large a palette, a palette cut short, an entry too
wide, symbols without a palette, indices cut short.  Each is reached only past the ones before it, and check 5 only with
the palette written. -/
def SignalCheckFails (o : OperandRegs) (m : Memory) (count n : Nat) : Prop :=
  paletteMax < n ∨ n ≤ paletteMax ∧
  (o.len < 6 + 2 * n ∨ 6 + 2 * n ≤ o.len ∧ ∃ entries, readPalette m n (o.src + 6) = .ok entries ∧
  (entries.any badEntry = true ∨ entries.any badEntry = false ∧
  (0 < count ∧ n = 0 ∨ ¬(0 < count ∧ n = 0) ∧ o.len < signalLen count n)))

/-- One of the seven format checks fails: no room for a header, a wrong first byte, or one of those after the header. -/
def FormatCheckFails (p : Params) (o : OperandRegs) (m : Memory) : Prop :=
  o.len < 6 ∨ 6 ≤ o.len ∧ ∃ magic, readByte m o.src = .ok magic ∧
  (magic ≠ p.magic ∨ magic = p.magic ∧ ∃ count, memRead m (o.src + 1) 4 = .ok count ∧
  ∃ n, memRead m (o.src + 5) 1 = .ok n ∧ SignalCheckFails o m count n)

/-- `DECOMPRESS` answers code 3 exactly with good regions and a failed format check (spec/43_decompress.md R161). -/
theorem computeDecompress_invalidFormat_iff (p : Params) (o : OperandRegs) (m : Memory) :
    FailsWith (computeDecompress p o m) 3 ↔
      o.src + o.len ≤ p.bufBytes ∧ (o.dst % 2 = 0 ∧ o.dst + 2 * o.cap ≤ p.bufBytes) ∧
      regionsOverlap o.src (o.src + o.len) o.dst (o.dst + 2 * o.cap) = false ∧ FormatCheckFails p o m := by
  simp only [computeDecompress, FormatCheckFails, SignalCheckFails, failsWith_bind, failsWith_raiseIf, raiseIf_ok,
    checkSrcBytes_failsWith, checkSrcBytes_ok, checkDstSymbols_failsWith, checkDstSymbols_ok, checkNoOverlap_failsWith,
    checkNoOverlap_ok, Cause.code, readByte_not_failsWith, memRead_not_failsWith, readPalette_not_failsWith,
    decodeSyms_not_failsWith, failsWith_ok, BitVec.ofNat_eq_ofNat, BitVec.reduceEq, exists_const, and_true, and_false,
    false_or, or_false, decide_eq_true_eq, decide_eq_false_iff_not, not_lt, gt_iff_lt, ne_eq, not_not]

theorem exec_decompress_of_formatCheckFails (s : State) (hreg : s.regionsOk .decompress = true)
    (h : FormatCheckFails s.params s.snap s.buf) : exec .decompress s = .next (s.failed 3) := by
  obtain ⟨hsrc, hdst, hapart⟩ := (regionsOk_encUniv_iff s).1 hreg
  exact exec_of_failsWith .decompress s 3 ((computeDecompress_invalidFormat_iff _ _ _).2 ⟨hsrc, hdst, hapart, h⟩)

theorem exec_decompress_of_signalCheckFails (s : State) (count n : Nat) (hreg : s.regionsOk .decompress = true)
    (hheader : s.headerHolds count n = true) (h : SignalCheckFails s.snap s.buf count n) :
    exec .decompress s = .next (s.failed 3) := by
  obtain ⟨h6, hmagic, hcount, hsize⟩ := headerHolds_reads s count n hheader
  exact exec_decompress_of_formatCheckFails s hreg
    (.inr ⟨h6, _, hmagic, .inr ⟨rfl, count, hcount, n, hsize, h⟩⟩)

/-- Past a palette that holds, two checks remain: symbols without a palette, and indices cut short. -/
theorem signalCheckFails_of_paletteHolds (s : State) (count n : Nat) (hpal : s.paletteHolds n = true)
    (h : (0 < count ∧ n = 0) ∨ s.snap.len < signalLen count n) : SignalCheckFails s.snap s.buf count n := by
  obtain ⟨hn, hlen, entries, hentries, hgood⟩ := paletteHolds_reads s n hpal
  refine .inr ⟨hn, .inr ⟨hlen, entries, hentries, .inr ⟨hgood, ?_⟩⟩⟩
  tauto

/-- A written palette that does not hold has an entry too wide. -/
theorem signalCheckFails_of_not_paletteHolds (s : State) (count n : Nat) (hn : n ≤ paletteMax)
    (hlen : 6 + 2 * n ≤ s.snap.len) (hw : Memory.written s.buf (s.snap.src + 6) (2 * n) = true)
    (hpal : s.paletteHolds n = false) : SignalCheckFails s.snap s.buf count n := by
  obtain ⟨entries, hentries⟩ := readPalette_of_written _ _ _ hw
  exact .inr ⟨hn, .inr ⟨hlen, entries, hentries, .inl (badEntry_of_not_paletteHolds s n entries hn hlen hentries hpal)⟩⟩

/-- A well-formed signal with more symbols than `DST_CAP` is AllocationFailure, with no index read. -/
theorem exec_decompress_allocationFailure (s : State) (count n : Nat) (hreg : s.regionsOk .decompress = true)
    (hheader : s.headerHolds count n = true) (hpal : s.paletteHolds n = true) (hne : count = 0 ∨ 0 < n)
    (hlen : signalLen count n ≤ s.snap.len) (hcap : s.snap.cap < count) :
    exec .decompress s = .next (s.failed 5) := by
  obtain ⟨hsrc, hdst, hapart⟩ := (regionsOk_encUniv_iff s).1 hreg
  obtain ⟨h6, hmagic, hcount, hsize⟩ := headerHolds_reads s count n hheader
  obtain ⟨hn, hpalLen, entries, hentries, hgood⟩ := paletteHolds_reads s n hpal
  have hpalette : ¬(0 < count ∧ n = 0) := by omega
  exact exec_of_failsWith .decompress s 5 ((computeDecompress_allocationFailure_iff _ _ _).2 ⟨hsrc, hdst, hapart, h6, _,
    hmagic, rfl, count, hcount, n, hsize, hn, hpalLen, entries, hentries, hgood, hpalette, hlen, hcap⟩)

/-- Settles O42: a bad region, then check by check with what the checks before it have read, then the capacity. -/
theorem decompressFailuresInOrder : Obligations.DecompressFailuresInOrder := by
  refine fun s => ⟨fun h => ?_, fun hreg hlen => exec_decompress_of_formatCheckFails s hreg (.inl hlen),
    fun hreg h6 b hb hmagic => ?_, fun hreg count n hheader => ?_⟩
  · rw [← Bool.not_eq_true (State.regionsOk _ _)] at h
    exact exec_of_failsWith .decompress s 1
      ((computeDecompress_invalidArgument_iff _ _ _).2 (mt (regionsOk_encUniv_iff s).2 h))
  · exact exec_decompress_of_formatCheckFails s hreg (.inr ⟨h6, b, (readByte_ok _ _ _).2 hb, .inl hmagic⟩)
  · have hcheck := exec_decompress_of_signalCheckFails s count n hreg hheader
    exact ⟨fun hn => hcheck (.inl hn), fun hn hlen => hcheck (.inr ⟨hn, .inl hlen⟩),
      fun hn hlen hw hpal => hcheck (signalCheckFails_of_not_paletteHolds s count n hn hlen hw hpal),
      fun hpal hcount hn => hcheck (signalCheckFails_of_paletteHolds s count n hpal (.inl ⟨hcount, hn⟩)),
      fun hpal hlen => hcheck (signalCheckFails_of_paletteHolds s count n hpal (.inr hlen)),
      exec_decompress_allocationFailure s count n hreg hheader⟩

/-! ## The round trip (spec/43_decompress.md R166) -/

/-- A successful `COMPRESS` has scanned the whole train and leaves its signal. -/
theorem exec_compress_without_error (s t : State) (h : exec .compress s = .next t) (herr : t.err = 0) :
    ∃ idx, scanTrain s.buf s.params.paletteTol s.snap.len s.snap.src 0 [] = .ok (s.bucketsOf s.snap.len, idx) ∧
      t = s.finishOk (s.compressOutput idx) ∧
      t.resultLen.toNat = signalLen s.snap.len (s.bucketsOf s.snap.len).length := by
  obtain ⟨r, hr, rfl, hlen⟩ := exec_next_without_error .compress s t h herr
  obtain ⟨-, -, -, ⟨pal, idx⟩, hscan, -, rfl⟩ := (computeCompress_ok _ _ _ _).1 hr
  obtain rfl : pal = s.bucketsOf s.snap.len := scanTrain_palette _ _ _ _ _ _ _ hscan
  exact ⟨idx, hscan, rfl, hlen⟩

theorem SignalAt.headerHolds {u : State} {count : Nat} {pal : List Dur} {idx : List (BitVec 4)}
    (h : SignalAt u.buf u.snap.src u.params.magic count pal idx) (hlen : 6 ≤ u.snap.len) :
    u.headerHolds count pal.length = true :=
  (headerHolds_iff _ _ _).2 ⟨hlen, h.magic, h.count, h.size⟩

theorem SignalAt.paletteHolds {u : State} {magic : Byte} {count : Nat} {pal : List Dur} {idx : List (BitVec 4)}
    (h : SignalAt u.buf u.snap.src magic count pal idx) (hpal : pal.length ≤ paletteMax)
    (hlen : 6 + 2 * pal.length ≤ u.snap.len) : u.paletteHolds pal.length = true := by
  refine (paletteHolds_iff _ _).2 ⟨hpal, hlen, fun j hj => ?_⟩
  have hentry := List.getElem?_eq_getElem hj
  rw [h.durAt_eq j _ hentry]
  exact h.entry j _ hentry

/-- Every symbol of a train written reads back from its position. -/
theorem symbolWordAt_trainWrites (t : List Symbol) (m : Memory) (a i : Nat) (hi : i < t.length) :
    symbolWordAt (applyWrites m (trainWrites a t)) a i = t[i].word :=
  readSymbol_ok _ _ _ _ (readSymbol_trainWrites t m a i hi)

theorem written_trainWrites (t : List Symbol) (m : Memory) (a : Nat) :
    Memory.written (applyWrites m (trainWrites a t)) a (2 * t.length) = true := by
  refine (Memory.written_iff _ _ _).2 fun k hk => ?_
  rw [← trainWrites_length t a] at hk
  rw [applyWrites_contiguous _ _ _ (trainWrites_contiguous t a), Memory.read_writeBytes_same _ _ _ _ hk,
    Option.isSome_some]

/-- What a decoded signal leaves at the destination: position by position the level of the position, and the entry of
its index or entry 0. -/
theorem State.finishOk_decompressOutput (u : State) (count n i : Nat) (hn : 0 < n) (hi : i < count) :
    levelOf (symbolWordAt (u.finishOk (u.decompressOutput count n)).buf u.snap.dst i) = altLevel i ∧
    durAt (u.finishOk (u.decompressOutput count n)).buf u.snap.dst i = durAt u.buf (u.snap.src + 6)
      (if indexAt u.buf (u.snap.src + 6 + 2 * n) i < n then indexAt u.buf (u.snap.src + 6 + 2 * n) i else 0) := by
  have hlt : i < (u.decodedTrain count n).length := by rwa [State.decodedTrain_length]
  have hlevel : (u.decodedTrain count n)[i].level = altLevel (0 + i) := decodedSym_alternates _ _ _ _ i hlt
  rw [Nat.zero_add] at hlevel
  rw [State.finishOk_buf, State.decompressOutput_writes, durAt, symbolWordAt_trainWrites _ _ _ _ hlt, levelOf_word,
    durOf_word, hlevel, u.decodedTrain_dur count n i hn hlt]
  exact ⟨rfl, rfl⟩

section
variable {s : State} {m : Memory} {idx : List (BitVec 4)}
  (hscan : scanTrain s.buf s.params.paletteTol s.snap.len s.snap.src 0 [] = .ok (s.bucketsOf s.snap.len, idx))
  (hsig : SignalAt m s.snap.dst s.params.magic s.snap.len (s.bucketsOf s.snap.len) idx)

include hscan hsig

/-- A duration is its entry where every duration of the train equals it or is further from it than the tolerance: the
symbol that opened the entry is within it. -/
theorem entry_eq_of_apart (i : Nat) (hi : i < s.snap.len)
    (hapart : ∀ j, j < s.snap.len → durAt s.buf s.snap.src i = durAt s.buf s.snap.src j ∨
      s.params.paletteTol < durDist (durAt s.buf s.snap.src i) (durAt s.buf s.snap.src j)) :
    durAt m (s.snap.dst + 6) (indexAt m (s.snap.dst + 6 + 2 * (s.bucketsOf s.snap.len).length) i)
      = durAt s.buf s.snap.src i := by
  obtain ⟨hlt, hnear, -⟩ := indexAt_lowest hscan hsig i hi _ rfl
  obtain ⟨j, hj, -, hopener, -⟩ := entry_opener hscan hsig _ hlt
  rw [← hopener] at hnear ⊢
  exact ((hapart j hj).resolve_right (Nat.not_lt.2 hnear)).symm

/-- What `COMPRESS` left is a well-formed signal, so `DECOMPRESS` of it succeeds wherever the symbols have room. -/
theorem exec_decompress_of_signalAt (u : State) (hm : u.buf = m) (hp : u.params = s.params)
    (hsrc : u.snap.src = s.snap.dst) (hlen : u.snap.len = signalLen s.snap.len (s.bucketsOf s.snap.len).length)
    (hreg : u.regionsOk .decompress = true) (hcap : s.snap.len ≤ u.snap.cap) :
    exec .decompress u
      = .next (u.finishOk (u.decompressOutput s.snap.len (s.bucketsOf s.snap.len).length)) := by
  subst hm
  obtain ⟨hidx, hpal⟩ := scanTrain_ok _ _ _ _ _ _ _ hscan (Nat.zero_le _)
  have hne : s.snap.len = 0 ∨ 0 < (s.bucketsOf s.snap.len).length := by
    refine (Nat.eq_zero_or_pos _).imp_right fun hpos => ?_
    exact Nat.zero_lt_of_lt (indexAt_lowest hscan hsig 0 hpos _ rfl).1
  rw [← hsrc, ← hp] at hsig
  have hw := hidx ▸ hsig.written_packed
  have hroom : 6 + 2 * (s.bucketsOf s.snap.len).length ≤ u.snap.len := hlen ▸ Nat.le_add_right _ _
  exact exec_decompress_ok u _ _ hreg (hsig.headerHolds (by omega)) (hsig.paletteHolds hpal hroom) hne hlen.ge hw hcap

end

/-- Settles O44: `COMPRESS` leaves a signal whose indices are those of near entries, and `DECOMPRESS` gives each symbol
the entry of its index. -/
theorem codecRoundTrip : Obligations.CodecRoundTrip := by
  intro s t u hexec herr hp hbuf hsrc hlen hreg hcap
  obtain ⟨idx, hscan, ht, hresult⟩ := exec_compress_without_error s t hexec herr
  obtain ⟨-, hpal⟩ := scanTrain_ok _ _ _ _ _ _ _ hscan (Nat.zero_le _)
  have hsig : SignalAt t.buf s.snap.dst s.params.magic s.snap.len (s.bucketsOf s.snap.len) idx :=
    ht ▸ signalAt_signalWrites _ _ _ _ _ _ s.snap.srcLen.isLt hpal
  have hsize : t.palSize.toNat = (s.bucketsOf s.snap.len).length :=
    ht ▸ toNat_ofNat_of_lt 5 _ (hpal.trans_lt (by decide))
  have hindex (i : Nat) (hi : i < s.snap.len) := indexAt_lowest hscan hsig i hi _ rfl
  have hout (i : Nat) (hi : i < s.snap.len) :=
    u.finishOk_decompressOutput _ _ i (Nat.zero_lt_of_lt (hindex i hi).1) hi
  have hlevel (i : Nat) (hi : i < s.snap.len) := (hout i hi).1
  refine ⟨_, exec_decompress_of_signalAt hscan hsig u hbuf hp hsrc (hlen.trans hresult) hreg hcap, rfl,
    BitVec.ofNat_toNat _ _, ht ▸ rfl, ?_, hlevel, fun halt i hi => (hlevel i hi).trans (halt i hi).symm, fun i hi => ?_⟩
  · simpa using written_trainWrites (u.decodedTrain s.snap.len (s.bucketsOf s.snap.len).length) u.buf u.snap.dst
  · obtain ⟨hlt, hnear, -⟩ := hindex i hi
    have hentry := (hout i hi).2
    rw [hsrc, hbuf, if_pos hlt] at hentry
    rw [hentry, hsize]
    exact ⟨rfl, hnear, entry_eq_of_apart hscan hsig i hi⟩

end Sys2Proof.Machine
end

section
/-! PROOF. The completion of a command (spec/60_exceptions.md): the engine's step runs the accepted command (R201) or
reports an illegal number (R203), what a completion changes (R201, R202), the failures of `ENC_NEC` and `COMPRESS` on
bad regions (R204, R205), the interrupt (R206), and the end of every accepted command (spec/70_reset_and_hazards.md
R240). -/

namespace Sys2Proof.Machine

/-! ## The accepted command (spec/60_exceptions.md R201, R203) -/

theorem step_busy_unscheduled (s : State) (h : s.turns = []) (hb : s.busy = true) : step s = completionStep s := by
  rw [step, h]
  exact if_pos hb

/-- Settles O7: both steps are completions, and the number that the word decodes to is the command's. -/
theorem stepRunsTheAcceptedCommand : Obligations.StepRunsTheAcceptedCommand := by
  intro s w i hb hop hdecode _
  have hcur : s.curOp = opcode i := hop.trans ((decodeOp_ok_iff _ i).1 hdecode)
  refine ⟨fun hts => ?_, fun ts hts => ?_⟩
  · rw [step_busy_unscheduled s hts hb, completionStep_of_opcode s i hcur]
  · exact (step_engine s ts hts hb).trans (completionStep_of_opcode (s.setTurns ts) i hcur)

/-- Settles O9: the decoder rejects the number, and the completion of a rejected number runs no computation. -/
theorem illegalCommandCompletes : Obligations.IllegalCommandCompletes := by
  intro s h
  have hop : decodeOp s.curOp = .error (.illegalOp s.curOp) :=
    (decodeOp_illegalOp_iff _).2 (h.imp_left (congrArg BitVec.toNat))
  have hstep : completionStep s = .next (s.failed 6) := by
    rw [completionStep_eq, hop]
    rfl
  exact ⟨hstep, fun hb => (if_pos hb).trans hstep⟩

/-! ## What a completion leaves (spec/60_exceptions.md R201, R202) -/

theorem complete_frame (r : Except Halt Output) (s t : State) (h : complete r s = .next t) : CommandFrame s t := by
  rcases (complete_next r s t).1 h with ⟨o, -, rfl⟩ | ⟨c, -, rfl⟩ <;>
    exact ⟨rfl, rfl, rfl, rfl, rfl, rfl, rfl, rfl, rfl, rfl, rfl⟩

/-- A completion clears BUSY, sets DONE and reports a code of R200. -/
theorem complete_results (r : Except Halt Output) (s t : State) (h : complete r s = .next t) :
    t.busy = false ∧ t.done = true ∧ errReported t.err = true := by
  rcases (complete_next r s t).1 h with ⟨o, -, rfl⟩ | ⟨c, -, rfl⟩
  · exact ⟨rfl, rfl, rfl⟩
  · exact ⟨rfl, rfl, c.code_reported.1⟩

/-- A completion with an error code is that of a computation stopped with it. -/
theorem exec_next_with_error (i : Instr) (s t : State) (h : exec i s = .next t) (herr : t.err ≠ 0) :
    FailsWith (computeOf i s.params s.snap s.buf) t.err := by
  rw [exec_eq_complete] at h
  rcases (complete_next _ s t).1 h with ⟨o, -, rfl⟩ | ⟨c, hc, rfl⟩
  · exact absurd rfl herr
  · exact ⟨c, hc, rfl⟩

/-- Settles O46: the computation stopped with the code, and such a completion changes the results and flags alone. -/
theorem failedCommandsWriteNothing : Obligations.FailedCommandsWriteNothing := by
  intro i s t h herr
  have hfailed := exec_of_failsWith i s t.err (exec_next_with_error i s t h herr)
  refine ⟨Host.Outcome.next.inj (h.symm.trans hfailed), ?_⟩
  rw [exec_eq_complete] at h
  exact (complete_results _ s t h).2.2

/-- Settles O45: a success writes inside the region that its length counts, a failure nowhere. -/
theorem commandFrames : Obligations.CommandFrames := by
  intro i s t h
  refine ⟨complete_frame _ s t (exec_eq_complete i s ▸ h), fun a ha => ?_⟩
  by_cases herr : t.err = 0
  · obtain ⟨r, hr, rfl, hlen⟩ := exec_next_without_error i s t h herr
    rw [hlen] at ha
    exact read_applyWrites_other _ _ _ _ _ (computeOf_fits i _ _ _ r hr).within ha
  · rw [(failedCommandsWriteNothing i s t h herr).1]
    rfl

/-- Settles O48: the only fault is an unwritten byte of the source region, and no completion is refused. -/
theorem commandsCompleteOnWrittenSource : Obligations.CommandsCompleteOnWrittenSource := by
  intro i s hw
  cases h : exec i s with
  | next t => exact ⟨t, rfl, complete_results _ s t (exec_eq_complete i s ▸ h)⟩
  | fault f =>
    obtain ⟨a, -, hnone, hlo, hhi⟩ := commandsFaultOnlyOnUnwrittenSource i s f h
    have hsome := (Memory.written_iff _ _ _).1 hw (a - s.snap.src) (by omega)
    rw [Nat.add_sub_cancel' hlo, hnone] at hsome
    cases hsome
  | refused x => exact absurd (exec_eq_complete i s ▸ h) (complete_not_refused _ s x)

/-! ## Bad regions (spec/60_exceptions.md R204, R205) -/

/-- `ENC_NEC` answers code 1 exactly with a bad destination. -/
theorem computeEncNec_invalidArgument_iff (p : Params) (o : OperandRegs) :
    FailsWith (computeEncNec p o) 1 ↔ ¬ (o.dst % 2 = 0 ∧ o.dst + 2 * o.cap ≤ p.bufBytes) := by
  simp only [computeEncNec, failsWith_bind, failsWith_raiseIf, checkDstSymbols_failsWith, Cause.code, failsWith_ok,
    BitVec.ofNat_eq_ofNat, BitVec.reduceEq, and_true, and_false, exists_const, or_false]

/-- Settles O32: the destination is checked before the room. -/
theorem encNecFailuresInOrder : Obligations.EncNecFailuresInOrder := by
  refine fun s => ⟨fun h => ?_, fun hreg hcap => ?_⟩
  · rw [State.regionsOk, ← Bool.not_eq_true, symbolsFit_iff] at h
    exact exec_of_failsWith .encNec s 1 ((computeEncNec_invalidArgument_iff _ _).2 h)
  · exact exec_of_failsWith .encNec s 5
      ((computeEncNec_allocationFailure_iff _ _).2 ⟨(symbolsFit_iff _ _ _).1 hreg, hcap⟩)

/-- `COMPRESS` answers code 1 exactly with a bad region, before it reads a byte. -/
theorem computeCompress_invalidArgument_iff (p : Params) (o : OperandRegs) (m : Memory) :
    FailsWith (computeCompress p o m) 1 ↔
      ¬ ((o.src % 2 = 0 ∧ o.src + 2 * o.len ≤ p.bufBytes) ∧ o.dst + o.cap ≤ p.bufBytes ∧
        regionsOverlap o.src (o.src + 2 * o.len) o.dst (o.dst + o.cap) = false) := by
  simp only [computeCompress, failsWith_bind, failsWith_raiseIf, checkSrcSymbols_failsWith, checkSrcSymbols_ok,
    checkDstBytes_failsWith, checkDstBytes_ok, checkNoOverlap_failsWith, checkNoOverlap_ok, Cause.code,
    scanTrain_not_failsWith _ _ _ _ _ _ 1#4 (by decide), failsWith_ok, BitVec.ofNat_eq_ofNat, BitVec.reduceEq,
    exists_const, and_true, and_false, or_false, ← Bool.not_eq_true]
  tauto

/-- The codes of `COMPRESS`: that of a bad region, of the scan, and of too little room. -/
theorem computeCompress_failsWith (p : Params) (o : OperandRegs) (m : Memory) (e : BitVec 4)
    (h : FailsWith (computeCompress p o m) e) : e = 1 ∨ e = 2 ∨ e = 5 := by
  by_cases he : e = 2
  · exact .inr (.inl he)
  · simp only [computeCompress, failsWith_bind, failsWith_raiseIf, checkSrcSymbols_failsWith, checkDstBytes_failsWith,
      checkNoOverlap_failsWith, Cause.code, scanTrain_not_failsWith _ _ _ _ _ _ e he, failsWith_ok] at h
    tauto

/-- Settles O41: the regions are checked first, and only those checks have code 1. -/
theorem compressBadRegionsFail : Obligations.CompressBadRegionsFail := by
  refine fun s => ⟨fun h => ?_, fun hreg t h => ?_⟩
  · rw [← Bool.not_eq_true, regionsOk_compress_iff] at h
    exact exec_of_failsWith .compress s 1 ((computeCompress_invalidArgument_iff _ _ _).2 h)
  · by_cases herr : t.err = 0
    · exact .inl herr
    · have hfail := exec_next_with_error .compress s t h herr
      have hne : t.err ≠ 1 := fun hone =>
        (computeCompress_invalidArgument_iff _ _ _).1 (hone ▸ hfail) ((regionsOk_compress_iff s).1 hreg)
      exact .inr ((computeCompress_failsWith _ _ _ _ hfail).resolve_left hne)

/-! ## The interrupt (spec/60_exceptions.md R206) -/

/-- A completion leaves `irq` at IRQ_EN, which it does not change, since it sets DONE. -/
theorem completionStep_irq (s t : State) (h : completionStep s = .next t) : t.irq = s.irqEn := by
  rw [State.irq, (completionStep_flags s t h).2, Bool.true_and]
  rw [completionStep_eq_acceptedCompute] at h
  exact (complete_frame _ s t h).irqEn

/-- Settles O21, event by event. -/
theorem interruptFollowsDoneAndEnable : Obligations.InterruptFollowsDoneAndEnable := by
  refine fun s => ⟨?_, completionStep_irq s, Bool.and_true _, Bool.and_false _, ?_, fun v hb => ?_⟩
  · rw [readReg, readReg, statusWord_getLsbD, boolWord_getLsbD]
    rfl
  · rw [State.irq, writeReg, State.writeStatus_done]
    simp
  · rw [writeReg, State.writeCmd_idle v s hb]
    rfl

/-! ## An accepted command ends (spec/70_reset_and_hazards.md R240) -/

theorem writeOffset_turns (off : Nat) (v : Word) (s : State) : (writeOffset off v s).turns = s.turns := by
  unfold writeOffset
  split
  · exact (writeReg_frame _ v s).turns
  · rfl

theorem regAccess_turns (t : Txn) (s : State) : (regAccess t s).turns = s.turns := by
  unfold regAccess
  split
  · rfl
  · exact writeOffset_turns _ _ s

theorem transact_turns (t : Txn) (s u : State) (h : transact t s = .next u) : u.turns = s.turns := by
  rcases transact_next t s u h with ⟨-, -, rfl⟩ | ⟨-, -, -, ⟨-, v, -, rfl⟩ | ⟨v, -, rfl⟩⟩
  · exact regAccess_turns t s
  · rfl
  · rfl

/-- The host does not change the schedule. -/
theorem hostTurn_turns (s t : State) (h : hostTurn s = .next t) : t.turns = s.turns := by
  rcases hostTurn_cases s with ⟨-, hs⟩ | ⟨x, rest, -, hs⟩ | ⟨rest, -, hs⟩ <;> rw [hs] at h
  · injection h with h
    rw [h]
  · exact transact_turns x (s.setHost rest) t h
  · split at h
    · exact transact_turns _ (s.setHost rest) t h
    · exact transact_turns _ s t h

/-- A run of one step more: the step, then the rest of the run. -/
theorem run_succ_next (M : Host.Core) (n : Nat) (s t : M.State) (h : M.run (n + 1) s = .next t) :
    ∃ u, M.step s = .next u ∧ M.run n u = .next t := by
  rw [Host.Core.run] at h
  split at h
  · rename_i u hu
    exact ⟨u, hu, h⟩
  · cases h
  · cases h

/-- Settles O57, by induction on the host's turns: each leaves the command running and takes one turn off the schedule,
and with none left the step is the completion. -/
theorem acceptedCommandEnds : Obligations.AcceptedCommandEnds := by
  intro n
  induction n with
  | zero =>
    intro s t hb hts h
    obtain ⟨u, hu, hrun⟩ := run_succ_next core 0 s t h
    obtain rfl : u = t := Host.Outcome.next.inj hrun
    exact completionStep_flags s u ((step_busy_unscheduled s hts hb).symm.trans hu)
  | succ n ih =>
    intro s t hb hts h
    obtain ⟨u, hu, hrun⟩ := run_succ_next core (n + 1) s t h
    have hturn : hostTurn (s.setTurns (List.replicate n .host)) = .next u := (step_host s _ hts).symm.trans hu
    exact ih u t ((hostTurn_effect _ u hturn).running hb).1 (hostTurn_turns _ u hturn) hrun

end Sys2Proof.Machine
end

section
/-! PROOF. An idle block does nothing by itself (spec/70_reset_and_hazards.md R231). -/

namespace Sys2Proof.Machine

/-- Without BUSY the completion step is not enabled. -/
theorem engineTurn_idle (s : State) (hb : s.busy = false) : engineTurn s = .next s := by
  rw [engineTurn, hb]
  rfl

theorem step_engine_idle (s : State) (ts : List Turn) (h : s.turns = .engine :: ts) (hb : s.busy = false) :
    step s = .next (s.setTurns ts) := by
  rw [step, h]
  exact engineTurn_idle (s.setTurns ts) hb

theorem hostTurn_nil (s : State) (h : s.host = []) : hostTurn s = .next s := by
  rw [hostTurn, h]

/-- Settles O10: without BUSY the engine's turn changes nothing, and the other two steps are turns of a host that has
nothing left to do. -/
theorem idleBlockDoesNothing : Obligations.IdleBlockDoesNothing := by
  refine fun s hb => ⟨fun ts hts => step_engine_idle s ts hts hb, fun hhost => ⟨fun hts => ?_, fun ts hts => ?_⟩⟩
  · rw [step_idle_unscheduled s hts hb, hostTurn_nil s hhost]
  · exact (step_host s ts hts).trans (hostTurn_nil (s.setTurns ts) hhost)

end Sys2Proof.Machine
end
